-- ==== Sys2Proof/Word.lean ====
section
/-! DEFINITION. The words, levels, lines and events of the EPD-BB block (spec 00_scope.md R8, R9, R14, R15;
10_state.md R31 to R38). Plain data only. -/

namespace Sys2Proof

/-- An 8-bit byte, bits 7..0 (00_scope.md R14). -/
abbrev Byte := BitVec 8

/-- A 16-bit coordinate of SET_WINDOW and SET_CURSOR (30_encoding.md R105). -/
abbrev Coord := BitVec 16

/-- The level a GPIO write drives or a GPIO read samples (00_scope.md R15). -/
inductive Level
  | low
  | high
  deriving DecidableEq, Repr, Inhabited

/-- The five output lines (10_state.md R31 to R35). -/
inductive OutLine
  | clk
  | din
  | cs
  | dc
  | rst
  deriving DecidableEq, Repr

/-- What the model knows of an output line: a level, or that the physical level is not known (10_state.md R38). -/
inductive LineState
  | low
  | high
  | unknown
  deriving DecidableEq, Repr

/-- The state of a line on which the level `v` was written successfully. -/
def Level.toLine : Level → LineState
  | .low => .low
  | .high => .high

/-- The role of a framed byte (30_encoding.md R101). -/
inductive Role
  | cmd
  | data
  deriving DecidableEq, Repr

/-- One event of the trace (00_scope.md R9): a GPIO write, a failed GPIO write, a delay of at least `ms`
milliseconds, a read of BUSY, a warning. -/
inductive Event
  | w (l : OutLine) (v : Level)
  | f (l : OutLine) (v : Level)
  | dly (ms : Nat)
  | rd (b : Level)
  | warn (code : Nat)
  deriving DecidableEq, Repr

/-- What a micro-operation raises (60_exceptions.md R300, R301): an I/O failure of a write, an I/O failure of a read
of BUSY, or the busy timeout with its elapsed milliseconds. -/
inductive Raise
  | ioWrite (l : OutLine) (v : Level)
  | ioReadBusy
  | busyTimeout (elapsed : Nat)
  deriving DecidableEq, Repr

/-- What the environment answers to one GPIO access: it succeeds, it fails, or the call never returns
(00_scope.md R10(a); 40_transport.md R141, R145). -/
inductive GpioAnswer
  | ok
  | fails
  | neverReturns
  deriving DecidableEq, Repr, Inhabited

/-- A script of draws of the environment: the first ones, then one value for ever. Every finite sequence of draws is
the beginning of some script, so a statement about every script admits every draw (00_scope.md R10).
DESIGN CHOICE, log entry 1: safe. -/
structure Draws (α : Type) where
  pre : List α
  rest : α
  deriving DecidableEq, Repr, Inhabited

end Sys2Proof
end

