-- ==== Sys2Proof/Config.lean ====
section
/-! DEFINITION. The configuration record `cfg` of 00_scope.md R11, the constants that stand for its OPEN fields and for
the environment's draws at power-on (R10), and the reference configuration. The record is a field of State: read-only there (10_state.md R45, R54). -/

namespace Sys2Proof

/-- The busy-wait policy (43_sequencer.md R237). -/
inductive BusyPolicy
  | fixedDelay
  | poll
  deriving DecidableEq, Repr

/-- The configuration record (00_scope.md R11). The LUT ROM (10_state.md R44) is its fields `lutFull` and
`lutPartial`. -/
structure Cfg where
  /-- WIDTH, HEIGHT: the panel's pixels. -/
  width : Nat
  height : Nat
  /-- LUT_LEN: bytes per LUT table. -/
  lutLen : Nat
  tResetMs : Nat
  busyPolicy : BusyPolicy
  tBusyMs : Nat
  busyActiveLevel : Level
  tBusyTimeoutMs : Nat
  tPollMs : Nat
  /-- PIXEL_BIT_ORDER: which bit of a framebuffer byte is the leftmost pixel (20_memory.md R71). No rule of the
  block reads it. -/
  pixelBitOrder : Fin 8
  opDriverOutputControl : Byte
  opBoosterSoftStart : Byte
  opWriteVcom : Byte
  opDummyLinePeriod : Byte
  opGateTime : Byte
  opBorderWaveform : Byte
  opDataEntryMode : Byte
  opWriteLut : Byte
  opRamXWindow : Byte
  opRamYWindow : Byte
  opRamXCounter : Byte
  opRamYCounter : Byte
  opWriteRam : Byte
  opDisplayUpdateCtrl2 : Byte
  opMasterActivation : Byte
  opTerminateFrameRw : Byte
  opDeepSleep : Byte
  dScanDir : Byte
  dBooster0 : Byte
  dBooster1 : Byte
  dBooster2 : Byte
  dVcom : Byte
  dDummyLine : Byte
  dGateTime : Byte
  dBorder : Byte
  dDataEntry : Byte
  dDuc2Mode : Byte
  dDeepSleep : Byte
  lutFull : List Byte
  lutPartial : List Byte
  modeFull : Byte
  modePartial : Byte
  invalidModeSendsLutCmd : Bool
  terminateKind : Role
  deriving DecidableEq, Repr

/-! ### The OPEN fields (00_scope.md R11): constants without a body, so that no proof can see a value (log entry 4). -/

/-- LUT_FULL[k] (OPEN; 92_eei_decisions.md D6). -/
opaque Config.openLutFull : Nat → Byte
/-- LUT_PARTIAL[k] (OPEN; 92_eei_decisions.md D6). -/
opaque Config.openLutPartial : Nat → Byte
/-- T_BUSY_MS (OPEN; 92_eei_decisions.md D10). -/
opaque Config.openTBusyMs : Nat
/-- T_BUSY_TIMEOUT_MS (OPEN; 92_eei_decisions.md D10). -/
opaque Config.openTBusyTimeoutMs : Nat
/-- T_POLL_MS (OPEN; 92_eei_decisions.md D10). -/
opaque Config.openTPollMs : Nat
/-- PIXEL_BIT_ORDER (OPEN; 92_eei_decisions.md D33). -/
opaque Config.openPixelBitOrder : Fin 8

/-! ### The environment's draws at power-on (00_scope.md R10): constants without a body too, since a model must admit
every draw and fix none (log entry 1). -/

/-- What the environment will answer to the GPIO accesses after power-on (R10(a)). -/
opaque Config.openGpioDraws : Draws GpioAnswer
/-- The levels that the reads of BUSY after power-on will sample (R10(b)). -/
opaque Config.openBusyDraws : Draws Level
/-- By how many milliseconds the delays after power-on will exceed their minimum (R10(c); log entry 23). -/
opaque Config.openLateDraws : Draws Nat

/-- The reference configuration (00_scope.md R11): every source value and every gk default; the OPEN fields are the
constants above. PRESUMED (log entry 3, unsafe for statements that rest on a gk default): every OP_* but
OP_WRITE_RAM, every D_*, BUSY_ACTIVE_LEVEL. -/
def Cfg.reference : Cfg where
  width := 212
  height := 104
  lutLen := 30
  tResetMs := 200
  busyPolicy := .fixedDelay
  tBusyMs := Config.openTBusyMs
  busyActiveLevel := .high
  tBusyTimeoutMs := Config.openTBusyTimeoutMs
  tPollMs := Config.openTPollMs
  pixelBitOrder := Config.openPixelBitOrder
  opDriverOutputControl := 0x01
  opBoosterSoftStart := 0x0C
  opWriteVcom := 0x2C
  opDummyLinePeriod := 0x3A
  opGateTime := 0x3B
  opBorderWaveform := 0x3C
  opDataEntryMode := 0x11
  opWriteLut := 0x32
  opRamXWindow := 0x44
  opRamYWindow := 0x45
  opRamXCounter := 0x4E
  opRamYCounter := 0x4F
  opWriteRam := 0x24
  opDisplayUpdateCtrl2 := 0x22
  opMasterActivation := 0x20
  opTerminateFrameRw := 0xFF
  opDeepSleep := 0x10
  dScanDir := 0x00
  dBooster0 := 0xD7
  dBooster1 := 0xD6
  dBooster2 := 0x9D
  dVcom := 0xA8
  dDummyLine := 0x1A
  dGateTime := 0x08
  dBorder := 0x03
  dDataEntry := 0x03
  dDuc2Mode := 0xC4
  dDeepSleep := 0x01
  lutFull := (List.range 30).map Config.openLutFull
  lutPartial := (List.range 30).map Config.openLutPartial
  modeFull := 0
  modePartial := 1
  invalidModeSendsLutCmd := true
  terminateKind := .cmd

end Sys2Proof
end

