-- ==== Sys2Proof/Syntax.lean ====
section
/-! DEFINITION. The instructions: one constructor per row of spec/opcode_table.json, with the operands its rule gives
it. Three code spaces: host operations (30_encoding.md R104), micro-operation labels (R106), wire command frames
(42_wire_commands.md). -/

namespace Sys2Proof

/-- The table's "format" column: which code space a word belongs to. -/
inductive Space
  | host
  | micro
  | wire
  deriving DecidableEq, Repr

/-- What a refresh-mode code decodes to (30_encoding.md R114). -/
inductive RefreshMode
  | full
  | partialRefresh
  | unrecognised
  deriving DecidableEq, Repr

/-- The source of a frame: the clear pattern, or a framebuffer (44_streamer.md R270). The index of a byte in the list
is its framebuffer address (20_memory.md R70, R72). -/
inductive Source
  | const
  | buffer (buf : List Byte)
  deriving DecidableEq, Repr

/-- The seven host operations, without their operands: the "current host operation" of a position (10_state.md R52). -/
inductive HostOp
  | init
  | clear
  | display
  | sleep
  | setWindow
  | setCursor
  | turnonDisplay
  deriving DecidableEq, Repr

/-- The instructions. -/
inductive Instr
  -- host operations, codes 0x01 to 0x07
  | init (mode : Byte)
  | clear
  | display (buf : List Byte)
  | sleep
  | setWindow (xs ys xe ye : Coord)
  | setCursor (x y : Coord)
  | turnonDisplay
  -- micro-operations, labels 0x80 to 0x8A
  | writeByte (v : Byte)
  | writeBytes (s : List Byte)
  | sendDataInternal (v : Byte) (isCommand : Bool)
  | sendCmd (v : Byte)
  | sendData (v : Byte)
  | configure
  | reset
  | registerLoad
  | lutLoad (mode : Byte)
  | busyWait
  | streamFrame (src : Source)
  -- wire command frames
  | driverOutputControl
  | boosterSoftStart
  | writeVcom
  | dummyLinePeriod
  | gateTime
  | borderWaveform
  | dataEntryMode
  | writeLut (m : RefreshMode)
  | ramXWindow (xs xe : Coord)
  | ramYWindow (ys ye : Coord)
  | ramXCounter (x : Coord)
  | ramYCounter (y : Coord)
  | writeRam (bytes : List Byte)
  | displayUpdateCtrl2
  | masterActivation
  | terminateFrameRw
  | deepSleep
  deriving DecidableEq, Repr

/-- The pseudo-operation `full_window` (30_encoding.md R131(b)). -/
def Instr.fullWindow (c : Cfg) : Instr :=
  .setWindow 0 0 (BitVec.ofNat 16 c.width) (BitVec.ofNat 16 c.height)

/-- The pseudo-operation `reinit m` (30_encoding.md R131(c)). -/
def Instr.reinit (m : Byte) : Instr := .init m

end Sys2Proof
end

