-- ==== Sys2Proof/Machine/Operands.lean ====
section
/-! DEFINITION. Every operand form: assembly of operand bytes from coordinates and geometry (30_encoding.md R110 to
R115), mode decoding (R114), the LUT and framebuffer reads (10_state.md R44, 20_memory.md R72), bit levels. -/

namespace Sys2Proof.Machine

/-- BW = ceil(WIDTH/8) (00_scope.md R16). -/
def byteWidth (c : Cfg) : Nat := (c.width + 7) / 8

/-- xb(x) = (x >> 3) & 0xFF (30_encoding.md R110). -/
def xb (x : Nat) : Byte := BitVec.ofNat 8 (x >>> 3)

/-- lo(v) = v[7:0] (30_encoding.md R111). -/
def lo (v : Nat) : Byte := BitVec.ofNat 8 v

/-- hi(v) = v[15:8] (30_encoding.md R111). -/
def hi (v : Nat) : Byte := BitVec.ofNat 8 (v >>> 8)

/-- The height operand g = HEIGHT - 1 of DRIVER_OUTPUT_CONTROL (30_encoding.md R112). -/
def heightOperand (c : Cfg) : Nat := c.height - 1

/-- The clear pattern (30_encoding.md R115). -/
def clearPattern : Byte := 0xFF

/-- Decoding of a refresh-mode code (30_encoding.md R114). DESIGN CHOICE, log entry 24, unsafe: where MODE_FULL and
MODE_PARTIAL are the same code, which 00_scope.md R12 allows, that code reads as Full. -/
def decodeMode (c : Cfg) (mode : Byte) : RefreshMode :=
  if mode = c.modeFull then .full
  else if mode = c.modePartial then .partialRefresh
  else .unrecognised

/-- The LUT table of a mode (10_state.md R44); none for an unrecognised mode. -/
def lutTable (c : Cfg) : RefreshMode → List Byte
  | .full => c.lutFull
  | .partialRefresh => c.lutPartial
  | .unrecognised => []

/-- Lut(m, k) (10_state.md R44). In a well-formed configuration every k below LUT_LEN lies in the table. -/
def lut (c : Cfg) (m : RefreshMode) (k : Nat) : Byte := (lutTable c m).getD k 0

/-- MemRead(addr, 1): the framebuffer byte at an index; none at or beyond the buffer's length (20_memory.md R72). -/
def memRead (buf : List Byte) (addr : Nat) : Option Byte := buf[addr]?

/-- The flat index of byte-column i of row y (44_streamer.md R271). -/
def flatIndex (c : Cfg) (y i : Nat) : Nat := i + y * byteWidth c

/-- The level of DIN for a bit: 1 High, 0 Low (10_state.md R32). -/
def bitLevel (b : Bool) : Level := if b then .high else .low

/-- The DC level that shows a role: Low for a command, High for data (10_state.md R34). -/
def roleLevel : Role → Level
  | .cmd => .low
  | .data => .high

/-- The polls that a BUSY_WAIT can still make after its first read: ceil(T_BUSY_TIMEOUT_MS / T_POLL_MS)
(43_sequencer.md R238). -/
def pollBound (c : Cfg) : Nat := (c.tBusyTimeoutMs + c.tPollMs - 1) / c.tPollMs

end Sys2Proof.Machine
end

