-- ==== Sys2Proof/WellFormed.lean ====
section
/-! DEFINITION. Which configurations and which instructions are well formed (00_scope.md R12; 30_encoding.md R104,
R125). -/

namespace Sys2Proof

/-- A well-formed configuration (00_scope.md R12). The byte fields are in 0..255 by their type. -/
def Cfg.wf (c : Cfg) : Bool :=
  decide (1 ≤ c.width) && decide (c.width ≤ 2047)
    && decide (1 ≤ c.height) && decide (c.height ≤ 65536)
    && decide (c.lutLen = 30) && decide (c.lutFull.length = c.lutLen) && decide (c.lutPartial.length = c.lutLen)
    && decide (200 ≤ c.tResetMs)
    && (match c.busyPolicy with
        | .fixedDelay => true
        | .poll => decide (1 ≤ c.tPollMs))

/-- The 17 command bytes of a configuration, in the order of 00_scope.md R11. -/
def Cfg.opBytes (c : Cfg) : List Byte :=
  [c.opDriverOutputControl, c.opBoosterSoftStart, c.opWriteVcom, c.opDummyLinePeriod, c.opGateTime,
   c.opBorderWaveform, c.opDataEntryMode, c.opWriteLut, c.opRamXWindow, c.opRamYWindow, c.opRamXCounter,
   c.opRamYCounter, c.opWriteRam, c.opDisplayUpdateCtrl2, c.opMasterActivation, c.opTerminateFrameRw, c.opDeepSleep]

/-- No two command bytes collide: the condition for decoding a wire trace (30_encoding.md R116). The block does not
need it. -/
def Cfg.opsDistinct (c : Cfg) : Bool := decide c.opBytes.Nodup

/-- A byte sequence whose length a 32-bit length field can hold (30_encoding.md R104). -/
def fitsLength32 (s : List Byte) : Bool := decide (s.length < 2 ^ 32)

/-- A well-formed instruction: DISPLAY's length fits its 32-bit field (30_encoding.md R104); the same limit for the
byte sequences of WRITE_BYTES and STREAM_FRAME (log entry 17); WRITE_RAM holds the bytes of one row, n = 0..BW
(30_encoding.md R125). Every other operand has every value of its type. -/
def Instr.wellFormed (c : Cfg) : Instr → Bool
  | .display buf => fitsLength32 buf
  | .writeBytes s => fitsLength32 s
  | .streamFrame (.buffer buf) => fitsLength32 buf
  | .writeRam bytes => decide (bytes.length ≤ Machine.byteWidth c) && fitsLength32 bytes
  | .streamFrame .const => true
  | .init _ | .clear | .sleep | .setWindow .. | .setCursor .. | .turnonDisplay => true
  | .writeByte _ | .sendDataInternal .. | .sendCmd _ | .sendData _ => true
  | .configure | .reset | .registerLoad | .lutLoad _ | .busyWait => true
  | .driverOutputControl | .boosterSoftStart | .writeVcom | .dummyLinePeriod | .gateTime | .borderWaveform => true
  | .dataEntryMode | .writeLut _ | .ramXWindow .. | .ramYWindow .. | .ramXCounter _ | .ramYCounter _ => true
  | .displayUpdateCtrl2 | .masterActivation | .terminateFrameRw | .deepSleep => true

end Sys2Proof
end

