-- ==== Sys2Proof/Decode.lean ====
section
/-! DEFINITION. The decoder of instruction words, total on any bytes, rejecting by name, and the encoder. Host words
follow 30_encoding.md R104, R121, R124. The micro labels are those of R106, the wire codes the table's; the form of
their operand bytes is the model's own (log entries 8 and 9). Operand bytes follow the code, multi-byte operands
little-endian. -/

namespace Sys2Proof

/-- Why a word is rejected. -/
inductive Reject
  /-- The word has no byte. -/
  | emptyWord
  /-- Byte 0 is no code of the word's code space (30_encoding.md R121 for host words). -/
  | unknownCode (space : Space) (code : Byte)
  /-- Fewer operand bytes than the operation has (30_encoding.md R124). -/
  | tooFewBytes
  /-- Bytes beyond the operation's length (30_encoding.md R124). -/
  | trailingBytes
  /-- An operand byte that names no value of its operand (micro and wire words only; log entries 8 and 9). -/
  | badOperand (b : Byte)
  deriving DecidableEq, Repr

/-! ### Operand bytes -/

/-- A 16-bit operand from its two bytes, low byte first (30_encoding.md R104). -/
def le16 (l h : Byte) : Coord := h ++ l

/-- A 32-bit length from its four bytes, low byte first (30_encoding.md R104). -/
def le32 (b0 b1 b2 b3 : Byte) : Nat := b0.toNat + 256 * (b1.toNat + 256 * (b2.toNat + 256 * b3.toNat))

/-- The two bytes of a 16-bit operand, low byte first. -/
def bytes16 (v : Coord) : List Byte := [v.extractLsb' 0 8, v.extractLsb' 8 8]

/-- The four bytes of a length below 2^32, low byte first. -/
def bytes32 (n : Nat) : List Byte :=
  [BitVec.ofNat 8 n, BitVec.ofNat 8 (n / 256), BitVec.ofNat 8 (n / 65536), BitVec.ofNat 8 (n / 16777216)]

/-- The rejection of a word with `got` operand bytes where `want` belong (30_encoding.md R124). -/
def lengthReject (got want : Nat) : Reject := if got < want then .tooFewBytes else .trailingBytes

/-- An operation without operands. -/
def decode0 (i : Instr) (ops : List Byte) : Except Reject Instr :=
  match ops with
  | [] => .ok i
  | _ => .error (lengthReject ops.length 0)

/-- An operation with one operand byte. -/
def decode8 (f : Byte → Except Reject Instr) (ops : List Byte) : Except Reject Instr :=
  match ops with
  | [b] => f b
  | _ => .error (lengthReject ops.length 1)

/-- An operation with two operand bytes. -/
def decode8x2 (f : Byte → Byte → Except Reject Instr) (ops : List Byte) : Except Reject Instr :=
  match ops with
  | [a, b] => f a b
  | _ => .error (lengthReject ops.length 2)

/-- An operation with one 16-bit operand. -/
def decode16 (f : Coord → Instr) (ops : List Byte) : Except Reject Instr :=
  match ops with
  | [l, h] => .ok (f (le16 l h))
  | _ => .error (lengthReject ops.length 2)

/-- An operation with two 16-bit operands. -/
def decode16x2 (f : Coord → Coord → Instr) (ops : List Byte) : Except Reject Instr :=
  match ops with
  | [l0, h0, l1, h1] => .ok (f (le16 l0 h0) (le16 l1 h1))
  | _ => .error (lengthReject ops.length 4)

/-- An operation with four 16-bit operands. -/
def decode16x4 (f : Coord → Coord → Coord → Coord → Instr) (ops : List Byte) : Except Reject Instr :=
  match ops with
  | [l0, h0, l1, h1, l2, h2, l3, h3] => .ok (f (le16 l0 h0) (le16 l1 h1) (le16 l2 h2) (le16 l3 h3))
  | _ => .error (lengthReject ops.length 8)

/-- An operation with a 32-bit length L and then exactly L bytes (30_encoding.md R104). -/
def decodeBytes (f : List Byte → Instr) (ops : List Byte) : Except Reject Instr :=
  match ops with
  | b0 :: b1 :: b2 :: b3 :: rest =>
    if rest.length = le32 b0 b1 b2 b3 then .ok (f rest) else .error (lengthReject rest.length (le32 b0 b1 b2 b3))
  | _ => .error .tooFewBytes

/-- The source operand of STREAM_FRAME: 0 for the constant, 1 and then a length and its bytes for a buffer
(log entry 8). -/
def decodeSource (ops : List Byte) : Except Reject Instr :=
  match ops with
  | [] => .error .tooFewBytes
  | k :: rest =>
    if k = 0 then decode0 (.streamFrame .const) rest
    else if k = 1 then decodeBytes (fun buf => .streamFrame (.buffer buf)) rest
    else .error (.badOperand k)

/-- The Boolean operand of SEND_DATA_INTERNAL (log entry 8). -/
def decodeBool (f : Bool → Instr) (b : Byte) : Except Reject Instr :=
  if b = 0 then .ok (f false) else if b = 1 then .ok (f true) else .error (.badOperand b)

/-- The decoded-mode operand of the WRITE_LUT frame (log entry 9). -/
def decodeModeOperand (b : Byte) : Except Reject Instr :=
  if b = 0 then .ok (.writeLut .full)
  else if b = 1 then .ok (.writeLut .partialRefresh)
  else if b = 2 then .ok (.writeLut .unrecognised)
  else .error (.badOperand b)

/-! ### The decoder -/

/-- Host-operation words (30_encoding.md R104). Any other code is rejected (R121). -/
def decodeHost (code : Byte) (ops : List Byte) : Except Reject Instr :=
  match code.toNat with
  | 0x01 => decode8 (fun m => .ok (.init m)) ops
  | 0x02 => decode0 .clear ops
  | 0x03 => decodeBytes .display ops
  | 0x04 => decode0 .sleep ops
  | 0x05 => decode16x4 .setWindow ops
  | 0x06 => decode16x2 .setCursor ops
  | 0x07 => decode0 .turnonDisplay ops
  | _ => .error (.unknownCode .host code)

/-- Micro-operation words (labels of 30_encoding.md R106; operand bytes: log entry 8). -/
def decodeMicro (code : Byte) (ops : List Byte) : Except Reject Instr :=
  match code.toNat with
  | 0x80 => decode8 (fun v => .ok (.writeByte v)) ops
  | 0x81 => decodeBytes .writeBytes ops
  | 0x82 => decode8x2 (fun v b => decodeBool (.sendDataInternal v) b) ops
  | 0x83 => decode8 (fun v => .ok (.sendCmd v)) ops
  | 0x84 => decode8 (fun v => .ok (.sendData v)) ops
  | 0x85 => decode0 .configure ops
  | 0x86 => decode0 .reset ops
  | 0x87 => decode0 .registerLoad ops
  | 0x88 => decode8 (fun m => .ok (.lutLoad m)) ops
  | 0x89 => decode0 .busyWait ops
  | 0x8A => decodeSource ops
  | _ => .error (.unknownCode .micro code)

/-- Words that name a wire command frame: the code is the table's reference command byte, the operands are the
frame's (log entry 9). -/
def decodeWire (code : Byte) (ops : List Byte) : Except Reject Instr :=
  match code.toNat with
  | 0x01 => decode0 .driverOutputControl ops
  | 0x0C => decode0 .boosterSoftStart ops
  | 0x2C => decode0 .writeVcom ops
  | 0x3A => decode0 .dummyLinePeriod ops
  | 0x3B => decode0 .gateTime ops
  | 0x3C => decode0 .borderWaveform ops
  | 0x11 => decode0 .dataEntryMode ops
  | 0x32 => decode8 decodeModeOperand ops
  | 0x44 => decode16x2 .ramXWindow ops
  | 0x45 => decode16x2 .ramYWindow ops
  | 0x4E => decode16 .ramXCounter ops
  | 0x4F => decode16 .ramYCounter ops
  | 0x24 => decodeBytes .writeRam ops
  | 0x22 => decode0 .displayUpdateCtrl2 ops
  | 0x20 => decode0 .masterActivation ops
  | 0xFF => decode0 .terminateFrameRw ops
  | 0x10 => decode0 .deepSleep ops
  | _ => .error (.unknownCode .wire code)

/-- The decoder. -/
def decode (space : Space) (word : List Byte) : Except Reject Instr :=
  match word with
  | [] => .error .emptyWord
  | code :: ops =>
    match space with
    | .host => decodeHost code ops
    | .micro => decodeMicro code ops
    | .wire => decodeWire code ops

/-! ### The encoder -/

/-- The code space of an instruction. -/
def spaceOf : Instr → Space
  | .init _ | .clear | .display _ | .sleep | .setWindow .. | .setCursor .. | .turnonDisplay => .host
  | .writeByte _ | .writeBytes _ | .sendDataInternal .. | .sendCmd _ | .sendData _ | .configure | .reset
  | .registerLoad | .lutLoad _ | .busyWait | .streamFrame _ => .micro
  | .driverOutputControl | .boosterSoftStart | .writeVcom | .dummyLinePeriod | .gateTime | .borderWaveform
  | .dataEntryMode | .writeLut _ | .ramXWindow .. | .ramYWindow .. | .ramXCounter _ | .ramYCounter _ | .writeRam _
  | .displayUpdateCtrl2 | .masterActivation | .terminateFrameRw | .deepSleep => .wire

/-- A 32-bit length and its bytes. -/
def bytesWithLength (s : List Byte) : List Byte := bytes32 s.length ++ s

/-- The bytes of STREAM_FRAME's source operand (log entry 8). -/
def sourceBytes : Source → List Byte
  | .const => [0]
  | .buffer buf => 1 :: bytesWithLength buf

/-- The byte of WRITE_LUT's decoded-mode operand (log entry 9). -/
def modeByte : RefreshMode → Byte
  | .full => 0
  | .partialRefresh => 1
  | .unrecognised => 2

/-- The word of an instruction in its code space. -/
def encode : Instr → List Byte
  | .init mode => [0x01, mode]
  | .clear => [0x02]
  | .display buf => 0x03 :: bytesWithLength buf
  | .sleep => [0x04]
  | .setWindow xs ys xe ye => 0x05 :: (bytes16 xs ++ bytes16 ys ++ bytes16 xe ++ bytes16 ye)
  | .setCursor x y => 0x06 :: (bytes16 x ++ bytes16 y)
  | .turnonDisplay => [0x07]
  | .writeByte v => [0x80, v]
  | .writeBytes s => 0x81 :: bytesWithLength s
  | .sendDataInternal v isCommand => [0x82, v, if isCommand then 1 else 0]
  | .sendCmd v => [0x83, v]
  | .sendData v => [0x84, v]
  | .configure => [0x85]
  | .reset => [0x86]
  | .registerLoad => [0x87]
  | .lutLoad mode => [0x88, mode]
  | .busyWait => [0x89]
  | .streamFrame src => 0x8A :: sourceBytes src
  | .driverOutputControl => [0x01]
  | .boosterSoftStart => [0x0C]
  | .writeVcom => [0x2C]
  | .dummyLinePeriod => [0x3A]
  | .gateTime => [0x3B]
  | .borderWaveform => [0x3C]
  | .dataEntryMode => [0x11]
  | .writeLut m => [0x32, modeByte m]
  | .ramXWindow xs xe => 0x44 :: (bytes16 xs ++ bytes16 xe)
  | .ramYWindow ys ye => 0x45 :: (bytes16 ys ++ bytes16 ye)
  | .ramXCounter x => 0x4E :: bytes16 x
  | .ramYCounter y => 0x4F :: bytes16 y
  | .writeRam bytes => 0x24 :: bytesWithLength bytes
  | .displayUpdateCtrl2 => [0x22]
  | .masterActivation => [0x20]
  | .terminateFrameRw => [0xFF]
  | .deepSleep => [0x10]

/-! ### Words numbered as spec/opcode_table.json numbers them -/

/-- The first `nbits/8` bytes of a word whose bits are `w`, bit 0 the least significant bit of byte 0. -/
def tableBytes (nbits w : Nat) : List Byte :=
  (List.range (nbits / 8)).map fun k => BitVec.ofNat 8 (w / 256 ^ k)

/-- The word's bytes followed by the fewest operand bytes of zeros with which the decoder reads it in the code
space `space`; none where no number of zeros up to 8 (the longest operand, SET_WINDOW's) will do. -/
def paddedWord (space : Space) (nbits w : Nat) : Option (List Byte) :=
  ((List.range 9).map fun n => tableBytes nbits w ++ List.replicate n 0).find? fun word =>
    match decode space word with
    | .ok _ => true
    | .error _ => false

/-- The code space and the word that the bits `w` stand for. The table's bits do not say the code space: a host word
wins over a micro label, and that over a wire code (code 0x01 is INIT and, as a wire code, DRIVER_OUTPUT_CONTROL;
log entry 9). -/
def tableWord (nbits w : Nat) : Option (Space × List Byte) :=
  [Space.host, Space.micro, Space.wire].findSome? fun space => (paddedWord space nbits w).map fun word => (space, word)

/-- The instruction the decoder reads from an instruction whose bits are `w`, numbered as the table numbers them,
operand bytes of zeros behind them. -/
def decodeTableWord (nbits w : Nat) : Option Instr :=
  (tableWord nbits w).bind fun (space, word) => (decode space word).toOption

end Sys2Proof
end

