-- ==== Sys2Proof/Machine/State.lean ====
section
/-! DEFINITION. The machine's state: the tuple of 10_state.md R30, the host's position (R53), the environment's draws
(00_scope.md R10); its values at power-on (R60); why a step stops. Plain data only. -/

namespace Sys2Proof.Machine

/-- The five output lines (10_state.md R31 to R35). -/
structure Lines where
  clk : LineState
  din : LineState
  cs : LineState
  dc : LineState
  rst : LineState
  deriving DecidableEq, Repr

/-- The status record (10_state.md R40 to R42). -/
structure Status where
  /-- RESULT: 0 OK, 1 ERR_IO, 2 ERR_BUSY_TIMEOUT, 3 never produced (R40). -/
  result : BitVec 2
  /-- WARN (R41). -/
  warn : BitVec 1
  /-- ERR_LINE (R42): 0 CLK, 1 DIN, 2 CS, 3 DC, 4 RST, 5 BUSY. -/
  errLine : BitVec 3
  /-- ERR_LEVEL (R42). -/
  errLevel : BitVec 1
  deriving DecidableEq, Repr

/-- The datapath scratch registers (10_state.md R43). -/
structure Datapath where
  shift : BitVec 8
  bit : BitVec 3
  row : BitVec 17
  col : BitVec 9
  idx : BitVec 32
  luti : BitVec 5
  deriving DecidableEq, Repr

/-- The protocol states (10_state.md R46). -/
inductive PState
  | uninitialized
  | configured
  | reset
  | registersLoaded
  | lutLoaded
  | ready
  | sleeping
  | undefined
  deriving DecidableEq, Repr

/-- The ghost state (10_state.md R46 to R49). -/
structure Ghost where
  pstate : PState
  lutOk : Bool
  protocolViolation : Bool
  frameUndefined : Bool
  deriving DecidableEq, Repr

/-- The sequencing position (10_state.md R52): idle between operations, or the current host operation and the index
of its next event. -/
inductive Position
  | idle
  | running (op : HostOp) (next : Nat)
  deriving DecidableEq, Repr

/-- What a host operation returned (10_state.md R40): Ok (`none`) or what it raised, and the status record. -/
structure OpResult where
  raised : Option Raise
  status : Status
  deriving DecidableEq, Repr

/-- One entry of the program list: a word and its code space. A host program has host words only; micro and wire
entries are the block's inner calls, run alone (log entry 7). -/
structure Issue where
  space : Space
  word : List Byte
  deriving DecidableEq, Repr

/-- The host: its program and its position in it (10_state.md R53), the results it has received (70_reset_and_hazards.md
R352; newest first), and whether an operation has ended the run by returning Err (R352). -/
structure HostSide where
  program : List Issue
  index : Nat
  revResults : List OpResult
  runEnded : Bool
  deriving DecidableEq, Repr

/-- The environment's draws (00_scope.md R10; log entry 1): what it will answer to the next GPIO accesses, the levels
the next BUSY reads will sample, and by how many milliseconds the next delays will exceed their minimum. DESIGN CHOICE,
log entry 23, unsafe: the excess of a delay is a whole number of milliseconds, so every delay ends. -/
structure Env where
  gpio : Draws GpioAnswer
  busy : Draws Level
  late : Draws Nat
  deriving DecidableEq, Repr

/-- The machine's state. -/
structure State where
  /-- The configuration record and the LUT ROM (00_scope.md R11; 10_state.md R44, R45, R54): never written. -/
  cfg : Cfg
  lines : Lines
  status : Status
  dp : Datapath
  ghost : Ghost
  pos : Position
  /-- The trace, newest event first (00_scope.md R9). -/
  revTrace : List Event
  /-- Real milliseconds spent in delays (model's own; log entry 13). -/
  blockedMs : Nat
  env : Env
  host : HostSide
  deriving DecidableEq, Repr

/-- The event trace, oldest event first (00_scope.md R9). -/
def State.trace (s : State) : List Event := s.revTrace.reverse

/-- The results of the host operations, oldest first (70_reset_and_hazards.md R352). -/
def State.results (s : State) : List OpResult := s.host.revResults.reverse

/-- The state at power-on (10_state.md R60; 70_reset_and_hazards.md R340, R343): construction performs no event.
The draws are constants without a body: they stay free (00_scope.md R10; log entry 1). DESIGN CHOICE: the scratch registers
are 0 (log entry 6), blockedMs is 0 (log entry 13), no program is loaded (log entry 7). -/
def State.reset : State where
  cfg := Cfg.reference
  lines := { clk := .unknown, din := .unknown, cs := .unknown, dc := .unknown, rst := .unknown }
  status := { result := 0, warn := 0, errLine := 0, errLevel := 0 }
  dp := { shift := 0, bit := 0, row := 0, col := 0, idx := 0, luti := 0 }
  ghost := { pstate := .uninitialized, lutOk := false, protocolViolation := false, frameUndefined := true }
  pos := .idle
  revTrace := []
  blockedMs := 0
  env := { gpio := Config.openGpioDraws, busy := Config.openBusyDraws, late := Config.openLateDraws }
  host := { program := [], index := 0, revResults := [], runEnded := false }

/-- Why the machine stops with no further step. -/
inductive Fault
  /-- A GPIO access never returns (40_transport.md R145; 60_exceptions.md R308): the stuck state. Raised by every
  instruction that makes a GPIO access; `blocked` is the state in which the block waits. Safe: there is no step. -/
  | gpioNeverReturns (blocked : State)
  /-- The host's program is exhausted, so the run has ended (70_reset_and_hazards.md R352). Raised by `step` alone.
  Safe: there is no step. -/
  | programExhausted
  /-- An operation has returned Err, so the run has ended (70_reset_and_hazards.md R352). Raised by `step` alone.
  Safe: there is no step. -/
  | runAborted
  deriving DecidableEq, Repr

/-- Why the machine has no move. -/
inductive Refusal
  /-- The instruction has no meaning in the model yet. Safe. No arm of `exec` raises it. -/
  | notModelled (mnemonic : String)
  /-- The next word does not decode: an unknown host code, a micro label or a wire code issued by the host, a word of
  the wrong length (30_encoding.md R121, R124). Raised by `step` alone. Safe. -/
  | undecodable (why : Reject)
  /-- The next word decodes to an instruction that is not well formed (WRITE_RAM with more than BW bytes). Raised by
  `step` alone. Safe (log entry 17). -/
  | illFormedInstruction
  /-- The configuration is not well formed, so it has no model (00_scope.md R12; 93_implementation_defined.md I9).
  Raised by every instruction. Safe (log entry 5). -/
  | illFormedConfig
  deriving DecidableEq, Repr

end Sys2Proof.Machine
end

