-- ==== Sys2Proof/Machine/Flags.lean ====
section
/-! DEFINITION. Every status and ghost-flag computation: the codes of the status record (10_state.md R40 to R42,
60_exceptions.md R300, R301), protocol validity (43_sequencer.md R246), PSTATE on an abort (R245, 60_exceptions.md
R305). -/

namespace Sys2Proof.Machine

/-- The code of an output line in ERR_LINE (10_state.md, status table). -/
def lineCode : OutLine → BitVec 3
  | .clk => 0
  | .din => 1
  | .cs => 2
  | .dc => 3
  | .rst => 4

/-- The code of BUSY in ERR_LINE. -/
def busyCode : BitVec 3 := 5

/-- The code of a level in ERR_LEVEL: 0 Low, 1 High. -/
def levelCode : Level → BitVec 1
  | .low => 0
  | .high => 1

/-- The RESULT code of a raise: 1 for an I/O failure, 2 for a busy timeout (10_state.md R40). -/
def resultCode : Raise → BitVec 2
  | .ioWrite .. => 1
  | .ioReadBusy => 1
  | .busyTimeout _ => 2

/-- The status record after a raise: RESULT, and for an I/O failure the failing line and the attempted level, 0 for a
read (60_exceptions.md R300, R305). WARN keeps any warning already emitted. -/
def statusOnRaise (e : Raise) (st : Status) : Status :=
  match e with
  | .ioWrite l v => { st with result := resultCode e, errLine := lineCode l, errLevel := levelCode v }
  | .ioReadBusy => { st with result := resultCode e, errLine := busyCode, errLevel := 0 }
  | .busyTimeout _ => { st with result := resultCode e }

/-- The status record after an operation that returned Ok (10_state.md R40). -/
def statusOnOk (st : Status) : Status := { st with result := 0 }

/-- The status record at the start of a host operation: WARN is cleared (10_state.md R41). -/
def statusOnStart (st : Status) : Status := { st with warn := 0 }

/-- Whether a host operation is valid in a protocol state (43_sequencer.md R246). -/
def validIn (op : HostOp) (p : PState) : Bool :=
  match op with
  | .init => true
  | .clear | .display | .sleep | .setWindow | .setCursor | .turnonDisplay => decide (p = .ready)

/-- PSTATE after a raise (43_sequencer.md R245; 60_exceptions.md R305): Undefined for INIT, and for a SLEEP issued in
Ready; unchanged otherwise. A raise while no host operation runs leaves it unchanged (log entry 10). -/
def pstateOnRaise (pos : Position) (p : PState) : PState :=
  match pos with
  | .running .init _ => .undefined
  | .running .sleep _ => if p = .ready then .undefined else p
  | .running .clear _ | .running .display _ | .running .setWindow _ | .running .setCursor _
  | .running .turnonDisplay _ => p
  | .idle => p

end Sys2Proof.Machine
end

