-- ==== Sys2Proof/Machine/Ops.lean ====
section
/-! DEFINITION. The shared operations: sequencing, the GPIO primitives (40_transport.md R140, R143, R144), the
writes of scratch registers and ghost flags, the start and the return of a host operation, and the abort that a raise
causes (60_exceptions.md R305). -/

namespace Sys2Proof.Machine

/-- How a sequence of the block's actions ends: it completes, it raises, or a GPIO access never returns. -/
inductive Res
  | done (s : State)
  | raised (e : Raise) (s : State)
  | stuck (s : State)
  deriving DecidableEq, Repr

/-- A micro-operation: what it does from a state. -/
abbrev Op := State → Res

/-! ### Sequencing (00_scope.md R15) -/

/-- No action. -/
def skip : Op := fun s => .done s

/-- One micro-operation and then another; a raise ends both. -/
def seqOp (a b : Op) : Op := fun s =>
  match a s with
  | .done s' => b s'
  | .raised e s' => .raised e s'
  | .stuck s' => .stuck s'

/-- Micro-operations in order. -/
def inOrder : List Op → Op
  | [] => skip
  | a :: as => seqOp a (inOrder as)

/-- `for v in 0 .. n-1` (00_scope.md R15). -/
def forUpTo (n : Nat) (f : Nat → Op) : Op := inOrder ((List.range n).map f)

/-- A micro-operation that depends on the configuration. -/
def withCfg (f : Cfg → Op) : Op := fun s => f s.cfg s

/-- A micro-operation that reads the scratch registers. -/
def withDp (f : Datapath → Op) : Op := fun s =>
  match s with
  | { cfg, lines, status, dp, ghost, pos, revTrace, blockedMs, env, host } =>
    f dp { cfg, lines, status, dp, ghost, pos, revTrace, blockedMs, env, host }

/-! ### Draws (00_scope.md R10; log entry 1) -/

/-- The next draw of a script. -/
def nextDraw {α : Type} (d : Draws α) : α :=
  match d.pre with
  | [] => d.rest
  | a :: _ => a

/-- The script after its next draw. -/
def laterDraws {α : Type} (d : Draws α) : Draws α :=
  match d.pre with
  | [] => d
  | _ :: as => ⟨as, d.rest⟩

/-! ### Lines (10_state.md R31 to R38) -/

/-- The state of a line: `line[L]` (00_scope.md R15). -/
def getLine (ls : Lines) : OutLine → LineState
  | .clk => ls.clk
  | .din => ls.din
  | .cs => ls.cs
  | .dc => ls.dc
  | .rst => ls.rst

/-- `line[L] <- v`. -/
def setLine (ls : Lines) (l : OutLine) (v : LineState) : Lines :=
  match l with
  | .clk => { ls with clk := v }
  | .din => { ls with din := v }
  | .cs => { ls with cs := v }
  | .dc => { ls with dc := v }
  | .rst => { ls with rst := v }

/-! ### Events -/

/-- The position after an event: the index advances by one within a host operation (10_state.md R52). -/
def advance : Position → Position
  | .idle => .idle
  | .running op k => .running op (k + 1)

/-- The state after the event `e`, with new lines and `ms` more milliseconds spent in delays. -/
def recordEvent (e : Event) (lines' : Lines → Lines) (ms : Nat) (s : State) : State :=
  match s with
  | { cfg, lines, status, dp, ghost, pos, revTrace, blockedMs, env, host } =>
    { cfg, lines := lines' lines, status, dp, ghost, pos := advance pos, revTrace := e :: revTrace,
      blockedMs := blockedMs + ms, env, host }

/-- One GPIO access: the environment's next answer decides how it goes on, and is used up. An access that never
returns leaves the block waiting (00_scope.md R10(a); 40_transport.md R141, R145). -/
def gpioAccess (onOk onFail : State → Res) : Op := fun s =>
  match s with
  | { cfg, lines, status, dp, ghost, pos, revTrace, blockedMs, env := ⟨⟨pre, rest⟩, busy, late⟩, host } =>
    match nextDraw ⟨pre, rest⟩ with
    | .ok =>
      onOk { cfg, lines, status, dp, ghost, pos, revTrace, blockedMs, env := ⟨laterDraws ⟨pre, rest⟩, busy, late⟩, host }
    | .fails =>
      onFail { cfg, lines, status, dp, ghost, pos, revTrace, blockedMs, env := ⟨laterDraws ⟨pre, rest⟩, busy, late⟩, host }
    | .neverReturns => .stuck s

/-- The state after a write's success (40_transport.md R140). -/
def wroteLine (l : OutLine) (v : Level) (s : State) : State :=
  recordEvent (.w l v) (fun ls => setLine ls l v.toLine) 0 s

/-- The state after a write's failure (40_transport.md R140, R141). -/
def failedLine (l : OutLine) (v : Level) (s : State) : State :=
  recordEvent (.f l v) (fun ls => setLine ls l .unknown) 0 s

/-- GpioWrite(L, lvl) (40_transport.md R140). -/
def gpioWrite (l : OutLine) (v : Level) : Op :=
  gpioAccess (fun s => .done (wroteLine l v s)) (fun s => .raised (.ioWrite l v) (failedLine l v s))

/-- The state after a read of BUSY: the draw `busy_level` is the event's level, and is used up. -/
def readBusy (s : State) : State :=
  recordEvent (.rd (nextDraw s.env.busy)) (fun ls => ls) 0 { s with env := { s.env with busy := laterDraws s.env.busy } }

/-- GpioRead(BUSY), its level given to `k` (40_transport.md R143). A failed read is no event (log entry 14). -/
def gpioReadBusy (k : Level → Op) : Op :=
  gpioAccess (fun s => k (nextDraw s.env.busy) (readBusy s)) (fun s => .raised .ioReadBusy s)

/-- Delay(ms): never fails, lasts at least `ms`, by the draw `late` longer (40_transport.md R144; log entry 13). DESIGN
CHOICE, log entry 23, unsafe: it ends after a whole number of milliseconds, so that every delay ends, which
70_reset_and_hazards.md R364 names as a premise of termination claims, is built in. -/
def delay (ms : Nat) : Op := fun s =>
  .done (recordEvent (.dly ms) (fun ls => ls) (ms + nextDraw s.env.late)
    { s with env := { s.env with late := laterDraws s.env.late } })

/-- The code of WARN_INVALID_MODE (60_exceptions.md R302). -/
def warnInvalidModeCode : Nat := 1

/-- Warn(code) (00_scope.md R15). -/
def warn (code : Nat) : Op := fun s => .done (recordEvent (.warn code) (fun ls => ls) 0 s)

/-! ### Writes of scratch registers, ghost state and WARN: no events -/

/-- A write of the datapath. -/
def writeDp (f : Datapath → Datapath) : Op := fun s =>
  match s with
  | { cfg, lines, status, dp, ghost, pos, revTrace, blockedMs, env, host } =>
    .done { cfg, lines, status, dp := f dp, ghost, pos, revTrace, blockedMs, env, host }

/-- x[SHIFT] <- v. -/
def setShift (v : Byte) : Op := writeDp fun
  | { bit, row, col, idx, luti, .. } => { shift := v, bit, row, col, idx, luti }
/-- x[BIT] <- k. -/
def setBit (k : Nat) : Op := writeDp fun
  | { shift, row, col, idx, luti, .. } => { shift, bit := BitVec.ofNat 3 k, row, col, idx, luti }
/-- x[ROW] <- y. -/
def setRow (y : Nat) : Op := writeDp fun
  | { shift, bit, col, idx, luti, .. } => { shift, bit, row := BitVec.ofNat 17 y, col, idx, luti }
/-- x[COL] <- i. -/
def setCol (i : Nat) : Op := writeDp fun
  | { shift, bit, row, idx, luti, .. } => { shift, bit, row, col := BitVec.ofNat 9 i, idx, luti }
/-- x[IDX] <- n. -/
def setIdx (n : Nat) : Op := writeDp fun
  | { shift, bit, row, col, luti, .. } => { shift, bit, row, col, idx := BitVec.ofNat 32 n, luti }
/-- x[LUTI] <- k. -/
def setLuti (k : Nat) : Op := writeDp fun
  | { shift, bit, row, col, idx, .. } => { shift, bit, row, col, idx, luti := BitVec.ofNat 5 k }

/-- A write of the ghost state. -/
def writeGhost (f : Ghost → Ghost) : Op := fun s =>
  match s with
  | { cfg, lines, status, dp, ghost, pos, revTrace, blockedMs, env, host } =>
    .done { cfg, lines, status, dp, ghost := f ghost, pos, revTrace, blockedMs, env, host }

/-- PSTATE <- p (10_state.md R46). -/
def setPState (p : PState) : Op := writeGhost fun g => { g with pstate := p }
/-- LUT_OK <- b (10_state.md R47). -/
def setLutOk (b : Bool) : Op := writeGhost fun g => { g with lutOk := b }
/-- FRAME_UNDEFINED <- false (10_state.md R49). -/
def setFrameDefined : Op := writeGhost fun g => { g with frameUndefined := false }

/-- STATUS.WARN <- 1 (10_state.md R41). -/
def setWarn : Op := fun s =>
  match s with
  | { cfg, lines, status, dp, ghost, pos, revTrace, blockedMs, env, host } =>
    .done { cfg, lines, status := { status with warn := 1 }, dp, ghost, pos, revTrace, blockedMs, env, host }

/-! ### Starting, returning from and aborting a host operation -/

/-- The start of a host operation: WARN is cleared (10_state.md R41), the position is its first event (R52), and an
operation that is not valid in the protocol state sets PROTOCOL_VIOLATION (43_sequencer.md R246). -/
def startOp (op : HostOp) (s : State) : State :=
  { s with
    status := statusOnStart s.status
    pos := .running op 0
    ghost := { s.ghost with
      protocolViolation := s.ghost.protocolViolation || !validIn op s.ghost.pstate } }

/-- The host receives a result (10_state.md R40); an Err ends the run (70_reset_and_hazards.md R352). -/
def receive (r : OpResult) (h : HostSide) : HostSide :=
  { h with revResults := r :: h.revResults, runEnded := r.raised.isSome }

/-- The return of a host operation with Ok (10_state.md R40, R52): the position is idle again. -/
def returnOk (s : State) : State :=
  { s with
    status := statusOnOk s.status
    pos := .idle
    host := receive { raised := none, status := statusOnOk s.status } s.host }

/-- TAKING AN EXCEPTION: the abort of an operation by a raise (60_exceptions.md R305). STATUS records the cause,
FRAME_UNDEFINED is set, PSTATE goes as 43_sequencer.md R245 says, and control returns to the host with Err. No event is
undone; nothing is saved; there is no vector. -/
def abortOp (e : Raise) (s : State) : State :=
  { s with
    status := statusOnRaise e s.status
    ghost := { s.ghost with
      frameUndefined := true
      pstate := pstateOnRaise s.pos s.ghost.pstate }
    pos := .idle
    host := receive { raised := some e, status := statusOnRaise e s.status } s.host }

/-- A host operation: its body between its start and its return (60_exceptions.md R305, R308). A configuration that is
not well formed has no model (00_scope.md R12; log entry 5). -/
def runHostOp (op : HostOp) (body : Op) (s : State) : Host.Outcome State Fault Refusal :=
  if s.cfg.wf then
    match body (startOp op s) with
    | .done s' => .next (returnOk s')
    | .raised e s' => .next (abortOp e s')
    | .stuck s' => .fault (.gpioNeverReturns s')
  else .refused .illFormedConfig

/-- A micro-operation or a command frame run as an instruction of its own (`call OP(args)`, 00_scope.md R15): its raise
aborts the host operation that is running (log entry 10). -/
def runInner (body : Op) (s : State) : Host.Outcome State Fault Refusal :=
  if s.cfg.wf then
    match body s with
    | .done s' => .next s'
    | .raised e s' => .next (abortOp e s')
    | .stuck s' => .fault (.gpioNeverReturns s')
  else .refused .illFormedConfig

end Sys2Proof.Machine
end

