-- ==== Sys2Proof/Machine/Transport.lean ====
section
/-! DEFINITION. The Bit-Level Transport (40_transport.md). -/

namespace Sys2Proof.Machine

/-- The DIN write of a bit slot: GpioWrite(DIN, x[SHIFT][x[BIT]] = 1 ? High : Low) (40_transport.md R146). -/
def driveBit : Op := withDp fun d => gpioWrite .din (bitLevel (d.shift.getLsbD d.bit.toNat))

/-- Bit slot j of a byte (40_transport.md R146; 30_encoding.md R100). -/
def sendBit (j : Nat) : Op :=
  inOrder [setBit (7 - j), driveBit, gpioWrite .clk .high, gpioWrite .clk .low]

/-- WRITE_BYTE(v) (40_transport.md R146). -/
def writeByte (v : Byte) : Op :=
  inOrder [setShift v, gpioWrite .cs .low, forUpTo 8 sendBit, gpioWrite .cs .high]

/-- WRITE_BYTES(s) (40_transport.md R147). -/
def writeBytes (s : List Byte) : Op := inOrder (s.map writeByte)

/-- WRITE_BYTE (40_transport.md R146). -/
def execWriteByte (v : Byte) (s : State) : Host.Outcome State Fault Refusal := runInner (writeByte v) s

/-- WRITE_BYTES (40_transport.md R147). -/
def execWriteBytes (bytes : List Byte) (s : State) : Host.Outcome State Fault Refusal := runInner (writeBytes bytes) s

end Sys2Proof.Machine
end

