-- ==== Sys2Proof/Machine/Framer.lean ====
section
/-! DEFINITION. The Command/Data Framer (41_framer.md). -/

namespace Sys2Proof.Machine

/-- The role that the flag is_command stands for (41_framer.md R163). -/
def roleOf (isCommand : Bool) : Role := if isCommand then .cmd else .data

/-- SEND_DATA_INTERNAL(v, is_command) (41_framer.md R163): the role level on DC, DC forced Low (R160), the framer's
chip-select, the byte, the framer's deselect. -/
def sendDataInternal (v : Byte) (isCommand : Bool) : Op :=
  inOrder [gpioWrite .dc (roleLevel (roleOf isCommand)), gpioWrite .dc .low, gpioWrite .cs .low, writeByte v,
    gpioWrite .cs .high]

/-- SEND_CMD(v) (41_framer.md R161). -/
def sendCmd (v : Byte) : Op := sendDataInternal v true

/-- SEND_DATA(v) (41_framer.md R162). -/
def sendData (v : Byte) : Op := sendDataInternal v false

/-- SEND_DATA_INTERNAL (41_framer.md R163). -/
def execSendDataInternal (v : Byte) (isCommand : Bool) (s : State) : Host.Outcome State Fault Refusal :=
  runInner (sendDataInternal v isCommand) s

/-- SEND_CMD (41_framer.md R161). -/
def execSendCmd (v : Byte) (s : State) : Host.Outcome State Fault Refusal := runInner (sendCmd v) s

/-- SEND_DATA (41_framer.md R162). -/
def execSendData (v : Byte) (s : State) : Host.Outcome State Fault Refusal := runInner (sendData v) s

end Sys2Proof.Machine
end

