-- ==== Sys2Proof/Machine/WireFrames.lean ====
section
/-! DEFINITION. The controller command frames (42_wire_commands.md R180 to R196). Inside the block a coordinate is a
natural number, since STREAM_FRAME sends WIDTH and HEIGHT (44_streamer.md R270) and HEIGHT may be 65536; the encodings
truncate as written (00_scope.md R12). -/

namespace Sys2Proof.Machine

/-- A command frame: the command byte and then its data bytes (30_encoding.md R102). -/
def cmdFrame (op : Byte) (ds : List Byte) : Op := inOrder (sendCmd op :: ds.map sendData)

/-- DRIVER_OUTPUT_CONTROL (R180). -/
def driverOutputControl : Op := withCfg fun c =>
  cmdFrame c.opDriverOutputControl [lo (heightOperand c), hi (heightOperand c), c.dScanDir]

/-- BOOSTER_SOFT_START (R181). -/
def boosterSoftStart : Op := withCfg fun c =>
  cmdFrame c.opBoosterSoftStart [c.dBooster0, c.dBooster1, c.dBooster2]

/-- WRITE_VCOM (R182). -/
def writeVcom : Op := withCfg fun c => cmdFrame c.opWriteVcom [c.dVcom]

/-- DUMMY_LINE_PERIOD (R183). -/
def dummyLinePeriod : Op := withCfg fun c => cmdFrame c.opDummyLinePeriod [c.dDummyLine]

/-- GATE_TIME (R184). -/
def gateTime : Op := withCfg fun c => cmdFrame c.opGateTime [c.dGateTime]

/-- BORDER_WAVEFORM (R185). -/
def borderWaveform : Op := withCfg fun c => cmdFrame c.opBorderWaveform [c.dBorder]

/-- DATA_ENTRY_MODE (R186). -/
def dataEntryMode : Op := withCfg fun c => cmdFrame c.opDataEntryMode [c.dDataEntry]

/-- WRITE_LUT for a decoded mode (R187). -/
def writeLut (m : RefreshMode) : Op := withCfg fun c =>
  match m with
  | .full | .partialRefresh => cmdFrame c.opWriteLut ((List.range 30).map (lut c m))
  | .unrecognised => if c.invalidModeSendsLutCmd then cmdFrame c.opWriteLut [] else skip

/-- RAM_X_WINDOW (R188). -/
def ramXWindow (xs xe : Nat) : Op := withCfg fun c => cmdFrame c.opRamXWindow [xb xs, xb xe]

/-- RAM_Y_WINDOW (R189). -/
def ramYWindow (ys ye : Nat) : Op := withCfg fun c => cmdFrame c.opRamYWindow [lo ys, hi ys, lo ye, hi ye]

/-- RAM_X_COUNTER (R190). -/
def ramXCounter (x : Nat) : Op := withCfg fun c => cmdFrame c.opRamXCounter [xb x]

/-- RAM_Y_COUNTER (R191). -/
def ramYCounter (y : Nat) : Op := withCfg fun c => cmdFrame c.opRamYCounter [lo y, hi y]

/-- WRITE_RAM with the data bytes of one row (R192). -/
def writeRam (bytes : List Byte) : Op := withCfg fun c => cmdFrame c.opWriteRam bytes

/-- DISPLAY_UPDATE_CTRL2 (R193). -/
def displayUpdateCtrl2 : Op := withCfg fun c => cmdFrame c.opDisplayUpdateCtrl2 [c.dDuc2Mode]

/-- MASTER_ACTIVATION (R194). -/
def masterActivation : Op := withCfg fun c => cmdFrame c.opMasterActivation []

/-- TERMINATE_FRAME_RW, with role TERMINATE_KIND (R195). -/
def terminateFrameRw : Op := withCfg fun c =>
  match c.terminateKind with
  | .cmd => sendCmd c.opTerminateFrameRw
  | .data => sendData c.opTerminateFrameRw

/-- DEEP_SLEEP (R196). -/
def deepSleep : Op := withCfg fun c => cmdFrame c.opDeepSleep [c.dDeepSleep]

/-- DRIVER_OUTPUT_CONTROL (42_wire_commands.md R180). -/
def execDriverOutputControl (s : State) : Host.Outcome State Fault Refusal := runInner driverOutputControl s

/-- BOOSTER_SOFT_START (42_wire_commands.md R181). -/
def execBoosterSoftStart (s : State) : Host.Outcome State Fault Refusal := runInner boosterSoftStart s

/-- WRITE_VCOM (42_wire_commands.md R182). -/
def execWriteVcom (s : State) : Host.Outcome State Fault Refusal := runInner writeVcom s

/-- DUMMY_LINE_PERIOD (42_wire_commands.md R183). -/
def execDummyLinePeriod (s : State) : Host.Outcome State Fault Refusal := runInner dummyLinePeriod s

/-- GATE_TIME (42_wire_commands.md R184). -/
def execGateTime (s : State) : Host.Outcome State Fault Refusal := runInner gateTime s

/-- BORDER_WAVEFORM (42_wire_commands.md R185). -/
def execBorderWaveform (s : State) : Host.Outcome State Fault Refusal := runInner borderWaveform s

/-- DATA_ENTRY_MODE (42_wire_commands.md R186). -/
def execDataEntryMode (s : State) : Host.Outcome State Fault Refusal := runInner dataEntryMode s

/-- WRITE_LUT (42_wire_commands.md R187). -/
def execWriteLut (m : RefreshMode) (s : State) : Host.Outcome State Fault Refusal := runInner (writeLut m) s

/-- RAM_X_WINDOW (42_wire_commands.md R188). -/
def execRamXWindow (xs xe : Coord) (s : State) : Host.Outcome State Fault Refusal :=
  runInner (ramXWindow xs.toNat xe.toNat) s

/-- RAM_Y_WINDOW (42_wire_commands.md R189). -/
def execRamYWindow (ys ye : Coord) (s : State) : Host.Outcome State Fault Refusal :=
  runInner (ramYWindow ys.toNat ye.toNat) s

/-- RAM_X_COUNTER (42_wire_commands.md R190). -/
def execRamXCounter (x : Coord) (s : State) : Host.Outcome State Fault Refusal := runInner (ramXCounter x.toNat) s

/-- RAM_Y_COUNTER (42_wire_commands.md R191). -/
def execRamYCounter (y : Coord) (s : State) : Host.Outcome State Fault Refusal := runInner (ramYCounter y.toNat) s

/-- WRITE_RAM (42_wire_commands.md R192). -/
def execWriteRam (bytes : List Byte) (s : State) : Host.Outcome State Fault Refusal := runInner (writeRam bytes) s

/-- DISPLAY_UPDATE_CTRL2 (42_wire_commands.md R193). -/
def execDisplayUpdateCtrl2 (s : State) : Host.Outcome State Fault Refusal := runInner displayUpdateCtrl2 s

/-- MASTER_ACTIVATION (42_wire_commands.md R194). -/
def execMasterActivation (s : State) : Host.Outcome State Fault Refusal := runInner masterActivation s

/-- TERMINATE_FRAME_RW (42_wire_commands.md R195). -/
def execTerminateFrameRw (s : State) : Host.Outcome State Fault Refusal := runInner terminateFrameRw s

/-- DEEP_SLEEP (42_wire_commands.md R196). -/
def execDeepSleep (s : State) : Host.Outcome State Fault Refusal := runInner deepSleep s

end Sys2Proof.Machine
end

