-- ==== Sys2Proof/Machine/Sequencer.lean ====
section
/-! DEFINITION. The Controller State Machine (43_sequencer.md): CONFIGURE, RESET, REGISTER_LOAD, LUT_LOAD, BUSY_WAIT,
and the host operations INIT, SET_WINDOW, SET_CURSOR, TURNON_DISPLAY, SLEEP. -/

namespace Sys2Proof.Machine

/-- CONFIGURE (R220). -/
def configure : Op := inOrder [gpioWrite .cs .high, gpioWrite .clk .low, setPState .configured]

/-- RESET (R221). -/
def resetController : Op := withCfg fun c =>
  inOrder [gpioWrite .rst .high, delay c.tResetMs, gpioWrite .rst .low, delay c.tResetMs, gpioWrite .rst .high,
    delay c.tResetMs, setPState .reset]

/-- REGISTER_LOAD, in strict order (R223, R224). -/
def registerLoad : Op :=
  inOrder [driverOutputControl, boosterSoftStart, writeVcom, dummyLinePeriod, gateTime, borderWaveform,
    dataEntryMode, setPState .registersLoaded]

/-- LUT_LOAD's byte k for a recognised mode (R225). -/
def sendLutByte (c : Cfg) (m : RefreshMode) (k : Nat) : Op := inOrder [setLuti k, sendData (lut c m k)]

/-- LUT_LOAD(mode) (R225, R226). -/
def lutLoad (mode : Byte) : Op := withCfg fun c =>
  match decodeMode c mode with
  | .unrecognised =>
    inOrder [if c.invalidModeSendsLutCmd then sendCmd c.opWriteLut else skip, warn warnInvalidModeCode, setWarn,
      setPState .lutLoaded]
  | .full =>
    inOrder [sendCmd c.opWriteLut, forUpTo 30 (sendLutByte c .full), setLutOk true, setPState .lutLoaded]
  | .partialRefresh =>
    inOrder [sendCmd c.opWriteLut, forUpTo 30 (sendLutByte c .partialRefresh), setLutOk true, setPState .lutLoaded]

/-- The polling loop of BUSY_WAIT (R237, R238) with `elapsed` milliseconds counted so far. `polls` is the number of
polls that can still follow; it starts at `pollBound`, with which `elapsed` reaches T_BUSY_TIMEOUT_MS, so its 0 never
ends a loop that R237 would continue (log entry 21). -/
def pollLoop (c : Cfg) : Nat → Nat → Op
  | 0, elapsed => gpioReadBusy fun b =>
    if b ≠ c.busyActiveLevel then skip else fun s => .raised (.busyTimeout elapsed) s
  | k + 1, elapsed => gpioReadBusy fun b =>
    if b ≠ c.busyActiveLevel then skip
    else if c.tBusyTimeoutMs ≤ elapsed then fun s => .raised (.busyTimeout elapsed) s
    else seqOp (delay c.tPollMs) (pollLoop c k (elapsed + c.tPollMs))

/-- BUSY_WAIT (R237). -/
def busyWait : Op := withCfg fun c =>
  match c.busyPolicy with
  | .fixedDelay => delay c.tBusyMs
  | .poll => pollLoop c (pollBound c) 0

/-- The body of INIT(mode) (R230). WARN was cleared at the operation's start. -/
def initBody (mode : Byte) : Op :=
  inOrder [setLutOk false, configure, resetController, registerLoad, lutLoad mode, setPState .ready]

/-- The body of SET_WINDOW (R231). -/
def setWindowBody (xs ys xe ye : Nat) : Op := inOrder [ramXWindow xs xe, ramYWindow ys ye]

/-- The body of SET_CURSOR (R232). -/
def setCursorBody (x y : Nat) : Op := inOrder [ramXCounter x, ramYCounter y]

/-- The body of TURNON_DISPLAY (R233). -/
def turnonDisplayBody : Op := inOrder [displayUpdateCtrl2, masterActivation, terminateFrameRw, busyWait]

/-- The body of SLEEP (R240, R245): issued in Ready it ends in Sleeping. -/
def sleepBody : Op := fun s =>
  inOrder [deepSleep, if s.ghost.pstate = .ready then setPState .sleeping else skip] s

/-- CONFIGURE (43_sequencer.md R220). -/
def execConfigure (s : State) : Host.Outcome State Fault Refusal := runInner configure s

/-- RESET (43_sequencer.md R221). -/
def execReset (s : State) : Host.Outcome State Fault Refusal := runInner resetController s

/-- REGISTER_LOAD (43_sequencer.md R223). -/
def execRegisterLoad (s : State) : Host.Outcome State Fault Refusal := runInner registerLoad s

/-- LUT_LOAD (43_sequencer.md R225). -/
def execLutLoad (mode : Byte) (s : State) : Host.Outcome State Fault Refusal := runInner (lutLoad mode) s

/-- BUSY_WAIT (43_sequencer.md R237). -/
def execBusyWait (s : State) : Host.Outcome State Fault Refusal := runInner busyWait s

/-- INIT (43_sequencer.md R230). -/
def execInit (mode : Byte) (s : State) : Host.Outcome State Fault Refusal := runHostOp .init (initBody mode) s

/-- SET_WINDOW (43_sequencer.md R231). -/
def execSetWindow (xs ys xe ye : Coord) (s : State) : Host.Outcome State Fault Refusal :=
  runHostOp .setWindow (setWindowBody xs.toNat ys.toNat xe.toNat ye.toNat) s

/-- SET_CURSOR (43_sequencer.md R232). -/
def execSetCursor (x y : Coord) (s : State) : Host.Outcome State Fault Refusal :=
  runHostOp .setCursor (setCursorBody x.toNat y.toNat) s

/-- TURNON_DISPLAY (43_sequencer.md R233). -/
def execTurnonDisplay (s : State) : Host.Outcome State Fault Refusal := runHostOp .turnonDisplay turnonDisplayBody s

/-- SLEEP (43_sequencer.md R240). -/
def execSleep (s : State) : Host.Outcome State Fault Refusal := runHostOp .sleep sleepBody s

end Sys2Proof.Machine
end

