-- ==== Sys2Proof/Machine/Streamer.lean ====
section
/-! DEFINITION. The Framebuffer Streamer (44_streamer.md): STREAM_FRAME, DISPLAY, CLEAR. -/

namespace Sys2Proof.Machine

/-- STREAM_BYTE(src, x[IDX]) (R272): an index at or beyond the buffer's length sends nothing. -/
def streamByte (src : Source) : Op :=
  match src with
  | .const => sendData clearPattern
  | .buffer buf => withDp fun d =>
    match memRead buf d.idx.toNat with
    | some b => sendData b
    | none => skip

/-- Byte-column i of row y (R270, R271). -/
def streamColumn (src : Source) (c : Cfg) (y i : Nat) : Op :=
  inOrder [setCol i, setIdx (flatIndex c y i), streamByte src]

/-- Row y: its cursor, the write-RAM command, its bytes (R270). -/
def streamRow (src : Source) (c : Cfg) (y : Nat) : Op :=
  inOrder [setRow y, ramXCounter 0, ramYCounter y, sendCmd c.opWriteRam, forUpTo (byteWidth c) (streamColumn src c y)]

/-- STREAM_FRAME(src) (R270). -/
def streamFrame (src : Source) : Op := withCfg fun c =>
  inOrder [ramXWindow 0 c.width, ramYWindow 0 c.height, forUpTo c.height (streamRow src c), displayUpdateCtrl2,
    masterActivation, terminateFrameRw, busyWait]

/-- The body of DISPLAY and CLEAR (R275, R276): FRAME_UNDEFINED is cleared when the operation was issued in Ready. -/
def frameBody (src : Source) : Op := fun s =>
  inOrder [streamFrame src, if s.ghost.pstate = .ready then setFrameDefined else skip] s

/-- STREAM_FRAME (44_streamer.md R270). -/
def execStreamFrame (src : Source) (s : State) : Host.Outcome State Fault Refusal := runInner (streamFrame src) s

/-- DISPLAY (44_streamer.md R275). -/
def execDisplay (buf : List Byte) (s : State) : Host.Outcome State Fault Refusal :=
  runHostOp .display (frameBody (.buffer buf)) s

/-- CLEAR (44_streamer.md R276). -/
def execClear (s : State) : Host.Outcome State Fault Refusal := runHostOp .clear (frameBody .const) s

end Sys2Proof.Machine
end

