-- ==== Sys2Proof/Machine/Dispatch.lean ====
section
/-! DEFINITION. The dispatch: one arm per instruction. -/

namespace Sys2Proof.Machine

def exec (i : Instr) (s : State) : Host.Outcome State Fault Refusal :=
  match i with
  | .init mode => Sys2Proof.Machine.execInit mode s
  | .clear => Sys2Proof.Machine.execClear s
  | .display buf => Sys2Proof.Machine.execDisplay buf s
  | .sleep => Sys2Proof.Machine.execSleep s
  | .setWindow xs ys xe ye => Sys2Proof.Machine.execSetWindow xs ys xe ye s
  | .setCursor x y => Sys2Proof.Machine.execSetCursor x y s
  | .turnonDisplay => Sys2Proof.Machine.execTurnonDisplay s
  | .writeByte v => Sys2Proof.Machine.execWriteByte v s
  | .writeBytes bytes => Sys2Proof.Machine.execWriteBytes bytes s
  | .sendDataInternal v isCommand => Sys2Proof.Machine.execSendDataInternal v isCommand s
  | .sendCmd v => Sys2Proof.Machine.execSendCmd v s
  | .sendData v => Sys2Proof.Machine.execSendData v s
  | .configure => Sys2Proof.Machine.execConfigure s
  | .reset => Sys2Proof.Machine.execReset s
  | .registerLoad => Sys2Proof.Machine.execRegisterLoad s
  | .lutLoad mode => Sys2Proof.Machine.execLutLoad mode s
  | .busyWait => Sys2Proof.Machine.execBusyWait s
  | .streamFrame src => Sys2Proof.Machine.execStreamFrame src s
  | .driverOutputControl => Sys2Proof.Machine.execDriverOutputControl s
  | .boosterSoftStart => Sys2Proof.Machine.execBoosterSoftStart s
  | .writeVcom => Sys2Proof.Machine.execWriteVcom s
  | .dummyLinePeriod => Sys2Proof.Machine.execDummyLinePeriod s
  | .gateTime => Sys2Proof.Machine.execGateTime s
  | .borderWaveform => Sys2Proof.Machine.execBorderWaveform s
  | .dataEntryMode => Sys2Proof.Machine.execDataEntryMode s
  | .writeLut m => Sys2Proof.Machine.execWriteLut m s
  | .ramXWindow xs xe => Sys2Proof.Machine.execRamXWindow xs xe s
  | .ramYWindow ys ye => Sys2Proof.Machine.execRamYWindow ys ye s
  | .ramXCounter x => Sys2Proof.Machine.execRamXCounter x s
  | .ramYCounter y => Sys2Proof.Machine.execRamYCounter y s
  | .writeRam bytes => Sys2Proof.Machine.execWriteRam bytes s
  | .displayUpdateCtrl2 => Sys2Proof.Machine.execDisplayUpdateCtrl2 s
  | .masterActivation => Sys2Proof.Machine.execMasterActivation s
  | .terminateFrameRw => Sys2Proof.Machine.execTerminateFrameRw s
  | .deepSleep => Sys2Proof.Machine.execDeepSleep s

end Sys2Proof.Machine
end

