-- ==== Sys2Proof/Machine/Fetch.lean ====
section
/-! DEFINITION. Fetching the next word of the program, decoding it, and the host's position after an operation
(10_state.md R53; 70_reset_and_hazards.md R352). -/

namespace Sys2Proof.Machine

/-- The next entry of the program (10_state.md R53); none when the list is exhausted. -/
def nextIssue (h : HostSide) : Option Issue := h.program[h.index]?

/-- The instruction of an entry, or why it is refused (30_encoding.md R121, R124; log entry 17). -/
def readIssue (c : Cfg) (is : Issue) : Except Refusal Instr :=
  match decode is.space is.word with
  | .error why => .error (.undecodable why)
  | .ok i => if i.wellFormed c then .ok i else .error .illFormedInstruction

/-- The host's position after an operation: it advances by one unless the operation returned Err (10_state.md R53). -/
def advanceHost (s : State) : State :=
  if s.host.runEnded then s else { s with host := { s.host with index := s.host.index + 1 } }

/-- The program with the entry `is` at position `k`. Positions before `k` that the list lacks are filled with empty
words, which are never fetched from position `k` on. -/
def placeIssue (program : List Issue) (k : Nat) (is : Issue) : List Issue :=
  program.take k ++ List.replicate (k - program.length) { space := .host, word := [] } ++ is :: program.drop (k + 1)

/-- The entry that the table's word stands for: its code space as the decoder finds it, a host word where it finds
none. -/
def tableIssue (nbits w : Nat) : Issue :=
  match tableWord nbits w with
  | some (space, word) => { space, word }
  | none => { space := .host, word := tableBytes nbits w }

end Sys2Proof.Machine
end

