-- ==== Sys2Proof/Machine/Step.lean ====
section
/-! DEFINITION. One step: the next entry of the program, run to completion (00_scope.md R7; 10_state.md R52, R53). -/

namespace Sys2Proof.Machine

/-- One step. A run that has ended has no step (70_reset_and_hazards.md R352; log entry 12). -/
def step (s : State) : Host.Outcome State Fault Refusal :=
  if s.host.runEnded then .fault .runAborted
  else
    match nextIssue s.host with
    | none => .fault .programExhausted
    | some is =>
      match readIssue s.cfg is with
      | .error r => .refused r
      | .ok i =>
        match exec i s with
        | .next t => .next (advanceHost t)
        | .fault f => .fault f
        | .refused r => .refused r

/-- `s` with the word of an instruction placed where `step` fetches its next instruction: the entry at the host's
position, in the code space in which the decoder reads the word; a run that had ended goes on. This stands for the host
loading a program from outside (log entry 7). -/
def State.withFetchWord (s : State) (nbits w : Nat) : State :=
  { s with host := { s.host with
      program := placeIssue s.host.program s.host.index (tableIssue nbits w)
      runEnded := false } }

end Sys2Proof.Machine
end

