-- ==== Sys2Proof/Machine/Assembler.lean ====
section
/-! DEFINITION. The textual syntax of a host program (30_encoding.md R130) and its pseudo-operations (R131), read into
instructions. A text is a list of characters. What R130 does not say (blanks, letter case, empty lines) is log
entry 19. -/

namespace Sys2Proof.Machine

/-- A named byte sequence, for `display <buffer-name>` (R130). -/
structure NamedBuffer where
  name : List Char
  bytes : List Byte
  deriving DecidableEq, Repr

/-- Space and tab. -/
def isBlank (ch : Char) : Bool := ch == ' ' || ch == '\t'

/-- A text without the blanks at its ends. -/
def trimBlanks (t : List Char) : List Char := ((t.dropWhile isBlank).reverse.dropWhile isBlank).reverse

/-- A text cut at every occurrence of a character. -/
def splitAtChar (sep : Char) : List Char → List (List Char)
  | [] => [[]]
  | ch :: rest =>
    match splitAtChar sep rest with
    | [] => [[ch]]
    | first :: others => if ch = sep then [] :: first :: others else (ch :: first) :: others

/-- A line without its comment (R130). -/
def stripComment (line : List Char) : List Char := line.takeWhile fun ch => ch != ';'

/-- The value of a hexadecimal digit. -/
def digitValue (ch : Char) : Option Nat :=
  let n := ch.toNat
  if 48 ≤ n ∧ n ≤ 57 then some (n - 48)
  else if 65 ≤ n ∧ n ≤ 70 then some (n - 55)
  else if 97 ≤ n ∧ n ≤ 102 then some (n - 87)
  else none

/-- A sequence of digits of a base, continuing a number. -/
def readDigits (base : Nat) (value : Nat) : List Char → Option Nat
  | [] => some value
  | ch :: rest =>
    match digitValue ch with
    | some d => if d < base then readDigits base (value * base + d) rest else none
    | none => none

/-- A number: decimal, or hexadecimal with `0x` (R130). -/
def readNumber (t : List Char) : Option Nat :=
  match t with
  | [] => none
  | '0' :: 'x' :: d :: ds => readDigits 16 0 (d :: ds)
  | d :: ds => readDigits 10 0 (d :: ds)

/-- A number below 2^16 (30_encoding.md R105). -/
def readCoord (t : List Char) : Option Coord :=
  match readNumber t with
  | some n => if n < 65536 then some (BitVec.ofNat 16 n) else none
  | none => none

/-- A refresh-mode code: FULL, PARTIAL or a number below 2^8 (R130). -/
def readMode (c : Cfg) (t : List Char) : Option Byte :=
  if t = ['F', 'U', 'L', 'L'] then some c.modeFull
  else if t = ['P', 'A', 'R', 'T', 'I', 'A', 'L'] then some c.modePartial
  else
    match readNumber t with
    | some n => if n < 256 then some (BitVec.ofNat 8 n) else none
    | none => none

/-- The words of a line: the operation's name and its operands, which commas separate (R130). -/
def lineParts (line : List Char) : List Char × List (List Char) :=
  let body := trimBlanks (stripComment line)
  let name := body.takeWhile fun ch => !isBlank ch
  let rest := trimBlanks (body.dropWhile fun ch => !isBlank ch)
  (name, if rest = [] then [] else (splitAtChar ',' rest).map trimBlanks)

/-- The operation names of R130 and R131. -/
inductive Mnemonic
  | init
  | clear
  | display
  | setWindow
  | setCursor
  | turnonDisplay
  | sleep
  | fullWindow
  | reinit
  deriving DecidableEq, Repr

/-- The name of an operation as a text. -/
def mnemonicText : Mnemonic → List Char
  | .init => ['i', 'n', 'i', 't']
  | .clear => ['c', 'l', 'e', 'a', 'r']
  | .display => ['d', 'i', 's', 'p', 'l', 'a', 'y']
  | .setWindow => ['s', 'e', 't', '_', 'w', 'i', 'n', 'd', 'o', 'w']
  | .setCursor => ['s', 'e', 't', '_', 'c', 'u', 'r', 's', 'o', 'r']
  | .turnonDisplay => ['t', 'u', 'r', 'n', 'o', 'n', '_', 'd', 'i', 's', 'p', 'l', 'a', 'y']
  | .sleep => ['s', 'l', 'e', 'e', 'p']
  | .fullWindow => ['f', 'u', 'l', 'l', '_', 'w', 'i', 'n', 'd', 'o', 'w']
  | .reinit => ['r', 'e', 'i', 'n', 'i', 't']

/-- The operation a name stands for. -/
def readMnemonic (name : List Char) : Option Mnemonic :=
  [Mnemonic.init, .clear, .display, .setWindow, .setCursor, .turnonDisplay, .sleep, .fullWindow, .reinit].find?
    fun m => mnemonicText m == name

/-- The instruction of an operation and its operands. -/
def readOperation (c : Cfg) (buffers : List NamedBuffer) (m : Mnemonic) (operands : List (List Char)) : Option Instr :=
  match m, operands with
  | .init, [t] => (readMode c t).map Instr.init
  | .reinit, [t] => (readMode c t).map Instr.reinit
  | .clear, [] => some .clear
  | .turnonDisplay, [] => some .turnonDisplay
  | .sleep, [] => some .sleep
  | .fullWindow, [] => some (Instr.fullWindow c)
  | .display, [t] => (buffers.find? fun b => b.name == t).map fun b => .display b.bytes
  | .setWindow, [a, b, d, e] =>
    match readCoord a, readCoord b, readCoord d, readCoord e with
    | some xs, some ys, some xe, some ye => some (.setWindow xs ys xe ye)
    | _, _, _, _ => none
  | .setCursor, [a, b] =>
    match readCoord a, readCoord b with
    | some x, some y => some (.setCursor x y)
    | _, _ => none
  | _, _ => none

/-- The instruction of a line; none where the line is no operation of R130. -/
def readLine (c : Cfg) (buffers : List NamedBuffer) (line : List Char) : Option Instr :=
  match readMnemonic (lineParts line).1 with
  | some m => readOperation c buffers m (lineParts line).2
  | none => none

/-- Whether a line holds nothing but blanks and a comment. -/
def isEmptyLine (line : List Char) : Bool := trimBlanks (stripComment line) == []

/-- The instructions of a list of lines, one operation a line (R130); none where a line is no operation. -/
def readLines (c : Cfg) (buffers : List NamedBuffer) : List (List Char) → Option (List Instr)
  | [] => some []
  | line :: rest =>
    match isEmptyLine line, readLines c buffers rest with
    | true, some is => some is
    | false, some is => (readLine c buffers line).map fun i => i :: is
    | _, none => none

/-- The program of a text: the entries that the host issues (R130, R104). -/
def assemble (c : Cfg) (buffers : List NamedBuffer) (text : List Char) : Option (List Issue) :=
  (readLines c buffers (splitAtChar '\n' text)).map fun is => is.map fun i => { space := spaceOf i, word := encode i }

end Sys2Proof.Machine
end

