-- ==== Sys2Proof/Machine/WireFormat.lean ====
section
/-! DEFINITION. The wire formats of 30_encoding.md: bit slot (R100), framed byte (R101), command frame (R102, R103), the
command bytes and their data-byte counts (R116, R125), and the decoding of a GPIO trace (R126). Pure data: the machine
of Machine/Transport.lean to Machine/Streamer.lean does not use them. -/

namespace Sys2Proof.Machine

/-! ### Formats -/

/-- A bit slot (R100). -/
def bitSlot (b : Bool) : List Event := [.w .din (bitLevel b), .w .clk .high, .w .clk .low]

/-- The 8 bit slots of a byte, most significant bit first: positions 5 to 28 of a framed byte (R101). -/
def byteSlots (v : Byte) : List Event := (List.range 8).flatMap fun j => bitSlot (v.getLsbD (7 - j))

/-- What WRITE_BYTE puts on the lines: positions 4 to 29 of a framed byte (R101). -/
def transportByte (v : Byte) : List Event := .w .cs .low :: (byteSlots v ++ [.w .cs .high])

/-- A framed byte: 30 GPIO writes (R101). -/
def framedByte (r : Role) (v : Byte) : List Event :=
  .w .dc (roleLevel r) :: .w .dc .low :: .w .cs .low :: (transportByte v ++ [.w .cs .high])

/-- A trace in the notation of 00_scope.md R17 and 30_encoding.md R132: framed bytes C(b) and D(b), and single
events. -/
inductive WireItem
  | framed (r : Role) (v : Byte)
  | single (e : Event)
  deriving DecidableEq, Repr

/-- The events an item stands for. -/
def itemEvents : WireItem → List Event
  | .framed r v => framedByte r v
  | .single e => [e]

/-- The events a list of items stands for. -/
def eventsOf (items : List WireItem) : List Event := items.flatMap itemEvents

/-- A command frame `CMD op: d0 d1 ...` (R102; 00_scope.md R17). -/
def cmdItems (op : Byte) (ds : List Byte) : List WireItem := .framed .cmd op :: ds.map (.framed .data)

/-! ### Command bytes and data-byte counts -/

/-- The 17 controller commands (R116). -/
inductive WireCommand
  | driverOutputControl
  | boosterSoftStart
  | writeVcom
  | dummyLinePeriod
  | gateTime
  | borderWaveform
  | dataEntryMode
  | writeLut
  | ramXWindow
  | ramYWindow
  | ramXCounter
  | ramYCounter
  | writeRam
  | displayUpdateCtrl2
  | masterActivation
  | terminateFrameRw
  | deepSleep
  deriving DecidableEq, Repr

/-- The 17 commands in the order of 00_scope.md R11. -/
def allCommands : List WireCommand :=
  [.driverOutputControl, .boosterSoftStart, .writeVcom, .dummyLinePeriod, .gateTime, .borderWaveform, .dataEntryMode,
   .writeLut, .ramXWindow, .ramYWindow, .ramXCounter, .ramYCounter, .writeRam, .displayUpdateCtrl2, .masterActivation,
   .terminateFrameRw, .deepSleep]

/-- The command byte of a command (R116; 00_scope.md R11). -/
def opByte (c : Cfg) : WireCommand → Byte
  | .driverOutputControl => c.opDriverOutputControl
  | .boosterSoftStart => c.opBoosterSoftStart
  | .writeVcom => c.opWriteVcom
  | .dummyLinePeriod => c.opDummyLinePeriod
  | .gateTime => c.opGateTime
  | .borderWaveform => c.opBorderWaveform
  | .dataEntryMode => c.opDataEntryMode
  | .writeLut => c.opWriteLut
  | .ramXWindow => c.opRamXWindow
  | .ramYWindow => c.opRamYWindow
  | .ramXCounter => c.opRamXCounter
  | .ramYCounter => c.opRamYCounter
  | .writeRam => c.opWriteRam
  | .displayUpdateCtrl2 => c.opDisplayUpdateCtrl2
  | .masterActivation => c.opMasterActivation
  | .terminateFrameRw => c.opTerminateFrameRw
  | .deepSleep => c.opDeepSleep

/-- The command that a command byte stands for (R116). Unambiguous when the command bytes are distinct. -/
def commandOf (c : Cfg) (b : Byte) : Option WireCommand := allCommands.find? fun cmd => opByte c cmd == b

/-- Whether a frame of the command may have `n` data bytes (R125). -/
def dataCountAllowed (c : Cfg) (cmd : WireCommand) (n : Nat) : Bool :=
  match cmd with
  | .driverOutputControl | .boosterSoftStart => n == 3
  | .writeVcom | .dummyLinePeriod | .gateTime | .borderWaveform | .dataEntryMode => n == 1
  | .writeLut => n == 30 || n == 0
  | .ramXWindow => n == 2
  | .ramYWindow => n == 4
  | .ramXCounter => n == 1
  | .ramYCounter => n == 2
  | .writeRam => decide (n ≤ byteWidth c)
  | .displayUpdateCtrl2 => n == 1
  | .masterActivation =>
    match c.terminateKind with
    | .cmd => n == 0
    | .data => n == 1
  | .terminateFrameRw => n == 0
  | .deepSleep => n == 1

/-! ### Decoding a trace (R126) -/

/-- The level that the event at a position of a group writes; Low where it writes none. -/
def levelAt (es : List Event) (k : Nat) : Level :=
  match es[k]? with
  | some (.w _ v) => v
  | _ => .low

/-- The byte of a group of 30 writes: the DIN levels at writes 5, 8, ..., 26, most significant bit first (R126). -/
def groupByte (es : List Event) : Byte :=
  (List.range 8).foldl (fun v j => v * 2 + (if levelAt es (4 + 3 * j) = .high then 1 else 0)) 0

/-- The role of a group of 30 writes: the level of write 1 (R126). -/
def groupRole (es : List Event) : Role := if levelAt es 0 = .high then .data else .cmd

/-- A group of events read as a framed byte: its role and byte, when the group is that framed byte (R101, R126). -/
def readGroup (es : List Event) : Option (Role × Byte) :=
  if es = framedByte (groupRole es) (groupByte es) then some (groupRole es, groupByte es) else none

/-- Whether a group may start after an event: a `W(CS, High)` or a delay (R126). -/
def opensGroup : Event → Bool
  | .w .cs .high => true
  | .dly _ => true
  | _ => false

/-- Decoding of a trace, with `drop` events of a group already read still to pass over, and `opens` saying whether a
group may start here (R126). -/
def decodeFrom (drop : Nat) (opens : Bool) : List Event → List WireItem
  | [] => []
  | e :: es =>
    match drop with
    | k + 1 => decodeFrom k true es
    | 0 =>
      match (if opens then readGroup ((e :: es).take 30) else none) with
      | some (r, v) => .framed r v :: decodeFrom 29 true es
      | none => .single e :: decodeFrom 0 (opensGroup e) es

/-- Decoding of the trace of one operation into framed bytes and single events (R126; log entry 18). -/
def decodeTrace (es : List Event) : List WireItem := decodeFrom 0 true es

/-- A command frame read from a trace: its command byte and its data bytes (R102, R125). -/
structure CommandFrame where
  op : Byte
  data : List Byte
  deriving DecidableEq, Repr

/-- The data bytes at the front of a list of items. -/
def leadingData : List WireItem → List Byte
  | .framed .data v :: rest => v :: leadingData rest
  | _ => []

/-- The command frames of a list of items: a frame ends where the next command byte or a single event begins, or at
the end (R125). -/
def splitFrames : List WireItem → List CommandFrame
  | [] => []
  | .framed .cmd op :: rest => { op, data := leadingData rest } :: splitFrames rest
  | .framed .data _ :: rest => splitFrames rest
  | .single _ :: rest => splitFrames rest

/-- Whether a frame is a command of the configuration with a data-byte count that R125 gives it. -/
def frameConforms (c : Cfg) (f : CommandFrame) : Bool :=
  match commandOf c f.op with
  | some cmd => dataCountAllowed c cmd f.data.length
  | none => false

/-! ### The event sequence of each operation when no access fails (10_state.md R52) -/

/-- CONFIGURE (43_sequencer.md R220). -/
def configureItems : List WireItem := [.single (.w .cs .high), .single (.w .clk .low)]

/-- RESET (43_sequencer.md R221). -/
def resetItems (c : Cfg) : List WireItem :=
  [.single (.w .rst .high), .single (.dly c.tResetMs), .single (.w .rst .low), .single (.dly c.tResetMs),
   .single (.w .rst .high), .single (.dly c.tResetMs)]

/-- REGISTER_LOAD (43_sequencer.md R223). -/
def registerLoadItems (c : Cfg) : List WireItem :=
  cmdItems c.opDriverOutputControl [lo (heightOperand c), hi (heightOperand c), c.dScanDir]
    ++ cmdItems c.opBoosterSoftStart [c.dBooster0, c.dBooster1, c.dBooster2]
    ++ cmdItems c.opWriteVcom [c.dVcom]
    ++ cmdItems c.opDummyLinePeriod [c.dDummyLine]
    ++ cmdItems c.opGateTime [c.dGateTime]
    ++ cmdItems c.opBorderWaveform [c.dBorder]
    ++ cmdItems c.opDataEntryMode [c.dDataEntry]

/-- The WRITE_LUT frame of a decoded mode (42_wire_commands.md R187). -/
def writeLutItems (c : Cfg) (m : RefreshMode) : List WireItem :=
  match m with
  | .full => cmdItems c.opWriteLut c.lutFull
  | .partialRefresh => cmdItems c.opWriteLut c.lutPartial
  | .unrecognised => if c.invalidModeSendsLutCmd then cmdItems c.opWriteLut [] else []

/-- LUT_LOAD (43_sequencer.md R225): the frame, and the warning for an unrecognised mode. -/
def lutLoadItems (c : Cfg) (mode : Byte) : List WireItem :=
  match decodeMode c mode with
  | .full => writeLutItems c .full
  | .partialRefresh => writeLutItems c .partialRefresh
  | .unrecognised => writeLutItems c .unrecognised ++ [.single (.warn 1)]

/-- INIT (43_sequencer.md R230). -/
def initItems (c : Cfg) (mode : Byte) : List WireItem :=
  configureItems ++ resetItems c ++ registerLoadItems c ++ lutLoadItems c mode

/-- SET_WINDOW (43_sequencer.md R231). -/
def setWindowItems (c : Cfg) (xs ys xe ye : Nat) : List WireItem :=
  cmdItems c.opRamXWindow [xb xs, xb xe] ++ cmdItems c.opRamYWindow [lo ys, hi ys, lo ye, hi ye]

/-- SET_CURSOR (43_sequencer.md R232). -/
def setCursorItems (c : Cfg) (x y : Nat) : List WireItem :=
  cmdItems c.opRamXCounter [xb x] ++ cmdItems c.opRamYCounter [lo y, hi y]

/-- The activation bytes of TURNON_DISPLAY, before its busy wait (43_sequencer.md R233). -/
def activationItems (c : Cfg) : List WireItem :=
  cmdItems c.opDisplayUpdateCtrl2 [c.dDuc2Mode] ++ cmdItems c.opMasterActivation []
    ++ [.framed c.terminateKind c.opTerminateFrameRw]

/-- SLEEP (43_sequencer.md R240). -/
def sleepItems (c : Cfg) : List WireItem := cmdItems c.opDeepSleep [c.dDeepSleep]

/-- The data bytes of row y: r(y) = max(0, min(BW, L - y*BW)) bytes of the buffer from y*BW on, or BW bytes of the
clear pattern (44_streamer.md R272, R273). -/
def rowBytes (c : Cfg) (src : Source) (y : Nat) : List Byte :=
  match src with
  | .const => List.replicate (byteWidth c) clearPattern
  | .buffer buf => (buf.drop (y * byteWidth c)).take (byteWidth c)

/-- Row y of a frame (44_streamer.md R270). -/
def rowItems (c : Cfg) (src : Source) (y : Nat) : List WireItem :=
  setCursorItems c 0 y ++ cmdItems c.opWriteRam (rowBytes c src y)

/-- A frame before its busy wait (44_streamer.md R270). -/
def frameItems (c : Cfg) (src : Source) : List WireItem :=
  setWindowItems c 0 0 c.width c.height ++ (List.range c.height).flatMap (rowItems c src) ++ activationItems c

/-- The fixed busy wait (43_sequencer.md R237, FixedDelay). -/
def fixedWaitItems (c : Cfg) : List WireItem := [.single (.dly c.tBusyMs)]

/-- A busy wait under Poll whose first `k` reads were busy and whose next read was not (43_sequencer.md R237). -/
def pollWaitItems (c : Cfg) (k : Nat) (idle : Level) : List WireItem :=
  (List.range k).flatMap (fun _ => [.single (.rd c.busyActiveLevel), .single (.dly c.tPollMs)]) ++ [.single (.rd idle)]

end Sys2Proof.Machine
end

