-- ==== Sys2Proof/Machine/TraceText.lean ====
section
/-! DEFINITION. The wire-trace syntax (30_encoding.md R132; 00_scope.md R17). -/

namespace Sys2Proof.Machine

/-- A level: `L` or `H`. -/
def levelText : Level → String
  | .low => "L"
  | .high => "H"

/-- A line's name. -/
def lineText : OutLine → String
  | .clk => "CLK"
  | .din => "DIN"
  | .cs => "CS"
  | .dc => "DC"
  | .rst => "RST"

/-- A hexadecimal digit. -/
def hexDigit (n : Nat) : String :=
  match n with
  | 10 => "A"
  | 11 => "B"
  | 12 => "C"
  | 13 => "D"
  | 14 => "E"
  | 15 => "F"
  | k => toString k

/-- A byte as `0x` and two hexadecimal digits. -/
def byteText (b : Byte) : String := "0x" ++ hexDigit (b.toNat / 16) ++ hexDigit (b.toNat % 16)

/-- A single event. -/
def eventText : Event → String
  | .w l v => "W(" ++ lineText l ++ "," ++ levelText v ++ ")"
  | .f l v => "F(" ++ lineText l ++ "," ++ levelText v ++ ")"
  | .dly ms => "Dly(" ++ toString ms ++ ")"
  | .rd b => "Rd(BUSY," ++ levelText b ++ ")"
  | .warn code => "Warn(" ++ toString code ++ ")"

/-- An item: C(b), D(b) or a single event. -/
def itemText : WireItem → String
  | .framed .cmd v => "C(" ++ byteText v ++ ")"
  | .framed .data v => "D(" ++ byteText v ++ ")"
  | .single e => eventText e

/-- A trace: its items, decoded, separated by spaces. -/
def traceText (es : List Event) : String := String.intercalate " " ((decodeTrace es).map itemText)

end Sys2Proof.Machine
end

