-- ==== Sys2Proof/Safety.lean ====
section
/-! DEFINITION. The terms in which claims about runs are stated: what the environment answers, the state after a list of
successful events, which line order is safe for the controller (70_reset_and_hazards.md R353), what a line of the
textual syntax names, what a state between operations looks like. -/

namespace Sys2Proof.Machine

/-! ### The environment's answers -/

/-- The next `n` GPIO accesses all succeed. -/
def answersOk : Nat → Draws GpioAnswer → Bool
  | 0, _ => true
  | n + 1, d => decide (nextDraw d = .ok) && answersOk n (laterDraws d)

/-- A script after `n` draws. -/
def drawsAfter {α : Type} : Nat → Draws α → Draws α
  | 0, d => d
  | n + 1, d => drawsAfter n (laterDraws d)

/-- Whether an event is a GPIO access: it uses up one answer of the environment. -/
def isAccess : Event → Bool
  | .w .. | .f .. | .rd _ => true
  | .dly _ | .warn _ => false

/-- The number of GPIO accesses among events. -/
def accesses (es : List Event) : Nat := es.countP isAccess

/-- The first of at most `polls + 1` reads of BUSY that is not the active level: how many reads come before it, and
the level it samples (43_sequencer.md R237). -/
def firstIdle (active : Level) : Nat → Draws Level → Option (Nat × Level)
  | 0, d => if nextDraw d ≠ active then some (0, nextDraw d) else none
  | n + 1, d =>
    if nextDraw d ≠ active then some (0, nextDraw d)
    else (firstIdle active n (laterDraws d)).map fun p => (p.1 + 1, p.2)

/-- What a BUSY_WAIT puts in the trace when no access fails: none where it ends in a timeout (43_sequencer.md R237). -/
def waitItems (c : Cfg) (busy : Draws Level) : Option (List WireItem) :=
  match c.busyPolicy with
  | .fixedDelay => some (fixedWaitItems c)
  | .poll => (firstIdle c.busyActiveLevel (pollBound c) busy).map fun p => pollWaitItems c p.1 p.2

/-- What a BUSY_WAIT that times out puts in the trace: all its reads busy, a delay between them (43_sequencer.md R237,
R238). -/
def timeoutItems (c : Cfg) : List WireItem := pollWaitItems c (pollBound c) c.busyActiveLevel

/-! ### The state after events -/

/-- What an event does to the lines (40_transport.md R140). -/
def lineEffect (ls : Lines) : Event → Lines
  | .w l v => setLine ls l v.toLine
  | .f l _ => setLine ls l .unknown
  | .dly _ | .rd _ | .warn _ => ls

/-- The lines after events. -/
def linesAfter (ls : Lines) (es : List Event) : Lines := es.foldl lineEffect ls

/-- What an event uses up of the environment's draws. -/
def envEffect (v : Env) : Event → Env
  | .w .. | .f .. => { v with gpio := laterDraws v.gpio }
  | .rd _ => { v with gpio := laterDraws v.gpio, busy := laterDraws v.busy }
  | .dly _ => { v with late := laterDraws v.late }
  | .warn _ => v

/-- The environment after events. -/
def envAfter (v : Env) (es : List Event) : Env := es.foldl envEffect v

/-- The position after `n` events. -/
def advanceBy (n : Nat) : Position → Position
  | .idle => .idle
  | .running op k => .running op (k + n)

/-- The milliseconds that the delays among events last, `late` saying by how much each exceeds its minimum. -/
def delayedMs : Draws Nat → List Event → Nat
  | _, [] => 0
  | late, .dly ms :: es => ms + nextDraw late + delayedMs (laterDraws late) es
  | late, _ :: es => delayedMs late es

/-- The state after the events `es`: lines, position, trace, draws and time follow the events, and NOTHING ELSE
changes. -/
def emit (es : List Event) (s : State) : State :=
  { s with
    lines := linesAfter s.lines es
    pos := advanceBy es.length s.pos
    revTrace := es.reverse ++ s.revTrace
    blockedMs := s.blockedMs + delayedMs s.env.late es
    env := envAfter s.env es }

/-- A state with other scratch registers. No rule lets the host see them (10_state.md R43). -/
def withScratch (d : Datapath) (s : State) : State := { s with dp := d }

/-- One planned event, played against the environment's answers: a write can fail or never return. -/
def playEvent : Event → Op
  | .w l v => gpioWrite l v
  | .dly ms => delay ms
  | .warn code => warn code
  | .f .. | .rd _ => skip

/-- Planned events, played in order against the environment's answers. -/
def replay (es : List Event) : Op := inOrder (es.map playEvent)

/-! ### Operations -/

/-- The host operation of an instruction (30_encoding.md R104). -/
def hostOpOf : Instr → Option HostOp
  | .init _ => some .init
  | .clear => some .clear
  | .display _ => some .display
  | .sleep => some .sleep
  | .setWindow .. => some .setWindow
  | .setCursor .. => some .setCursor
  | .turnonDisplay => some .turnonDisplay
  | .writeByte _ | .writeBytes _ | .sendDataInternal .. | .sendCmd _ | .sendData _ | .configure | .reset
  | .registerLoad | .lutLoad _ | .busyWait | .streamFrame _ => none
  | .driverOutputControl | .boosterSoftStart | .writeVcom | .dummyLinePeriod | .gateTime | .borderWaveform
  | .dataEntryMode | .writeLut _ | .ramXWindow .. | .ramYWindow .. | .ramXCounter _ | .ramYCounter _ | .writeRam _
  | .displayUpdateCtrl2 | .masterActivation | .terminateFrameRw | .deepSleep => none

/-- Whether a host operation ends with a BUSY_WAIT (43_sequencer.md R233; 44_streamer.md R270). -/
def waitsAtEnd : HostOp → Bool
  | .clear | .display | .turnonDisplay => true
  | .init | .sleep | .setWindow | .setCursor => false

/-- The items that a host operation sends before its busy wait, or all of them where it has none (10_state.md R52);
empty for what is no host operation. -/
def hostItems (c : Cfg) : Instr → List WireItem
  | .init mode => initItems c mode
  | .clear => frameItems c .const
  | .display buf => frameItems c (.buffer buf)
  | .sleep => sleepItems c
  | .setWindow xs ys xe ye => setWindowItems c xs.toNat ys.toNat xe.toNat ye.toNat
  | .setCursor x y => setCursorItems c x.toNat y.toNat
  | .turnonDisplay => activationItems c
  | .writeByte _ | .writeBytes _ | .sendDataInternal .. | .sendCmd _ | .sendData _ | .configure | .reset
  | .registerLoad | .lutLoad _ | .busyWait | .streamFrame _ => []
  | .driverOutputControl | .boosterSoftStart | .writeVcom | .dummyLinePeriod | .gateTime | .borderWaveform
  | .dataEntryMode | .writeLut _ | .ramXWindow .. | .ramYWindow .. | .ramXCounter _ | .ramYCounter _ | .writeRam _
  | .displayUpdateCtrl2 | .masterActivation | .terminateFrameRw | .deepSleep => []

/-! ### What an operation leaves when it returns -/

/-- The mode operand of INIT; none for every other instruction. -/
def initMode : Instr → Option Byte
  | .init mode => some mode
  | .clear | .display _ | .sleep | .setWindow .. | .setCursor .. | .turnonDisplay => none
  | .writeByte _ | .writeBytes _ | .sendDataInternal .. | .sendCmd _ | .sendData _ | .configure | .reset
  | .registerLoad | .lutLoad _ | .busyWait | .streamFrame _ => none
  | .driverOutputControl | .boosterSoftStart | .writeVcom | .dummyLinePeriod | .gateTime | .borderWaveform
  | .dataEntryMode | .writeLut _ | .ramXWindow .. | .ramYWindow .. | .ramXCounter _ | .ramYCounter _ | .writeRam _
  | .displayUpdateCtrl2 | .masterActivation | .terminateFrameRw | .deepSleep => none

/-- Whether an instruction is an INIT with an unrecognised mode (43_sequencer.md R226). -/
def warnsInvalidMode (c : Cfg) (i : Instr) : Bool :=
  match initMode i with
  | some mode => decide (decodeMode c mode = .unrecognised)
  | none => false

/-- PSTATE after a host operation that returned Ok (43_sequencer.md R245). -/
def pstateOnOk : HostOp → PState → PState
  | .init, _ => .ready
  | .sleep, p => if p = .ready then .sleeping else p
  | .clear, p | .display, p | .setWindow, p | .setCursor, p | .turnonDisplay, p => p

/-- PSTATE after a host operation that returned Err (43_sequencer.md R245). -/
def pstateOnErr : HostOp → PState → PState
  | .init, _ => .undefined
  | .sleep, p => if p = .ready then .undefined else p
  | .clear, p | .display, p | .setWindow, p | .setCursor, p | .turnonDisplay, p => p

/-- LUT_OK after an operation that returned Ok (10_state.md R47). -/
def lutOkOnOk (c : Cfg) (i : Instr) (b : Bool) : Bool :=
  match initMode i with
  | some mode => decide (decodeMode c mode ≠ .unrecognised)
  | none => b

/-- LUT_OK after an operation that returned Err (10_state.md R47). -/
def lutOkOnErr (i : Instr) (b : Bool) : Bool :=
  match initMode i with
  | some _ => false
  | none => b

/-- FRAME_UNDEFINED after a host operation that returned Ok, issued in PSTATE `p` (10_state.md R49). -/
def frameUndefinedOnOk (op : HostOp) (p : PState) (b : Bool) : Bool :=
  match op with
  | .clear | .display => if p = .ready then false else b
  | .init | .sleep | .setWindow | .setCursor | .turnonDisplay => b

/-- PROTOCOL_VIOLATION after a host operation: set when an operation other than INIT is issued outside Ready, and never
cleared (10_state.md R48; 43_sequencer.md R246). -/
def violationAfter (op : HostOp) (p : PState) (b : Bool) : Bool :=
  match op with
  | .init => b
  | .clear | .display | .sleep | .setWindow | .setCursor | .turnonDisplay => b || decide (p ≠ .ready)

/-- The status record of an operation that returned Ok (10_state.md R40, R41). -/
def okStatus (i : Instr) (s : State) : Status :=
  { s.status with result := 0, warn := if warnsInvalidMode s.cfg i then 1 else 0 }

/-- The status record of an operation that raised `e` (60_exceptions.md R305; 10_state.md R41, R42). -/
def errStatus (e : Raise) (s : State) : Status := statusOnRaise e { s.status with warn := 0 }

/-- The state after the host operation `i` returned Ok, its events being `es` and the scratch registers `d`. -/
def hostOk (i : Instr) (op : HostOp) (es : List Event) (d : Datapath) (s : State) : State :=
  { emit es s with
    dp := d
    pos := .idle
    status := okStatus i s
    ghost :=
      { pstate := pstateOnOk op s.ghost.pstate
        lutOk := lutOkOnOk s.cfg i s.ghost.lutOk
        protocolViolation := violationAfter op s.ghost.pstate s.ghost.protocolViolation
        frameUndefined := frameUndefinedOnOk op s.ghost.pstate s.ghost.frameUndefined }
    host :=
      { s.host with
        revResults := { raised := none, status := okStatus i s } :: s.host.revResults
        runEnded := false } }

/-- The state after the host operation `i`, issued in `s`, was aborted by `e` (60_exceptions.md R305): lines, trace,
draws and time are those of `t`, the state after its last access; the scratch registers are `d`. -/
def hostErr (i : Instr) (op : HostOp) (e : Raise) (d : Datapath) (t s : State) : State :=
  { t with
    dp := d
    pos := .idle
    status := errStatus e s
    ghost :=
      { pstate := pstateOnErr op s.ghost.pstate
        lutOk := lutOkOnErr i s.ghost.lutOk
        protocolViolation := violationAfter op s.ghost.pstate s.ghost.protocolViolation
        frameUndefined := true }
    host :=
      { s.host with
        revResults := { raised := some e, status := errStatus e s } :: s.host.revResults
        runEnded := true } }

/-- A state whose next answer of the environment is used up: what a failed read of BUSY leaves (40_transport.md R143;
log entry 14). -/
def useAnswer (s : State) : State := { s with env := { s.env with gpio := laterDraws s.env.gpio } }

/-- `k` turns of the polling loop that found the controller busy (43_sequencer.md R237). -/
def busyTurns (c : Cfg) (k : Nat) : List WireItem :=
  (List.range k).flatMap fun _ => [.single (.rd c.busyActiveLevel), .single (.dly c.tPollMs)]

/-- Whether the next `k` reads of BUSY find the controller busy. -/
def busyFor (active : Level) : Nat → Draws Level → Bool
  | 0, _ => true
  | n + 1, d => decide (nextDraw d = active) && busyFor active n (laterDraws d)

/-! ### Micro-operations and command frames, run on their own -/

/-- The events of a micro-operation or a command frame before its busy wait, or all of them where it has none; empty for
a host operation. -/
def innerEvents (c : Cfg) : Instr → List Event
  | .writeByte v => transportByte v
  | .writeBytes bytes => bytes.flatMap transportByte
  | .sendDataInternal v isCommand => framedByte (if isCommand then .cmd else .data) v
  | .sendCmd v => framedByte .cmd v
  | .sendData v => framedByte .data v
  | .configure => eventsOf configureItems
  | .reset => eventsOf (resetItems c)
  | .registerLoad => eventsOf (registerLoadItems c)
  | .lutLoad mode => eventsOf (lutLoadItems c mode)
  | .busyWait => []
  | .streamFrame src => eventsOf (frameItems c src)
  | .driverOutputControl =>
    eventsOf (cmdItems c.opDriverOutputControl [lo (heightOperand c), hi (heightOperand c), c.dScanDir])
  | .boosterSoftStart => eventsOf (cmdItems c.opBoosterSoftStart [c.dBooster0, c.dBooster1, c.dBooster2])
  | .writeVcom => eventsOf (cmdItems c.opWriteVcom [c.dVcom])
  | .dummyLinePeriod => eventsOf (cmdItems c.opDummyLinePeriod [c.dDummyLine])
  | .gateTime => eventsOf (cmdItems c.opGateTime [c.dGateTime])
  | .borderWaveform => eventsOf (cmdItems c.opBorderWaveform [c.dBorder])
  | .dataEntryMode => eventsOf (cmdItems c.opDataEntryMode [c.dDataEntry])
  | .writeLut m => eventsOf (writeLutItems c m)
  | .ramXWindow xs xe => eventsOf (cmdItems c.opRamXWindow [xb xs.toNat, xb xe.toNat])
  | .ramYWindow ys ye =>
    eventsOf (cmdItems c.opRamYWindow [lo ys.toNat, hi ys.toNat, lo ye.toNat, hi ye.toNat])
  | .ramXCounter x => eventsOf (cmdItems c.opRamXCounter [xb x.toNat])
  | .ramYCounter y => eventsOf (cmdItems c.opRamYCounter [lo y.toNat, hi y.toNat])
  | .writeRam bytes => eventsOf (cmdItems c.opWriteRam bytes)
  | .displayUpdateCtrl2 => eventsOf (cmdItems c.opDisplayUpdateCtrl2 [c.dDuc2Mode])
  | .masterActivation => eventsOf (cmdItems c.opMasterActivation [])
  | .terminateFrameRw => framedByte c.terminateKind c.opTerminateFrameRw
  | .deepSleep => eventsOf (cmdItems c.opDeepSleep [c.dDeepSleep])
  | .init _ | .clear | .display _ | .sleep | .setWindow .. | .setCursor .. | .turnonDisplay => []

/-- Whether a micro-operation ends with a busy wait (43_sequencer.md R237; 44_streamer.md R270). -/
def innerWaits : Instr → Bool
  | .busyWait | .streamFrame _ => true
  | .writeByte _ | .writeBytes _ | .sendDataInternal .. | .sendCmd _ | .sendData _ | .configure | .reset
  | .registerLoad | .lutLoad _ => false
  | .driverOutputControl | .boosterSoftStart | .writeVcom | .dummyLinePeriod | .gateTime | .borderWaveform
  | .dataEntryMode | .writeLut _ | .ramXWindow .. | .ramYWindow .. | .ramXCounter _ | .ramYCounter _ | .writeRam _
  | .displayUpdateCtrl2 | .masterActivation | .terminateFrameRw | .deepSleep => false
  | .init _ | .clear | .display _ | .sleep | .setWindow .. | .setCursor .. | .turnonDisplay => false

/-- The ghost state after a micro-operation or a command frame that completed (43_sequencer.md R220, R221, R223, R225). -/
def innerGhost (c : Cfg) (i : Instr) (g : Ghost) : Ghost :=
  match i with
  | .configure => { g with pstate := .configured }
  | .reset => { g with pstate := .reset }
  | .registerLoad => { g with pstate := .registersLoaded }
  | .lutLoad mode =>
    { g with
      pstate := .lutLoaded
      lutOk := if decodeMode c mode = .unrecognised then g.lutOk else true }
  | .writeByte _ | .writeBytes _ | .sendDataInternal .. | .sendCmd _ | .sendData _ | .busyWait | .streamFrame _ => g
  | .driverOutputControl | .boosterSoftStart | .writeVcom | .dummyLinePeriod | .gateTime | .borderWaveform
  | .dataEntryMode | .writeLut _ | .ramXWindow .. | .ramYWindow .. | .ramXCounter _ | .ramYCounter _ | .writeRam _
  | .displayUpdateCtrl2 | .masterActivation | .terminateFrameRw | .deepSleep => g
  | .init _ | .clear | .display _ | .sleep | .setWindow .. | .setCursor .. | .turnonDisplay => g

/-- The status record after a micro-operation or a command frame that completed (43_sequencer.md R225, R226). -/
def innerStatus (c : Cfg) (i : Instr) (st : Status) : Status :=
  match i with
  | .lutLoad mode => if decodeMode c mode = .unrecognised then { st with warn := 1 } else st
  | .writeByte _ | .writeBytes _ | .sendDataInternal .. | .sendCmd _ | .sendData _ | .configure | .reset
  | .registerLoad | .busyWait | .streamFrame _ => st
  | .driverOutputControl | .boosterSoftStart | .writeVcom | .dummyLinePeriod | .gateTime | .borderWaveform
  | .dataEntryMode | .writeLut _ | .ramXWindow .. | .ramYWindow .. | .ramXCounter _ | .ramYCounter _ | .writeRam _
  | .displayUpdateCtrl2 | .masterActivation | .terminateFrameRw | .deepSleep => st
  | .init _ | .clear | .display _ | .sleep | .setWindow .. | .setCursor .. | .turnonDisplay => st

/-- The state after a micro-operation or a command frame, run alone in `s`, was aborted by `e` (log entry 10): lines, trace,
draws and time are those of `t`, the state after its last access; the scratch registers are `d`. -/
def innerErr (e : Raise) (d : Datapath) (t s : State) : State :=
  { t with
    dp := d
    pos := .idle
    status := statusOnRaise e s.status
    ghost := { s.ghost with frameUndefined := true, pstate := pstateOnRaise s.pos s.ghost.pstate }
    host :=
      { s.host with
        revResults := { raised := some e, status := statusOnRaise e s.status } :: s.host.revResults
        runEnded := true } }

/-! ### Line order (70_reset_and_hazards.md R353) -/

/-- Whether one event keeps the order a controller may rely on, given the lines before it: DIN is not written while
CLK is High (a), CS is not written while CLK is High (b, d), DC is not written while CS is Low (c). -/
def lineOrderAt (ls : Lines) : Event → Bool
  | .w .din _ | .f .din _ => decide (ls.clk ≠ .high)
  | .w .cs _ | .f .cs _ => decide (ls.clk ≠ .high)
  | .w .dc _ | .f .dc _ => decide (ls.cs ≠ .low)
  | .w .clk _ | .f .clk _ | .w .rst _ | .f .rst _ => true
  | .dly _ | .rd _ | .warn _ => true

/-- Whether events keep the line order, the lines being `ls` before them. -/
def lineOrderOk : Lines → List Event → Bool
  | _, [] => true
  | ls, e :: es => lineOrderAt ls e && lineOrderOk (lineEffect ls e) es

/-- Whether every rising clock edge among events finds DC Low (41_framer.md R160; 70_reset_and_hazards.md R356). -/
def dcLowAtClocks : Lines → List Event → Bool
  | _, [] => true
  | ls, e :: es =>
    (match e with
      | .w .clk .high => decide (ls.dc = .low)
      | _ => true) && dcLowAtClocks (lineEffect ls e) es

/-- The level of DIN at every rising edge of CLK among events (40_transport.md R148). -/
def dinAtRises : Lines → List Event → List LineState
  | _, [] => []
  | ls, e :: es =>
    (match e with
      | .w .clk .high => if ls.clk ≠ .high then [ls.din] else []
      | _ => []) ++ dinAtRises (lineEffect ls e) es

/-- The level of CS at every rising edge of CLK among events (41_framer.md R165). -/
def csAtRises : Lines → List Event → List LineState
  | _, [] => []
  | ls, e :: es =>
    (match e with
      | .w .clk .high => if ls.clk ≠ .high then [ls.cs] else []
      | _ => []) ++ csAtRises (lineEffect ls e) es

/-- The levels that CS changes to, in order (41_framer.md R165). -/
def csChanges : Lines → List Event → List LineState
  | _, [] => []
  | ls, e :: es =>
    (if (lineEffect ls e).cs ≠ ls.cs then [(lineEffect ls e).cs] else []) ++ csChanges (lineEffect ls e) es

/-- The levels written to CS, in order. -/
def csWrites : List Event → List Level
  | [] => []
  | .w .cs v :: es => v :: csWrites es
  | _ :: es => csWrites es

/-! ### Counts (70_reset_and_hazards.md R365) -/

/-- Whether an item is a framed byte. -/
def isFramed : WireItem → Bool
  | .framed .. => true
  | .single _ => false

/-- The number of framed bytes among items. -/
def framedBytes (items : List WireItem) : Nat := items.countP isFramed

/-- Whether an event is a GPIO write, successful or failed. -/
def isWrite : Event → Bool
  | .w .. | .f .. => true
  | .dly _ | .rd _ | .warn _ => false

/-- The number of GPIO writes among events. -/
def gpioWrites (es : List Event) : Nat := es.countP isWrite

/-- Whether an event is a read of BUSY. -/
def isRead : Event → Bool
  | .rd _ => true
  | .w .. | .f .. | .dly _ | .warn _ => false

/-- The number of reads of BUSY among events. -/
def busyReads (es : List Event) : Nat := es.countP isRead

/-- The number of data bytes of a frame (44_streamer.md R273, R274). -/
def frameDataBytes (c : Cfg) : Source → Nat
  | .const => byteWidth c * c.height
  | .buffer buf => min buf.length (byteWidth c * c.height)

/-- The operand bytes of the host operations of a fixed length (30_encoding.md R104). -/
def hostOperandBytes (code : Nat) : Option Nat :=
  match code with
  | 0x01 => some 1
  | 0x02 => some 0
  | 0x04 => some 0
  | 0x05 => some 8
  | 0x06 => some 4
  | 0x07 => some 0
  | _ => none

/-- Two events that are the same but for the level of a DIN write. -/
def sameButDin : Event → Event → Bool
  | .w .din _, .w .din _ => true
  | a, b => decide (a = b)

/-! ### The textual syntax (30_encoding.md R130, R131), said without the assembler's own reading of names and numbers -/

/-- The digits in order of their values. -/
def digitChars : List Char := ['0', '1', '2', '3', '4', '5', '6', '7', '8', '9', 'a', 'b', 'c', 'd', 'e', 'f']

/-- The text writes the number in digits of a base; digits of either case (log entry 19). -/
def DigitsText (base : Nat) (t : List Char) (n : Nat) : Prop :=
  t ≠ [] ∧ (∀ ch ∈ t, ch.toLower ∈ digitChars.take base) ∧
    n = t.foldl (fun m ch => base * m + digitChars.idxOf ch.toLower) 0

/-- The text writes the number: decimal, or hexadecimal with `0x` (R130). -/
def NumberText (t : List Char) (n : Nat) : Prop :=
  DigitsText 10 t n ∨ ∃ ds, t = '0' :: 'x' :: ds ∧ DigitsText 16 ds n

/-- The text writes the refresh-mode code (R130). -/
def ModeText (c : Cfg) (t : List Char) (mode : Byte) : Prop :=
  t = "FULL".toList ∧ mode = c.modeFull ∨ t = "PARTIAL".toList ∧ mode = c.modePartial ∨ NumberText t mode.toNat

/-- The operation and the operands that a line names (R130, R131). How blanks and a comment are cut off is lineParts,
log entry 19. -/
inductive LineNames (c : Cfg) (buffers : List NamedBuffer) (line : List Char) : Instr → Prop
  | init (t : List Char) (mode : Byte) (h : lineParts line = ("init".toList, [t])) (hm : ModeText c t mode) :
      LineNames c buffers line (.init mode)
  | reinit (t : List Char) (mode : Byte) (h : lineParts line = ("reinit".toList, [t])) (hm : ModeText c t mode) :
      LineNames c buffers line (.init mode)
  | clear (h : lineParts line = ("clear".toList, [])) : LineNames c buffers line .clear
  | display (b : NamedBuffer) (h : lineParts line = ("display".toList, [b.name])) (hb : b ∈ buffers) :
      LineNames c buffers line (.display b.bytes)
  | setWindow (t1 t2 t3 t4 : List Char) (xs ys xe ye : Coord)
      (h : lineParts line = ("set_window".toList, [t1, t2, t3, t4])) (h1 : NumberText t1 xs.toNat)
      (h2 : NumberText t2 ys.toNat) (h3 : NumberText t3 xe.toNat) (h4 : NumberText t4 ye.toNat) :
      LineNames c buffers line (.setWindow xs ys xe ye)
  | fullWindow (h : lineParts line = ("full_window".toList, [])) :
      LineNames c buffers line (.setWindow 0 0 (BitVec.ofNat 16 c.width) (BitVec.ofNat 16 c.height))
  | setCursor (t1 t2 : List Char) (x y : Coord) (h : lineParts line = ("set_cursor".toList, [t1, t2]))
      (h1 : NumberText t1 x.toNat) (h2 : NumberText t2 y.toNat) : LineNames c buffers line (.setCursor x y)
  | turnonDisplay (h : lineParts line = ("turnon_display".toList, [])) : LineNames c buffers line .turnonDisplay
  | sleep (h : lineParts line = ("sleep".toList, [])) : LineNames c buffers line .sleep

/-- The lines of a text that hold more than blanks and a comment: one operation each (R130). -/
def operationLines (text : List Char) : List (List Char) :=
  (splitAtChar '\n' text).filter fun line => !isEmptyLine line

/-! ### States between operations -/

/-- The last level written to a line, newest event first: the level of a successful write, Unknown after a failed one
and where no write was tried (10_state.md R38). -/
def lastLevel (l : OutLine) : List Event → LineState
  | [] => .unknown
  | .w l' v :: es => if l' = l then v.toLine else lastLevel l es
  | .f l' _ :: es => if l' = l then .unknown else lastLevel l es
  | .dly _ :: es => lastLevel l es
  | .rd _ :: es => lastLevel l es
  | .warn _ :: es => lastLevel l es

/-- The bus at rest: CS High, CLK Low, DC Low (41_framer.md R166), RST High (10_state.md R35). -/
structure BusAtRest (ls : Lines) : Prop where
  clk : ls.clk = .low
  cs : ls.cs = .high
  dc : ls.dc = .low
  rst : ls.rst = .high

/-- The status record holds no reserved value (30_encoding.md R123). -/
def noReservedStatus (st : Status) : Bool :=
  decide (st.result ≠ 3) && decide (st.errLine ≠ 6) && decide (st.errLine ≠ 7)

/-- The invariant of a machine that runs a host program, between two steps. -/
structure HostRunInv (s : State) : Prop where
  /-- The program holds host words only (10_state.md R53; 30_encoding.md R121). -/
  hostOnly : ∀ is ∈ s.host.program, is.space = .host
  /-- No operation is running (10_state.md R52). -/
  idle : s.pos = .idle
  /-- A line holds what the trace last wrote to it (10_state.md R38; 20_memory.md R80). -/
  linesFollowTrace : ∀ l, getLine s.lines l = lastLevel l s.revTrace
  /-- CLK and DC never rest High (10_state.md R31; 41_framer.md R166). -/
  clkNotHigh : s.lines.clk ≠ .high
  dcNotHigh : s.lines.dc ≠ .high
  /-- The reserved status values are never produced (30_encoding.md R123). -/
  status : noReservedStatus s.status = true
  /-- The run has ended exactly when the last result is an Err (70_reset_and_hazards.md R352). -/
  endedByErr : s.host.runEnded = (match s.host.revResults with
    | [] => false
    | r :: _ => r.raised.isSome)
  /-- The position counts the operations that returned Ok (10_state.md R53). -/
  position : s.host.revResults.length = s.host.index + (if s.host.runEnded then 1 else 0)
  /-- After an Err the panel's image is undefined (10_state.md R49). -/
  frameAfterErr : s.host.runEnded = true → s.ghost.frameUndefined = true
  /-- While the run goes on, either INIT has not been run, or the protocol state is Ready or Sleeping and the bus is
  at rest (43_sequencer.md R245; 41_framer.md R166; 60_exceptions.md R326). -/
  atRest : s.host.runEnded = false →
    s.ghost.pstate = .uninitialized ∨
      ((s.ghost.pstate = .ready ∨ s.ghost.pstate = .sleeping) ∧ BusAtRest s.lines)

end Sys2Proof.Machine
end

