-- ==== Sys2Proof/Certificates/Slice0/Obligations.lean ====
section
/-! DEFINITION. The statements for the provers. Each docstring names the rules it formalises; a statement that rests on a
choice of the model names the log entry. -/

open Sys2Proof Sys2Proof.Machine

/-! ### Power-on, configuration, the invariant -/

/-- 10_state.md R60: the state at power-on. -/
def Obligations.PowerOnState : Prop :=
  State.reset.lines = { clk := .unknown, din := .unknown, cs := .unknown, dc := .unknown, rst := .unknown } ∧
  State.reset.status = { result := 0, warn := 0, errLine := 0, errLevel := 0 } ∧
  State.reset.ghost = { pstate := .uninitialized, lutOk := false, protocolViolation := false, frameUndefined := true } ∧
  State.reset.trace = []

/-- The invariant of a machine that runs a host program holds at power-on. -/
def Obligations.ResetMeetsRunInvariant : Prop := HostRunInv State.reset

/-- Every step keeps the invariant of a machine that runs a host program: lines follow the trace, CLK and DC never rest
High, no reserved status value, the run ends exactly at an Err, the position counts the operations that returned Ok, and
after an INIT the bus is at rest between operations. -/
def Obligations.StepKeepsRunInvariant : Prop :=
  ∀ s t, HostRunInv s → step s = .next t → HostRunInv t

/-- 10_state.md R45: no operation writes the configuration record. -/
def Obligations.ConfigurationNeverChanges : Prop :=
  (∀ i s t, exec i s = .next t ∨ exec i s = .fault (.gpioNeverReturns t) → t.cfg = s.cfg) ∧
  (∀ s t, step s = .next t ∨ step s = .fault (.gpioNeverReturns t) → t.cfg = s.cfg)

/-- 00_scope.md R12 with log entry 5 (the model's choice of a refusal): a configuration that is not well formed has no
move. -/
def Obligations.IllFormedConfigurationIsRefused : Prop :=
  ∀ i s, s.cfg.wf = false → exec i s = .refused .illFormedConfig

/-! ### Words -/

/-- Decoding the word of a well-formed instruction gives the instruction back, with every operand at every value. The host
words are 30_encoding.md R104's; the operand bytes of the micro words and the wire words are the model's own layout, log
entries 8 and 9. -/
def Obligations.DecodeOfEncodeIsIdentity : Prop :=
  ∀ (c : Cfg) (i : Instr), i.wellFormed c = true → decode (spaceOf i) (encode i) = .ok i

/-- A word that decodes is the word of the instruction it decodes to: no two words of a code space mean the same. The host
words are 30_encoding.md R104's; the operand bytes of the micro words and the wire words are the model's own layout, log
entries 8 and 9. -/
def Obligations.DecodedWordsAreEncodings : Prop :=
  ∀ (space : Space) (word : List Byte) (i : Instr), decode space word = .ok i → spaceOf i = space ∧ encode i = word

/-- Four host words written out from the table of 30_encoding.md R104; two micro words, whose labels are R106's and whose
operand bytes are the model's choice, log entry 8; two wire words, which are the model's choice, log entry 9 (42_wire_commands.md
R189 and R196 give the frames that are emitted). -/
def Obligations.SampleWordsDecode : Prop :=
  decode .host [0x01, 0x07] = .ok (.init 7) ∧
  decode .host [0x03, 0x02, 0x00, 0x00, 0x00, 0xAA, 0x55] = .ok (.display [0xAA, 0x55]) ∧
  decode .host [0x05, 0x2C, 0x01, 0x05, 0x00, 0x00, 0x00, 0x03, 0x00] = .ok (.setWindow 300 5 0 3) ∧
  decode .host [0x06, 0x07, 0x00, 0x00, 0x01] = .ok (.setCursor 7 256) ∧
  decode .micro [0x80, 0xA5] = .ok (.writeByte 0xA5) ∧
  decode .micro [0x88, 0x01] = .ok (.lutLoad 1) ∧
  decode .wire [0x45, 0x00, 0x00, 0x68, 0x00] = .ok (.ramYWindow 0 104) ∧
  decode .wire [0x10] = .ok .deepSleep

/-- 30_encoding.md R130, R131, R104: a program that the textual syntax yields has one entry for each line that is not empty,
in order; the entry is a host word, and it decodes to the well-formed host operation, with the operands, that its line
names, if the named buffers fit DISPLAY's length field. A text whose lines all name operations yields a program. What R130
does not say of blanks, case, comments and two buffers of one name is log entry 19. -/
def Obligations.AssembledProgramsAreHostPrograms : Prop :=
  ∀ (c : Cfg) (buffers : List NamedBuffer) (text : List Char),
    (∀ program, (∀ b ∈ buffers, fitsLength32 b.bytes = true) → assemble c buffers text = some program →
      program.length = (operationLines text).length ∧
      ∀ (k : Nat) (line : List Char) (is : Issue), (operationLines text)[k]? = some line → program[k]? = some is →
        is.space = .host ∧ ∃ i op, decode .host is.word = .ok i ∧ hostOpOf i = some op ∧ i.wellFormed c = true ∧
          LineNames c buffers line i) ∧
    ((∀ line ∈ operationLines text, ∃ i, LineNames c buffers line i) → ∃ program, assemble c buffers text = some program)

/-- 30_encoding.md R121: a host word whose byte 0 is not in 0x01..0x07 is refused, the micro labels among them. -/
def Obligations.ForeignHostCodesAreRefused : Prop :=
  ∀ (s : State) (code : Byte) (operands : List Byte), s.host.runEnded = false →
    nextIssue s.host = some { space := .host, word := code :: operands } →
    code.toNat < 0x01 ∨ 0x07 < code.toNat →
    step s = .refused (.undecodable (.unknownCode .host code))

/-- 30_encoding.md R124 with the lengths of R104: a host word with too few or with trailing operand bytes is refused. -/
def Obligations.WrongLengthHostWordsAreRefused : Prop :=
  ∀ (s : State) (code : Byte) (operands : List Byte), s.host.runEnded = false →
    nextIssue s.host = some { space := .host, word := code :: operands } →
    (∀ n, hostOperandBytes code.toNat = some n →
      (operands.length < n → step s = .refused (.undecodable .tooFewBytes)) ∧
      (n < operands.length → step s = .refused (.undecodable .trailingBytes))) ∧
    (code = 0x03 → operands.length < 4 → step s = .refused (.undecodable .tooFewBytes)) ∧
    (∀ b0 b1 b2 b3 rest, code = 0x03 → operands = b0 :: b1 :: b2 :: b3 :: rest →
      (rest.length < le32 b0 b1 b2 b3 → step s = .refused (.undecodable .tooFewBytes)) ∧
      (le32 b0 b1 b2 b3 < rest.length → step s = .refused (.undecodable .trailingBytes)))

/-! ### Steps -/

/-- When the entry at the host's position decodes to a well-formed instruction, a step is that instruction's meaning, and
the position advances by one unless the run ended (10_state.md R52, R53, for host words). That the program may hold micro and
wire entries, and that the position moves past one as past a host operation, is the model's choice, log entry 7. -/
def Obligations.StepRunsDecodedInstruction : Prop :=
  ∀ (s : State) (space : Space) (word : List Byte) (i : Instr), s.host.runEnded = false →
    s.host.program[s.host.index]? = some { space := space, word := word } → decode space word = .ok i →
    i.wellFormed s.cfg = true →
    step s =
      (match exec i s with
        | .next t =>
          .next (if t.host.runEnded then t else { t with host := { t.host with index := t.host.index + 1 } })
        | .fault f => .fault f
        | .refused r => .refused r)

/-- 70_reset_and_hazards.md R352 with log entry 12 (the model's names of the two ends): a run that has ended takes no
step. -/
def Obligations.EndedRunsTakeNoStep : Prop :=
  (∀ s, s.host.runEnded = true → step s = .fault .runAborted) ∧
  (∀ s, s.host.runEnded = false → s.host.program.length ≤ s.host.index → step s = .fault .programExhausted)

/-- 10_state.md R53: the position advances by one when a host operation returns Ok, and an Err ends the run where it
stands. -/
def Obligations.ResultsMoveTheHostPosition : Prop :=
  ∀ (s t : State) (word : List Byte), nextIssue s.host = some { space := .host, word := word } → step s = .next t →
    t.host.program = s.host.program ∧
    ∃ r, t.host.revResults = r :: s.host.revResults ∧
      (r.raised = none → t.host.index = s.host.index + 1 ∧ t.host.runEnded = false) ∧
      (r.raised ≠ none → t.host.index = s.host.index ∧ t.host.runEnded = true)

/-! ### Transport and framer -/

/-- 40_transport.md R146, R147: WRITE_BYTE and WRITE_BYTES with no failing access put their bytes on the lines and change
nothing else but scratch registers. -/
def Obligations.TransportCompletes : Prop :=
  (∀ (v : Byte) (s : State), s.cfg.wf = true → answersOk 26 s.env.gpio = true →
    ∃ d, exec (.writeByte v) s = .next { emit (transportByte v) s with dp := d }) ∧
  (∀ (bytes : List Byte) (s : State), s.cfg.wf = true → answersOk (26 * bytes.length) s.env.gpio = true →
    ∃ d, exec (.writeBytes bytes) s = .next { emit (bytes.flatMap transportByte) s with dp := d })

/-- 40_transport.md R148: what a WRITE_BYTE with no failure shows on the lines. -/
def Obligations.WriteByteWaveform : Prop :=
  ∀ (v : Byte) (s : State), s.cfg.wf = true → answersOk 26 s.env.gpio = true → s.lines.clk ≠ .high →
    ∃ t es, exec (.writeByte v) s = .next t ∧ t.trace = s.trace ++ es ∧
      dinAtRises s.lines es = (List.range 8).map (fun j => if v.getLsbD (7 - j) then .high else .low) ∧
      csWrites es = [.low, .high] ∧ es.head? = some (.w .cs .low) ∧ es.getLast? = some (.w .cs .high) ∧
      t.lines.clk = .low

/-- 41_framer.md R161, R162, R163: the three framer operations with no failing access send one framed byte and change
nothing else but scratch registers. -/
def Obligations.FramedBytesComplete : Prop :=
  ∀ (v : Byte) (s : State), s.cfg.wf = true → answersOk 30 s.env.gpio = true →
    (∀ isCommand : Bool, ∃ d, exec (.sendDataInternal v isCommand) s
      = .next { emit (framedByte (if isCommand then .cmd else .data) v) s with dp := d }) ∧
    (∃ d, exec (.sendCmd v) s = .next { emit (framedByte .cmd v) s with dp := d }) ∧
    (∃ d, exec (.sendData v) s = .next { emit (framedByte .data v) s with dp := d })

/-- 30_encoding.md R101: the 30 writes of a framed byte, position by position (counted from 0 here), and DC Low from
position 3 to position 29. -/
def Obligations.FramedBytePositions : Prop :=
  ∀ (v : Byte) (isCommand : Bool) (s : State), s.cfg.wf = true → answersOk 30 s.env.gpio = true →
    ∃ t es, exec (.sendDataInternal v isCommand) s = .next t ∧ t.trace = s.trace ++ es ∧ es.length = 30 ∧
      es[0]? = some (.w .dc (if isCommand then .low else .high)) ∧ es[1]? = some (.w .dc .low) ∧
      es[2]? = some (.w .cs .low) ∧ es[3]? = some (.w .cs .low) ∧
      (∀ j, j < 8 → es[4 + 3 * j]? = some (.w .din (if v.getLsbD (7 - j) then .high else .low)) ∧
        es[5 + 3 * j]? = some (.w .clk .high) ∧ es[6 + 3 * j]? = some (.w .clk .low)) ∧
      es[28]? = some (.w .cs .high) ∧ es[29]? = some (.w .cs .high) ∧
      (∀ n, 3 ≤ n → n ≤ 29 → (linesAfter s.lines (es.take n)).dc = .low)

/-- 41_framer.md R165: CS goes Low once and back High once, the 8 clock pulses fall inside, and the roles differ in the
first DC write only. -/
def Obligations.FramedByteContract : Prop :=
  ∀ (v : Byte) (s : State), s.cfg.wf = true → answersOk 30 s.env.gpio = true → s.lines.clk ≠ .high →
    ∃ tc td rest, exec (.sendCmd v) s = .next tc ∧ exec (.sendData v) s = .next td ∧
      tc.trace = s.trace ++ .w .dc .low :: rest ∧ td.trace = s.trace ++ .w .dc .high :: rest ∧
      csChanges s.lines (.w .dc .low :: rest) = (if s.lines.cs = .low then [.high] else [.low, .high]) ∧
      csChanges s.lines (.w .dc .high :: rest) = (if s.lines.cs = .low then [.high] else [.low, .high]) ∧
      csAtRises s.lines (.w .dc .low :: rest) = List.replicate 8 .low ∧
      csAtRises s.lines (.w .dc .high :: rest) = List.replicate 8 .low

/-- 41_framer.md R160, 70_reset_and_hazards.md R356: at every rising clock edge DC is Low, whatever the answers of the
environment and the lines before. The two transport operations alone do not drive DC. -/
def Obligations.DcLowAtEveryClock : Prop :=
  ∀ (i : Instr) (s t : State), (∀ v, i ≠ .writeByte v) → (∀ bytes, i ≠ .writeBytes bytes) →
    exec i s = .next t ∨ exec i s = .fault (.gpioNeverReturns t) →
    ∃ es, t.trace = s.trace ++ es ∧ dcLowAtClocks s.lines es = true

/-- 70_reset_and_hazards.md R353: in every host operation DIN is not written while CLK is High, CS is not written while
CLK is High, DC is not written while CS is Low. For CS this is weaker than R353(b), which says that CLK is Low at a CS write of
a framed byte: here it is Low or Unknown. -/
def Obligations.LineOrderIsKept : Prop :=
  ∀ (i : Instr) (op : HostOp) (s t : State), hostOpOf i = some op → s.lines.clk ≠ .high → s.lines.cs ≠ .low →
    exec i s = .next t ∨ exec i s = .fault (.gpioNeverReturns t) →
    ∃ es, t.trace = s.trace ++ es ∧ lineOrderOk s.lines es = true

/-! ### Command frames -/

/-- 42_wire_commands.md R180 to R186: the seven register frames, each with no failure among its own accesses. -/
def Obligations.RegisterFramesComplete : Prop :=
  ∀ s : State, s.cfg.wf = true →
    (answersOk 120 s.env.gpio = true → ∃ d, exec .driverOutputControl s
      = .next { emit (eventsOf (cmdItems s.cfg.opDriverOutputControl
          [lo (s.cfg.height - 1), hi (s.cfg.height - 1), s.cfg.dScanDir])) s with dp := d }) ∧
    (answersOk 120 s.env.gpio = true → ∃ d, exec .boosterSoftStart s
      = .next { emit (eventsOf (cmdItems s.cfg.opBoosterSoftStart
          [s.cfg.dBooster0, s.cfg.dBooster1, s.cfg.dBooster2])) s with dp := d }) ∧
    (answersOk 60 s.env.gpio = true → ∃ d, exec .writeVcom s
      = .next { emit (eventsOf (cmdItems s.cfg.opWriteVcom [s.cfg.dVcom])) s with dp := d }) ∧
    (answersOk 60 s.env.gpio = true → ∃ d, exec .dummyLinePeriod s
      = .next { emit (eventsOf (cmdItems s.cfg.opDummyLinePeriod [s.cfg.dDummyLine])) s with dp := d }) ∧
    (answersOk 60 s.env.gpio = true → ∃ d, exec .gateTime s
      = .next { emit (eventsOf (cmdItems s.cfg.opGateTime [s.cfg.dGateTime])) s with dp := d }) ∧
    (answersOk 60 s.env.gpio = true → ∃ d, exec .borderWaveform s
      = .next { emit (eventsOf (cmdItems s.cfg.opBorderWaveform [s.cfg.dBorder])) s with dp := d }) ∧
    (answersOk 60 s.env.gpio = true → ∃ d, exec .dataEntryMode s
      = .next { emit (eventsOf (cmdItems s.cfg.opDataEntryMode [s.cfg.dDataEntry])) s with dp := d })

/-- 42_wire_commands.md R187: the WRITE_LUT frame of each decoded mode, with no failure among its own accesses. -/
def Obligations.LutFrameCompletes : Prop :=
  ∀ s : State, s.cfg.wf = true →
    (answersOk 930 s.env.gpio = true → ∃ d, exec (.writeLut .full) s
      = .next { emit (eventsOf (cmdItems s.cfg.opWriteLut s.cfg.lutFull)) s with dp := d }) ∧
    (answersOk 930 s.env.gpio = true → ∃ d, exec (.writeLut .partialRefresh) s
      = .next { emit (eventsOf (cmdItems s.cfg.opWriteLut s.cfg.lutPartial)) s with dp := d }) ∧
    (s.cfg.invalidModeSendsLutCmd = true → answersOk 30 s.env.gpio = true →
      ∃ d, exec (.writeLut .unrecognised) s = .next { emit (framedByte .cmd s.cfg.opWriteLut) s with dp := d }) ∧
    (s.cfg.invalidModeSendsLutCmd = false → ∃ d, exec (.writeLut .unrecognised) s = .next { s with dp := d })

/-- 42_wire_commands.md R188 to R191: the four window and cursor frames, each with no failure among its own accesses. -/
def Obligations.AddressFramesComplete : Prop :=
  ∀ (a b : Coord) (s : State), s.cfg.wf = true →
    (answersOk 90 s.env.gpio = true → ∃ d, exec (.ramXWindow a b) s
      = .next { emit (eventsOf (cmdItems s.cfg.opRamXWindow [xb a.toNat, xb b.toNat])) s with dp := d }) ∧
    (answersOk 150 s.env.gpio = true → ∃ d, exec (.ramYWindow a b) s
      = .next { emit (eventsOf (cmdItems s.cfg.opRamYWindow
          [lo a.toNat, hi a.toNat, lo b.toNat, hi b.toNat])) s with dp := d }) ∧
    (answersOk 60 s.env.gpio = true → ∃ d, exec (.ramXCounter a) s
      = .next { emit (eventsOf (cmdItems s.cfg.opRamXCounter [xb a.toNat])) s with dp := d }) ∧
    (answersOk 90 s.env.gpio = true → ∃ d, exec (.ramYCounter a) s
      = .next { emit (eventsOf (cmdItems s.cfg.opRamYCounter [lo a.toNat, hi a.toNat])) s with dp := d })

/-- 42_wire_commands.md R192 to R196: the remaining five frames, each with no failure among its own accesses. -/
def Obligations.RamAndControlFramesComplete : Prop :=
  ∀ s : State, s.cfg.wf = true →
    (∀ bytes : List Byte, answersOk (30 * (1 + bytes.length)) s.env.gpio = true → ∃ d, exec (.writeRam bytes) s
      = .next { emit (eventsOf (cmdItems s.cfg.opWriteRam bytes)) s with dp := d }) ∧
    (answersOk 60 s.env.gpio = true → ∃ d, exec .displayUpdateCtrl2 s
      = .next { emit (eventsOf (cmdItems s.cfg.opDisplayUpdateCtrl2 [s.cfg.dDuc2Mode])) s with dp := d }) ∧
    (answersOk 30 s.env.gpio = true → ∃ d, exec .masterActivation s
      = .next { emit (framedByte .cmd s.cfg.opMasterActivation) s with dp := d }) ∧
    (answersOk 30 s.env.gpio = true → ∃ d, exec .terminateFrameRw s
      = .next { emit (framedByte s.cfg.terminateKind s.cfg.opTerminateFrameRw) s with dp := d }) ∧
    (answersOk 60 s.env.gpio = true → ∃ d, exec .deepSleep s
      = .next { emit (eventsOf (cmdItems s.cfg.opDeepSleep [s.cfg.dDeepSleep])) s with dp := d })

/-! ### The sequencer's micro-operations -/

/-- 43_sequencer.md R220: CONFIGURE with no failing access. -/
def Obligations.ConfigureCompletes : Prop :=
  ∀ s : State, s.cfg.wf = true → answersOk 2 s.env.gpio = true →
    ∃ d, exec .configure s = .next { emit [.w .cs .high, .w .clk .low] s with
      dp := d, ghost := { s.ghost with pstate := .configured } }

/-- 43_sequencer.md R222: a RESET with no failure holds RST High, Low and High, each followed by a delay of at least
T_RESET_MS, and takes at least 3 T_RESET_MS, which is at least 600 ms. -/
def Obligations.ResetPulsesTheController : Prop :=
  ∀ s : State, s.cfg.wf = true → answersOk 3 s.env.gpio = true →
    ∃ d t, exec .reset s = .next t ∧
      t = { emit [.w .rst .high, .dly s.cfg.tResetMs, .w .rst .low, .dly s.cfg.tResetMs, .w .rst .high,
        .dly s.cfg.tResetMs] s with dp := d, ghost := { s.ghost with pstate := .reset } } ∧
      s.blockedMs + 3 * s.cfg.tResetMs ≤ t.blockedMs ∧ 600 ≤ 3 * s.cfg.tResetMs

/-- 43_sequencer.md R223, R224: REGISTER_LOAD with no failing access sends its seven frames in order. -/
def Obligations.RegisterLoadCompletes : Prop :=
  ∀ s : State, s.cfg.wf = true → answersOk 540 s.env.gpio = true →
    ∃ d, exec .registerLoad s = .next { emit (eventsOf (
        cmdItems s.cfg.opDriverOutputControl [lo (s.cfg.height - 1), hi (s.cfg.height - 1), s.cfg.dScanDir]
          ++ cmdItems s.cfg.opBoosterSoftStart [s.cfg.dBooster0, s.cfg.dBooster1, s.cfg.dBooster2]
          ++ cmdItems s.cfg.opWriteVcom [s.cfg.dVcom]
          ++ cmdItems s.cfg.opDummyLinePeriod [s.cfg.dDummyLine]
          ++ cmdItems s.cfg.opGateTime [s.cfg.dGateTime]
          ++ cmdItems s.cfg.opBorderWaveform [s.cfg.dBorder]
          ++ cmdItems s.cfg.opDataEntryMode [s.cfg.dDataEntry])) s with
      dp := d, ghost := { s.ghost with pstate := .registersLoaded } }

/-- 43_sequencer.md R225, R226: LUT_LOAD, for the two recognised modes and for any other, each with no failure among its own
accesses. That a code that is both MODE_FULL and MODE_PARTIAL reads as Full is the model's choice, log entry 24. -/
def Obligations.LutLoadCompletes : Prop :=
  ∀ (mode : Byte) (s : State), s.cfg.wf = true →
    (mode = s.cfg.modeFull → answersOk 930 s.env.gpio = true → ∃ d, exec (.lutLoad mode) s
      = .next { emit (eventsOf (cmdItems s.cfg.opWriteLut s.cfg.lutFull)) s with
          dp := d, ghost := { s.ghost with pstate := .lutLoaded, lutOk := true } }) ∧
    (mode ≠ s.cfg.modeFull → mode = s.cfg.modePartial → answersOk 930 s.env.gpio = true → ∃ d, exec (.lutLoad mode) s
      = .next { emit (eventsOf (cmdItems s.cfg.opWriteLut s.cfg.lutPartial)) s with
          dp := d, ghost := { s.ghost with pstate := .lutLoaded, lutOk := true } }) ∧
    (mode ≠ s.cfg.modeFull → mode ≠ s.cfg.modePartial →
      answersOk (if s.cfg.invalidModeSendsLutCmd then 30 else 0) s.env.gpio = true → ∃ d, exec (.lutLoad mode) s
      = .next { emit ((if s.cfg.invalidModeSendsLutCmd then framedByte .cmd s.cfg.opWriteLut else []) ++ [.warn 1]) s with
          dp := d, ghost := { s.ghost with pstate := .lutLoaded }, status := { s.status with warn := 1 } })

/-- 43_sequencer.md R237: BUSY_WAIT delays once under FixedDelay; under Poll it ends at the first read that is not the
active level, if that comes before the timeout. -/
def Obligations.BusyWaitCompletes : Prop :=
  (∀ s : State, s.cfg.wf = true → s.cfg.busyPolicy = .fixedDelay →
    ∃ d, exec .busyWait s = .next { emit [.dly s.cfg.tBusyMs] s with dp := d }) ∧
  (∀ (s : State) (k : Nat), s.cfg.wf = true → s.cfg.busyPolicy = .poll → k ≤ pollBound s.cfg →
    busyFor s.cfg.busyActiveLevel k s.env.busy = true →
    nextDraw (drawsAfter k s.env.busy) ≠ s.cfg.busyActiveLevel → answersOk (k + 1) s.env.gpio = true →
    ∃ d, exec .busyWait s = .next { emit (eventsOf (busyTurns s.cfg k)
      ++ [.rd (nextDraw (drawsAfter k s.env.busy))]) s with dp := d })

/-! ### Host operations that return Ok -/

/-- 43_sequencer.md R230: INIT with no failing access. -/
def Obligations.InitCompletes : Prop :=
  ∀ (mode : Byte) (s : State), s.cfg.wf = true →
    answersOk (accesses (eventsOf (initItems s.cfg mode))) s.env.gpio = true →
    ∃ d, exec (.init mode) s = .next (hostOk (.init mode) .init (eventsOf (initItems s.cfg mode)) d s)

/-- 43_sequencer.md R231, R232: SET_WINDOW and SET_CURSOR with no failing access; the wire order is xs, xe, ys, ye. -/
def Obligations.WindowAndCursorComplete : Prop :=
  (∀ (xs ys xe ye : Coord) (s : State), s.cfg.wf = true → answersOk 240 s.env.gpio = true →
    ∃ d, exec (.setWindow xs ys xe ye) s = .next (hostOk (.setWindow xs ys xe ye) .setWindow
      (eventsOf (cmdItems s.cfg.opRamXWindow [xb xs.toNat, xb xe.toNat]
        ++ cmdItems s.cfg.opRamYWindow [lo ys.toNat, hi ys.toNat, lo ye.toNat, hi ye.toNat])) d s)) ∧
  (∀ (x y : Coord) (s : State), s.cfg.wf = true → answersOk 150 s.env.gpio = true →
    ∃ d, exec (.setCursor x y) s = .next (hostOk (.setCursor x y) .setCursor
      (eventsOf (cmdItems s.cfg.opRamXCounter [xb x.toNat]
        ++ cmdItems s.cfg.opRamYCounter [lo y.toNat, hi y.toNat])) d s))

/-- 43_sequencer.md R233: TURNON_DISPLAY with no failing access and a busy wait that ends. -/
def Obligations.TurnonDisplayCompletes : Prop :=
  ∀ (s : State) (wait : List WireItem), s.cfg.wf = true → waitItems s.cfg s.env.busy = some wait →
    answersOk (120 + accesses (eventsOf wait)) s.env.gpio = true →
    ∃ d, exec .turnonDisplay s = .next (hostOk .turnonDisplay .turnonDisplay
      (eventsOf (cmdItems s.cfg.opDisplayUpdateCtrl2 [s.cfg.dDuc2Mode] ++ cmdItems s.cfg.opMasterActivation []
        ++ [.framed s.cfg.terminateKind s.cfg.opTerminateFrameRw] ++ wait)) d s)

/-- 43_sequencer.md R240: SLEEP with no failing access; no delay and no busy wait follows. -/
def Obligations.SleepCompletes : Prop :=
  ∀ s : State, s.cfg.wf = true → answersOk 60 s.env.gpio = true →
    ∃ d, exec .sleep s
      = .next (hostOk .sleep .sleep (eventsOf (cmdItems s.cfg.opDeepSleep [s.cfg.dDeepSleep])) d s)

/-- 44_streamer.md R270: STREAM_FRAME with no failing access and a busy wait that ends. -/
def Obligations.StreamFrameCompletes : Prop :=
  ∀ (src : Source) (s : State) (wait : List WireItem), s.cfg.wf = true → waitItems s.cfg s.env.busy = some wait →
    answersOk (accesses (eventsOf (frameItems s.cfg src)) + accesses (eventsOf wait)) s.env.gpio = true →
    ∃ d, exec (.streamFrame src) s = .next { emit (eventsOf (frameItems s.cfg src ++ wait)) s with dp := d }

/-- 44_streamer.md R275, R276: DISPLAY and CLEAR with no failing access and a busy wait that ends. -/
def Obligations.DisplayAndClearComplete : Prop :=
  ∀ (s : State) (wait : List WireItem), s.cfg.wf = true → waitItems s.cfg s.env.busy = some wait →
    (∀ buf : List Byte,
      answersOk (accesses (eventsOf (frameItems s.cfg (.buffer buf))) + accesses (eventsOf wait)) s.env.gpio = true →
      ∃ d, exec (.display buf) s
        = .next (hostOk (.display buf) .display (eventsOf (frameItems s.cfg (.buffer buf) ++ wait)) d s)) ∧
    (answersOk (accesses (eventsOf (frameItems s.cfg .const)) + accesses (eventsOf wait)) s.env.gpio = true →
      ∃ d, exec .clear s = .next (hostOk .clear .clear (eventsOf (frameItems s.cfg .const ++ wait)) d s))

/-! ### Aborts and stuck states -/

/-- 60_exceptions.md R305 with R300 and 40_transport.md R140, R141: a host operation whose first failing access is a GPIO
write is aborted there: every event before it has happened, F is the last event, nothing follows. -/
def Obligations.FailedWriteAborts : Prop :=
  ∀ (i : Instr) (op : HostOp) (s : State) (pre post : List Event) (l : OutLine) (v : Level),
    hostOpOf i = some op → s.cfg.wf = true → eventsOf (hostItems s.cfg i) = pre ++ .w l v :: post →
    answersOk (accesses pre) s.env.gpio = true → nextDraw (drawsAfter (accesses pre) s.env.gpio) = .fails →
    ∃ d, exec i s = .next (hostErr i op (.ioWrite l v) d (emit (pre ++ [.f l v]) s) s)

/-- 60_exceptions.md R301, R300 and 40_transport.md R143: under Poll, a busy wait aborts its operation at a read that
fails, and when BUSY still reads active after the timeout. That a failed read uses up one answer of the environment and no
level of BUSY is log entry 14. -/
def Obligations.BusyWaitAborts : Prop :=
  ∀ (i : Instr) (op : HostOp) (s : State), hostOpOf i = some op → waitsAtEnd op = true → s.cfg.wf = true →
    s.cfg.busyPolicy = .poll →
    (∀ k, k ≤ pollBound s.cfg → busyFor s.cfg.busyActiveLevel k s.env.busy = true →
      answersOk (accesses (eventsOf (hostItems s.cfg i)) + k) s.env.gpio = true →
      nextDraw (drawsAfter (accesses (eventsOf (hostItems s.cfg i)) + k) s.env.gpio) = .fails →
      ∃ d, exec i s = .next (hostErr i op .ioReadBusy d
        (useAnswer (emit (eventsOf (hostItems s.cfg i ++ busyTurns s.cfg k)) s)) s)) ∧
    (busyFor s.cfg.busyActiveLevel (pollBound s.cfg + 1) s.env.busy = true →
      answersOk (accesses (eventsOf (hostItems s.cfg i)) + (pollBound s.cfg + 1)) s.env.gpio = true →
      ∃ d, exec i s = .next (hostErr i op (.busyTimeout (pollBound s.cfg * s.cfg.tPollMs)) d
        (emit (eventsOf (hostItems s.cfg i ++ busyTurns s.cfg (pollBound s.cfg)
          ++ [.single (.rd s.cfg.busyActiveLevel)])) s) s))

/-- 40_transport.md R145, 60_exceptions.md R308 with log entry 2 (the stuck state is a named fault): an access that never
returns leaves the block waiting inside its operation, every event before it having happened, and the host without a
result. -/
def Obligations.NeverReturningAccessIsStuck : Prop :=
  ∀ (i : Instr) (op : HostOp) (s : State), hostOpOf i = some op → s.cfg.wf = true →
    (∀ pre post l v, eventsOf (hostItems s.cfg i) = pre ++ .w l v :: post →
      answersOk (accesses pre) s.env.gpio = true → nextDraw (drawsAfter (accesses pre) s.env.gpio) = .neverReturns →
      ∃ b, exec i s = .fault (.gpioNeverReturns b) ∧ b.trace = s.trace ++ pre ∧ b.lines = linesAfter s.lines pre ∧
        b.pos = .running op pre.length ∧ b.host = s.host) ∧
    (∀ k, waitsAtEnd op = true → s.cfg.busyPolicy = .poll → k ≤ pollBound s.cfg →
      busyFor s.cfg.busyActiveLevel k s.env.busy = true →
      answersOk (accesses (eventsOf (hostItems s.cfg i)) + k) s.env.gpio = true →
      nextDraw (drawsAfter (accesses (eventsOf (hostItems s.cfg i)) + k) s.env.gpio) = .neverReturns →
      ∃ b, exec i s = .fault (.gpioNeverReturns b) ∧
        b.trace = s.trace ++ eventsOf (hostItems s.cfg i ++ busyTurns s.cfg k) ∧
        b.lines = linesAfter s.lines (eventsOf (hostItems s.cfg i)) ∧
        b.pos = .running op (eventsOf (hostItems s.cfg i ++ busyTurns s.cfg k)).length ∧ b.host = s.host)

/-- 60_exceptions.md R303, R306: in a well-formed configuration a host operation returns Ok, is aborted by a failed write,
by a failed read of BUSY or by a busy timeout, or waits for ever at an access; there is no other outcome. That a failed read
uses up one answer of the environment (useAnswer) is log entry 14; that the wait for ever is a named fault is log entry 2. -/
def Obligations.HostOperationOutcomes : Prop :=
  ∀ (i : Instr) (op : HostOp) (s : State), hostOpOf i = some op → s.cfg.wf = true →
    (∃ d wait, (if waitsAtEnd op then waitItems s.cfg s.env.busy = some wait else wait = []) ∧
      exec i s = .next (hostOk i op (eventsOf (hostItems s.cfg i ++ wait)) d s)) ∨
    (∃ d pre post l v, eventsOf (hostItems s.cfg i) = pre ++ .w l v :: post ∧
      exec i s = .next (hostErr i op (.ioWrite l v) d (emit (pre ++ [.f l v]) s) s)) ∨
    (∃ d k, waitsAtEnd op = true ∧ s.cfg.busyPolicy = .poll ∧ k ≤ pollBound s.cfg ∧
      exec i s = .next (hostErr i op .ioReadBusy d
        (useAnswer (emit (eventsOf (hostItems s.cfg i ++ busyTurns s.cfg k)) s)) s)) ∨
    (∃ d, waitsAtEnd op = true ∧ s.cfg.busyPolicy = .poll ∧
      exec i s = .next (hostErr i op (.busyTimeout (pollBound s.cfg * s.cfg.tPollMs)) d
        (emit (eventsOf (hostItems s.cfg i ++ timeoutItems s.cfg)) s) s)) ∨
    (∃ b, exec i s = .fault (.gpioNeverReturns b))

/-- Log entries 10, 14 and 2 (the model's choices: 60_exceptions.md R305 speaks of host operations): a micro-operation or a
command frame that is run alone is aborted at a write that fails, and where it ends with a busy wait under Poll (BUSY_WAIT,
STREAM_FRAME; 43_sequencer.md R237) at a read of BUSY that fails and at the timeout; the host receives the Err. At an access
that never returns (40_transport.md R145) it waits, every event before it having happened. -/
def Obligations.InnerFailureAborts : Prop :=
  ∀ (i : Instr) (s : State), hostOpOf i = none → s.cfg.wf = true →
    (∀ (pre post : List Event) (l : OutLine) (v : Level), innerEvents s.cfg i = pre ++ .w l v :: post →
      answersOk (accesses pre) s.env.gpio = true →
      (nextDraw (drawsAfter (accesses pre) s.env.gpio) = .fails →
        ∃ d, exec i s = .next (innerErr (.ioWrite l v) d (emit (pre ++ [.f l v]) s) s)) ∧
      (nextDraw (drawsAfter (accesses pre) s.env.gpio) = .neverReturns →
        ∃ d, exec i s = .fault (.gpioNeverReturns { emit pre s with dp := d }))) ∧
    (∀ k, innerWaits i = true → s.cfg.busyPolicy = .poll → k ≤ pollBound s.cfg →
      busyFor s.cfg.busyActiveLevel k s.env.busy = true →
      answersOk (accesses (innerEvents s.cfg i) + k) s.env.gpio = true →
      (nextDraw (drawsAfter (accesses (innerEvents s.cfg i) + k) s.env.gpio) = .fails →
        ∃ d, exec i s = .next (innerErr .ioReadBusy d
          (useAnswer (emit (innerEvents s.cfg i ++ eventsOf (busyTurns s.cfg k)) s)) s)) ∧
      (nextDraw (drawsAfter (accesses (innerEvents s.cfg i) + k) s.env.gpio) = .neverReturns →
        ∃ d, exec i s = .fault (.gpioNeverReturns
          { emit (innerEvents s.cfg i ++ eventsOf (busyTurns s.cfg k)) s with dp := d }))) ∧
    (innerWaits i = true → s.cfg.busyPolicy = .poll →
      busyFor s.cfg.busyActiveLevel (pollBound s.cfg + 1) s.env.busy = true →
      answersOk (accesses (innerEvents s.cfg i) + (pollBound s.cfg + 1)) s.env.gpio = true →
      ∃ d, exec i s = .next (innerErr (.busyTimeout (pollBound s.cfg * s.cfg.tPollMs)) d
        (emit (innerEvents s.cfg i ++ eventsOf (busyTurns s.cfg (pollBound s.cfg)
          ++ [.single (.rd s.cfg.busyActiveLevel)])) s) s))

/-! ### The status record and the ghost flags -/

/-- 10_state.md R40: RESULT is 0 for Ok, 1 for an I/O failure, 2 for a busy timeout, which occurs only under Poll, and
never 3. -/
def Obligations.ResultEncoding : Prop :=
  ∀ (i : Instr) (op : HostOp) (s t : State), hostOpOf i = some op → exec i s = .next t →
    ∃ r, t.host.revResults = r :: s.host.revResults ∧ r.status = t.status ∧
      (r.raised = none → t.status.result = 0) ∧
      (∀ l v, r.raised = some (.ioWrite l v) → t.status.result = 1) ∧
      (r.raised = some .ioReadBusy → t.status.result = 1) ∧
      (∀ elapsed, r.raised = some (.busyTimeout elapsed) → t.status.result = 2 ∧ s.cfg.busyPolicy = .poll) ∧
      t.status.result ≠ 3

/-- 10_state.md R41: WARN is 1 after a host operation exactly when the operation emitted the warning, which only an INIT
with an unrecognised mode does; such an INIT that meets no failure returns RESULT = 0 and WARN = 1. -/
def Obligations.WarningFollowsTheInitMode : Prop :=
  ∀ (i : Instr) (op : HostOp) (s t : State), hostOpOf i = some op → exec i s = .next t →
    ∃ es r, t.trace = s.trace ++ es ∧ t.host.revResults = r :: s.host.revResults ∧
      (t.status.warn = 1 ↔ Event.warn 1 ∈ es) ∧ (t.status.warn = 0 ∨ t.status.warn = 1) ∧
      (t.status.warn = 1 → ∃ mode, i = .init mode ∧ mode ≠ s.cfg.modeFull ∧ mode ≠ s.cfg.modePartial) ∧
      (∀ mode, i = .init mode → mode ≠ s.cfg.modeFull → mode ≠ s.cfg.modePartial → r.raised = none →
        t.status.result = 0 ∧ t.status.warn = 1)

/-- 10_state.md R42: ERR_LINE and ERR_LEVEL are written only when IoError is raised, with the failing line and the
attempted level, 0 for a read; otherwise they keep their value. -/
def Obligations.ErrorFieldsNameTheFailure : Prop :=
  ∀ (i : Instr) (op : HostOp) (s t : State), hostOpOf i = some op → exec i s = .next t →
    ∃ r, t.host.revResults = r :: s.host.revResults ∧
      (∀ l v, r.raised = some (.ioWrite l v) →
        t.status.errLine = (match l with
          | .clk => 0
          | .din => 1
          | .cs => 2
          | .dc => 3
          | .rst => 4) ∧
        t.status.errLevel = (match v with
          | .low => 0
          | .high => 1)) ∧
      (r.raised = some .ioReadBusy → t.status.errLine = 5 ∧ t.status.errLevel = 0) ∧
      ((r.raised = none ∨ ∃ elapsed, r.raised = some (.busyTimeout elapsed)) →
        t.status.errLine = s.status.errLine ∧ t.status.errLevel = s.status.errLevel)

/-- 10_state.md R47: LUT_OK is true after an INIT that sent the LUT of a recognised mode, false after any other INIT and
in an INIT that waits for ever, and untouched by the other host operations. -/
def Obligations.LutOkRecordsTheUpload : Prop :=
  (∀ (i : Instr) (op : HostOp) (s t : State), hostOpOf i = some op → exec i s = .next t →
    ∃ r, t.host.revResults = r :: s.host.revResults ∧
      (∀ mode, i = .init mode →
        (t.ghost.lutOk = true ↔ r.raised = none ∧ (mode = s.cfg.modeFull ∨ mode = s.cfg.modePartial))) ∧
      ((∀ mode, i ≠ .init mode) → t.ghost.lutOk = s.ghost.lutOk)) ∧
  (∀ (mode : Byte) (s b : State), exec (.init mode) s = .fault (.gpioNeverReturns b) → b.ghost.lutOk = false)

/-- 10_state.md R49: FRAME_UNDEFINED is set at power-on and by every Err, cleared by a DISPLAY or CLEAR issued in Ready
that returns Ok, and otherwise unchanged. -/
def Obligations.FrameUndefinedFollowsTheFrames : Prop :=
  State.reset.ghost.frameUndefined = true ∧
  ∀ (i : Instr) (op : HostOp) (s t : State), hostOpOf i = some op → exec i s = .next t →
    ∃ r, t.host.revResults = r :: s.host.revResults ∧
      (r.raised ≠ none → t.ghost.frameUndefined = true) ∧
      (r.raised = none → op = .display ∨ op = .clear → s.ghost.pstate = .ready → t.ghost.frameUndefined = false) ∧
      (r.raised = none → ¬((op = .display ∨ op = .clear) ∧ s.ghost.pstate = .ready) →
        t.ghost.frameUndefined = s.ghost.frameUndefined)

/-- 10_state.md R48, 43_sequencer.md R246: PROTOCOL_VIOLATION is set when an operation other than INIT is issued outside
Ready, nothing clears it, and the block performs the operation anyway: its events and its result are the same whatever the
ghost state, and so are the events before an access that never returns, at which the flag is set already (log entry 2). -/
def Obligations.ViolationsAreRecordedNotRefused : Prop :=
  (∀ (i : Instr) (op : HostOp) (s t : State), hostOpOf i = some op → exec i s = .next t →
    (t.ghost.protocolViolation = true ↔
      s.ghost.protocolViolation = true ∨ (op ≠ .init ∧ s.ghost.pstate ≠ .ready)) ∧
    ∀ g : Ghost, ∃ t', exec i { s with ghost := g } = .next t' ∧ t'.trace = t.trace ∧ t'.status = t.status ∧
      t'.host = t.host) ∧
  (∀ (i : Instr) (op : HostOp) (s b : State), hostOpOf i = some op → exec i s = .fault (.gpioNeverReturns b) →
    (b.ghost.protocolViolation = true ↔
      s.ghost.protocolViolation = true ∨ (op ≠ .init ∧ s.ghost.pstate ≠ .ready)) ∧
    ∀ g : Ghost, ∃ b', exec i { s with ghost := g } = .fault (.gpioNeverReturns b') ∧ b'.trace = b.trace ∧
      b'.status = b.status ∧ b'.host = b.host ∧ b'.pos = b.pos) ∧
  (∀ (i : Instr) (s t : State), hostOpOf i = none → exec i s = .next t ∨ exec i s = .fault (.gpioNeverReturns t) →
    t.ghost.protocolViolation = s.ghost.protocolViolation)

/-- 43_sequencer.md R245: the table of PSTATE. -/
def Obligations.ProtocolStateTable : Prop :=
  ∀ (i : Instr) (op : HostOp) (s t : State), hostOpOf i = some op → exec i s = .next t →
    ∃ r, t.host.revResults = r :: s.host.revResults ∧
      (op = .init → t.ghost.pstate = if r.raised = none then .ready else .undefined) ∧
      (op = .sleep → s.ghost.pstate = .ready →
        t.ghost.pstate = if r.raised = none then .sleeping else .undefined) ∧
      (op ≠ .init → op ≠ .sleep → s.ghost.pstate = .ready → t.ghost.pstate = .ready) ∧
      (op ≠ .init → s.ghost.pstate ≠ .ready → t.ghost.pstate = s.ghost.pstate)

/-- 43_sequencer.md R247, for the five Ready-state operations, and 10_state.md R52, for INIT and SLEEP: the events of a host
operation and what it returns depend on its operands, the configuration and the draws only, never on earlier operations;
and where an access never returns (log entry 2), the events performed before it. -/
def Obligations.EventsIgnoreTheHistory : Prop :=
  ∀ (i : Instr) (op : HostOp) (s1 s2 : State), hostOpOf i = some op → s1.cfg = s2.cfg → s1.env = s2.env →
    (∀ t1, exec i s1 = .next t1 →
      ∃ t2 es r1 r2, exec i s2 = .next t2 ∧ t1.trace = s1.trace ++ es ∧ t2.trace = s2.trace ++ es ∧
        t1.host.revResults = r1 :: s1.host.revResults ∧ t2.host.revResults = r2 :: s2.host.revResults ∧
        r1.raised = r2.raised ∧ t1.env = t2.env) ∧
    (∀ b1, exec i s1 = .fault (.gpioNeverReturns b1) →
      ∃ b2 es, exec i s2 = .fault (.gpioNeverReturns b2) ∧ b1.trace = s1.trace ++ es ∧ b2.trace = s2.trace ++ es ∧
        b1.pos = .running op es.length ∧ b2.pos = .running op es.length ∧ b1.env = b2.env)

/-- 10_state.md R35: nothing outside the Reset sequence writes RST; a completed RESET or INIT leaves it High; before the
first Reset it is Unknown. -/
def Obligations.ResetLineIsResetsAlone : Prop :=
  State.reset.lines.rst = .unknown ∧
  (∀ (i : Instr) (s t : State), i ≠ .reset → (∀ mode, i ≠ .init mode) →
    exec i s = .next t ∨ exec i s = .fault (.gpioNeverReturns t) →
    ∃ es, t.trace = s.trace ++ es ∧ (∀ v, Event.w .rst v ∉ es ∧ Event.f .rst v ∉ es) ∧ t.lines.rst = s.lines.rst) ∧
  (∀ s : State, s.cfg.wf = true → answersOk 3 s.env.gpio = true →
    ∃ t, exec .reset s = .next t ∧ t.lines.rst = .high ∧
      t.trace = s.trace ++ [.w .rst .high, .dly s.cfg.tResetMs, .w .rst .low, .dly s.cfg.tResetMs, .w .rst .high,
        .dly s.cfg.tResetMs]) ∧
  (∀ (mode : Byte) (s t : State) (r : OpResult), exec (.init mode) s = .next t →
    t.host.revResults = r :: s.host.revResults → r.raised = none → t.lines.rst = .high)

/-- 20_memory.md R80, R73 and 10_state.md R38: whatever an instruction does, the trace only grows, every line holds what
the new events last wrote to it, and the program, its framebuffers and the host's position are untouched. The time clause,
delays alone and their drawn lengths, is the model's field blockedMs, log entries 13 and 23, and no rule's. That the state of
an access that never returns is carried at all, its hanging line at the level before the access, is log entry 2, which marks
that line unsafe. -/
def Obligations.TraceGrowsAndLinesFollow : Prop :=
  ∀ (i : Instr) (s t : State), exec i s = .next t ∨ exec i s = .fault (.gpioNeverReturns t) →
    ∃ es, t.trace = s.trace ++ es ∧ t.lines = linesAfter s.lines es ∧
      t.blockedMs = s.blockedMs + delayedMs s.env.late es ∧
      t.host.program = s.host.program ∧ t.host.index = s.host.index

/-! ### Time -/

/-- 70_reset_and_hazards.md R357: an INIT that returns Ok blocks its caller for at least 3 T_RESET_MS, which is at least
600 ms; TURNON_DISPLAY, DISPLAY and CLEAR block for at least T_BUSY_MS under FixedDelay. -/
def Obligations.OperationsBlockTheCaller : Prop :=
  ∀ (i : Instr) (op : HostOp) (s t : State) (r : OpResult), hostOpOf i = some op → exec i s = .next t →
    t.host.revResults = r :: s.host.revResults → r.raised = none →
    (op = .init → s.blockedMs + 3 * s.cfg.tResetMs ≤ t.blockedMs ∧ s.blockedMs + 600 ≤ t.blockedMs) ∧
    (op = .turnonDisplay ∨ op = .display ∨ op = .clear → s.cfg.busyPolicy = .fixedDelay →
      s.blockedMs + s.cfg.tBusyMs ≤ t.blockedMs)

/-- 43_sequencer.md R238: under Poll a busy wait that returns or times out reads BUSY at least once and at most
ceil(T_BUSY_TIMEOUT_MS / T_POLL_MS) + 1 times; under FixedDelay BUSY is never read. -/
def Obligations.PollReadsAreBounded : Prop :=
  ∀ (i : Instr) (op : HostOp) (s t : State), hostOpOf i = some op → exec i s = .next t →
    ∃ es r, t.trace = s.trace ++ es ∧ t.host.revResults = r :: s.host.revResults ∧
      busyReads es ≤ (s.cfg.tBusyTimeoutMs + s.cfg.tPollMs - 1) / s.cfg.tPollMs + 1 ∧
      (s.cfg.busyPolicy = .fixedDelay → busyReads es = 0) ∧
      (s.cfg.busyPolicy = .poll → waitsAtEnd op = true →
        (r.raised = none ∨ ∃ elapsed, r.raised = some (.busyTimeout elapsed)) → 1 ≤ busyReads es)

/-! ### Reading the trace back -/

/-- 30_encoding.md R126: the trace of a host operation that returned Ok, cut into groups of 30 writes as the rule says,
gives back the framed bytes and the single events the operation sent, and nothing is lost. The decoder's details are log
entry 18. -/
def Obligations.TraceDecodesToItems : Prop :=
  ∀ (i : Instr) (op : HostOp) (s t : State) (r : OpResult), hostOpOf i = some op → exec i s = .next t →
    t.host.revResults = r :: s.host.revResults → r.raised = none →
    ∃ es wait, t.trace = s.trace ++ es ∧
      (if waitsAtEnd op then waitItems s.cfg s.env.busy = some wait else wait = []) ∧
      decodeTrace es = hostItems s.cfg i ++ wait ∧ eventsOf (decodeTrace es) = es

/-- 30_encoding.md R120, R125, R116: read from the trace of a host operation, whether it returned Ok, was aborted, or waits for
ever at an access, every command frame has one of the 17 command bytes of the configuration. With distinct command bytes every
frame but the last has a data-byte count that the table gives its command, and so has the last one where the operation returned
Ok (an abort may cut the last frame short). Micro-operations run alone are not meant: SEND_CMD sends any byte. How a cut
framed byte is read is log entry 18. -/
def Obligations.FramesConformToTheTable : Prop :=
  ∀ (i : Instr) (op : HostOp) (s t : State), hostOpOf i = some op →
    exec i s = .next t ∨ exec i s = .fault (.gpioNeverReturns t) →
    ∃ es, t.trace = s.trace ++ es ∧
      (∀ f ∈ splitFrames (decodeTrace es), f.op ∈ s.cfg.opBytes) ∧
      (s.cfg.opsDistinct = true →
        (∀ f ∈ (splitFrames (decodeTrace es)).dropLast, frameConforms s.cfg f = true) ∧
        (∀ r, t.host.revResults = r :: s.host.revResults → r.raised = none →
          ∀ f ∈ splitFrames (decodeTrace es), frameConforms s.cfg f = true))

/-- 44_streamer.md R273: row y of a DISPLAY sends max(0, min(BW, L - y BW)) data bytes after its write-RAM command, every
row gets its cursor frames and its command, the data bytes in all are min(L, BW HEIGHT), and they are the buffer's first
bytes in order (R272). -/
def Obligations.DisplayRowsFollowTheBuffer : Prop :=
  ∀ (buf : List Byte) (s t : State) (r : OpResult), exec (.display buf) s = .next t →
    t.host.revResults = r :: s.host.revResults → r.raised = none →
    ∃ (es : List Event) (row : Nat → List Byte) (front back : List CommandFrame), t.trace = s.trace ++ es ∧
      splitFrames (decodeTrace es) = front ++ (List.range s.cfg.height).flatMap (fun y =>
        [{ op := s.cfg.opRamXCounter, data := [0] }, { op := s.cfg.opRamYCounter, data := [lo y, hi y] },
          { op := s.cfg.opWriteRam, data := row y }]) ++ back ∧
      front.length = 2 ∧ (back.length = 2 ∨ back.length = 3) ∧
      (∀ y, y < s.cfg.height → (row y).length = min (byteWidth s.cfg) (buf.length - y * byteWidth s.cfg)) ∧
      ((List.range s.cfg.height).flatMap row).length = min buf.length (byteWidth s.cfg * s.cfg.height) ∧
      (List.range s.cfg.height).flatMap row = buf.take (byteWidth s.cfg * s.cfg.height)

/-- 44_streamer.md R274: a frame has 12 + 6 HEIGHT + n framed bytes, n being BW HEIGHT for CLEAR and min(L, BW HEIGHT) for
DISPLAY, then its busy wait; it has 30 GPIO writes for each; 3444 for CLEAR and 2840 for a DISPLAY of 2204 bytes at the
reference geometry. -/
def Obligations.FrameByteCounts : Prop :=
  ∀ (i : Instr) (src : Source) (s t : State) (r : OpResult), (i = .clear ∧ src = .const) ∨
      (∃ buf, i = .display buf ∧ src = .buffer buf) →
    exec i s = .next t → t.host.revResults = r :: s.host.revResults → r.raised = none →
    ∃ es wait, t.trace = s.trace ++ es ∧ waitItems s.cfg s.env.busy = some wait ∧
      decodeTrace es = frameItems s.cfg src ++ wait ∧
      framedBytes (decodeTrace es) = 12 + 6 * s.cfg.height + frameDataBytes s.cfg src ∧
      gpioWrites es = 30 * framedBytes (decodeTrace es) ∧
      (s.cfg.width = 212 → s.cfg.height = 104 → src = .const →
        framedBytes (decodeTrace es) = 3444 ∧ gpioWrites es = 103320) ∧
      (∀ buf, s.cfg.width = 212 → s.cfg.height = 104 → src = .buffer buf → buf.length = 2204 →
        framedBytes (decodeTrace es) = 2840 ∧ gpioWrites es = 85200)

/-- 30_encoding.md R131(a): CLEAR does what a DISPLAY of BW HEIGHT bytes of 0xFF does: the same events, the same result,
the same flags; only scratch registers may differ. Where an access never returns (log entry 2) the two wait at the same access
after the same events, each inside its own operation. -/
def Obligations.ClearEqualsDisplayOnes : Prop :=
  ∀ s : State,
    (∀ t, exec .clear s = .next t → ∃ d,
      exec (.display (List.replicate (byteWidth s.cfg * s.cfg.height) 0xFF)) s = .next { t with dp := d }) ∧
    (∀ t, exec (.display (List.replicate (byteWidth s.cfg * s.cfg.height) 0xFF)) s = .next t → ∃ d,
      exec .clear s = .next { t with dp := d }) ∧
    (∀ b, exec .clear s = .fault (.gpioNeverReturns b) → ∃ d n, b.pos = .running .clear n ∧
      exec (.display (List.replicate (byteWidth s.cfg * s.cfg.height) 0xFF)) s
        = .fault (.gpioNeverReturns { b with dp := d, pos := .running .display n })) ∧
    (∀ b, exec (.display (List.replicate (byteWidth s.cfg * s.cfg.height) 0xFF)) s = .fault (.gpioNeverReturns b) →
      ∃ d n, b.pos = .running .display n ∧
        exec .clear s = .fault (.gpioNeverReturns { b with dp := d, pos := .running .clear n }))

/-- 44_streamer.md R277: two DISPLAYs of buffers of equal length, neither failing, have traces of the same length and the
same events but for levels of DIN, and their window, cursor and activation frames are identical. Under Poll the two waits
are taken to read the same levels, which are draws. -/
def Obligations.DisplaysDifferOnlyInDin : Prop :=
  ∀ (b1 b2 : List Byte) (s1 s2 t1 t2 : State) (r1 r2 : OpResult), b1.length = b2.length → s1.cfg = s2.cfg →
    waitItems s1.cfg s1.env.busy = waitItems s2.cfg s2.env.busy →
    exec (.display b1) s1 = .next t1 → exec (.display b2) s2 = .next t2 →
    t1.host.revResults = r1 :: s1.host.revResults → r1.raised = none →
    t2.host.revResults = r2 :: s2.host.revResults → r2.raised = none →
    ∃ e1 e2, t1.trace = s1.trace ++ e1 ∧ t2.trace = s2.trace ++ e2 ∧ e1.length = e2.length ∧
      (∀ p ∈ e1.zip e2, sameButDin p.1 p.2 = true) ∧
      (splitFrames (decodeTrace e1)).map (fun f => if f.op = s1.cfg.opWriteRam then { f with data := [] } else f)
        = (splitFrames (decodeTrace e2)).map (fun f => if f.op = s1.cfg.opWriteRam then { f with data := [] } else f)

/-- 30_encoding.md R110, R111: the byte-column of an x-coordinate, and the two bytes of a 16-bit quantity. -/
def Obligations.OperandBytes : Prop :=
  (∀ x : Coord, xb x.toNat = x.extractLsb' 3 8) ∧ (∀ x : Nat, (xb x).toNat = x / 8 % 256) ∧
  (∀ v : Nat, (lo v).toNat = v % 256 ∧ (hi v).toNat = v / 256 % 256) ∧
  (∀ v : Nat, v < 65536 → (lo v).toNat + 256 * (hi v).toNat = v)
end

