-- ==== Sys2Proof/Laws/State.lean ====
section
/-! SUPPORT. One lemma per field per update of State: what `recordEvent`, `emit`, `withScratch`, `startOp`, `returnOk`
and `abortOp` do to each field, so that no later proof unfolds a record update. -/

namespace Sys2Proof.Machine

/-! ### Lines -/

@[simp] theorem getLine_setLine_same (ls : Lines) (l : OutLine) (v : LineState) : getLine (setLine ls l v) l = v := by
  cases l <;> rfl

theorem getLine_setLine_other (ls : Lines) (l l' : OutLine) (v : LineState) (h : l ≠ l') :
    getLine (setLine ls l v) l' = getLine ls l' := by
  cases l <;> cases l' <;> first | rfl | exact absurd rfl h

/-! ### recordEvent -/

@[simp] theorem recordEvent_cfg (e f n) (s : State) : (recordEvent e f n s).cfg = s.cfg := rfl
@[simp] theorem recordEvent_lines (e f n) (s : State) : (recordEvent e f n s).lines = f s.lines := rfl
@[simp] theorem recordEvent_status (e f n) (s : State) : (recordEvent e f n s).status = s.status := rfl
@[simp] theorem recordEvent_dp (e f n) (s : State) : (recordEvent e f n s).dp = s.dp := rfl
@[simp] theorem recordEvent_ghost (e f n) (s : State) : (recordEvent e f n s).ghost = s.ghost := rfl
@[simp] theorem recordEvent_pos (e f n) (s : State) : (recordEvent e f n s).pos = advance s.pos := rfl
@[simp] theorem recordEvent_revTrace (e f n) (s : State) : (recordEvent e f n s).revTrace = e :: s.revTrace := rfl
@[simp] theorem recordEvent_blockedMs (e f n) (s : State) : (recordEvent e f n s).blockedMs = s.blockedMs + n := rfl
@[simp] theorem recordEvent_env (e f n) (s : State) : (recordEvent e f n s).env = s.env := rfl
@[simp] theorem recordEvent_host (e f n) (s : State) : (recordEvent e f n s).host = s.host := rfl

/-! ### emit -/

@[simp] theorem emit_cfg (es) (s : State) : (emit es s).cfg = s.cfg := rfl
@[simp] theorem emit_lines (es) (s : State) : (emit es s).lines = linesAfter s.lines es := rfl
@[simp] theorem emit_status (es) (s : State) : (emit es s).status = s.status := rfl
@[simp] theorem emit_dp (es) (s : State) : (emit es s).dp = s.dp := rfl
@[simp] theorem emit_ghost (es) (s : State) : (emit es s).ghost = s.ghost := rfl
@[simp] theorem emit_pos (es) (s : State) : (emit es s).pos = advanceBy es.length s.pos := rfl
@[simp] theorem emit_revTrace (es) (s : State) : (emit es s).revTrace = es.reverse ++ s.revTrace := rfl
@[simp] theorem emit_blockedMs (es) (s : State) :
    (emit es s).blockedMs = s.blockedMs + delayedMs s.env.late es := rfl
@[simp] theorem emit_env (es) (s : State) : (emit es s).env = envAfter s.env es := rfl
@[simp] theorem emit_host (es) (s : State) : (emit es s).host = s.host := rfl

@[simp] theorem emit_trace (es) (s : State) : (emit es s).trace = s.trace ++ es := by
  simp [State.trace]

/-! ### withScratch -/

@[simp] theorem withScratch_cfg (d) (s : State) : (withScratch d s).cfg = s.cfg := rfl
@[simp] theorem withScratch_lines (d) (s : State) : (withScratch d s).lines = s.lines := rfl
@[simp] theorem withScratch_status (d) (s : State) : (withScratch d s).status = s.status := rfl
@[simp] theorem withScratch_dp (d) (s : State) : (withScratch d s).dp = d := rfl
@[simp] theorem withScratch_ghost (d) (s : State) : (withScratch d s).ghost = s.ghost := rfl
@[simp] theorem withScratch_pos (d) (s : State) : (withScratch d s).pos = s.pos := rfl
@[simp] theorem withScratch_revTrace (d) (s : State) : (withScratch d s).revTrace = s.revTrace := rfl
@[simp] theorem withScratch_blockedMs (d) (s : State) : (withScratch d s).blockedMs = s.blockedMs := rfl
@[simp] theorem withScratch_env (d) (s : State) : (withScratch d s).env = s.env := rfl
@[simp] theorem withScratch_host (d) (s : State) : (withScratch d s).host = s.host := rfl
@[simp] theorem withScratch_trace (d) (s : State) : (withScratch d s).trace = s.trace := rfl
@[simp] theorem withScratch_same (s : State) : withScratch s.dp s = s := rfl
@[simp] theorem withScratch_withScratch (d d') (s : State) : withScratch d (withScratch d' s) = withScratch d s := rfl
@[simp] theorem emit_withScratch (es d) (s : State) : emit es (withScratch d s) = withScratch d (emit es s) := rfl

/-! ### startOp -/

@[simp] theorem startOp_cfg (op) (s : State) : (startOp op s).cfg = s.cfg := rfl
@[simp] theorem startOp_lines (op) (s : State) : (startOp op s).lines = s.lines := rfl
@[simp] theorem startOp_status (op) (s : State) : (startOp op s).status = statusOnStart s.status := rfl
@[simp] theorem startOp_dp (op) (s : State) : (startOp op s).dp = s.dp := rfl
@[simp] theorem startOp_pstate (op) (s : State) : (startOp op s).ghost.pstate = s.ghost.pstate := rfl
@[simp] theorem startOp_lutOk (op) (s : State) : (startOp op s).ghost.lutOk = s.ghost.lutOk := rfl
@[simp] theorem startOp_frameUndefined (op) (s : State) :
    (startOp op s).ghost.frameUndefined = s.ghost.frameUndefined := rfl
@[simp] theorem startOp_protocolViolation (op) (s : State) :
    (startOp op s).ghost.protocolViolation = (s.ghost.protocolViolation || !validIn op s.ghost.pstate) := rfl
@[simp] theorem startOp_pos (op) (s : State) : (startOp op s).pos = .running op 0 := rfl
@[simp] theorem startOp_revTrace (op) (s : State) : (startOp op s).revTrace = s.revTrace := rfl
@[simp] theorem startOp_trace (op) (s : State) : (startOp op s).trace = s.trace := rfl
@[simp] theorem startOp_blockedMs (op) (s : State) : (startOp op s).blockedMs = s.blockedMs := rfl
@[simp] theorem startOp_env (op) (s : State) : (startOp op s).env = s.env := rfl
@[simp] theorem startOp_host (op) (s : State) : (startOp op s).host = s.host := rfl

/-! ### returnOk -/

@[simp] theorem returnOk_cfg (s : State) : (returnOk s).cfg = s.cfg := rfl
@[simp] theorem returnOk_lines (s : State) : (returnOk s).lines = s.lines := rfl
@[simp] theorem returnOk_status (s : State) : (returnOk s).status = statusOnOk s.status := rfl
@[simp] theorem returnOk_dp (s : State) : (returnOk s).dp = s.dp := rfl
@[simp] theorem returnOk_ghost (s : State) : (returnOk s).ghost = s.ghost := rfl
@[simp] theorem returnOk_pos (s : State) : (returnOk s).pos = .idle := rfl
@[simp] theorem returnOk_revTrace (s : State) : (returnOk s).revTrace = s.revTrace := rfl
@[simp] theorem returnOk_trace (s : State) : (returnOk s).trace = s.trace := rfl
@[simp] theorem returnOk_blockedMs (s : State) : (returnOk s).blockedMs = s.blockedMs := rfl
@[simp] theorem returnOk_env (s : State) : (returnOk s).env = s.env := rfl
@[simp] theorem returnOk_program (s : State) : (returnOk s).host.program = s.host.program := rfl
@[simp] theorem returnOk_index (s : State) : (returnOk s).host.index = s.host.index := rfl
@[simp] theorem returnOk_revResults (s : State) :
    (returnOk s).host.revResults = { raised := none, status := statusOnOk s.status } :: s.host.revResults := rfl
@[simp] theorem returnOk_runEnded (s : State) : (returnOk s).host.runEnded = false := rfl

/-! ### abortOp -/

@[simp] theorem abortOp_cfg (e) (s : State) : (abortOp e s).cfg = s.cfg := rfl
@[simp] theorem abortOp_lines (e) (s : State) : (abortOp e s).lines = s.lines := rfl
@[simp] theorem abortOp_status (e) (s : State) : (abortOp e s).status = statusOnRaise e s.status := rfl
@[simp] theorem abortOp_dp (e) (s : State) : (abortOp e s).dp = s.dp := rfl
@[simp] theorem abortOp_pstate (e) (s : State) :
    (abortOp e s).ghost.pstate = pstateOnRaise s.pos s.ghost.pstate := rfl
@[simp] theorem abortOp_lutOk (e) (s : State) : (abortOp e s).ghost.lutOk = s.ghost.lutOk := rfl
@[simp] theorem abortOp_frameUndefined (e) (s : State) : (abortOp e s).ghost.frameUndefined = true := rfl
@[simp] theorem abortOp_protocolViolation (e) (s : State) :
    (abortOp e s).ghost.protocolViolation = s.ghost.protocolViolation := rfl
@[simp] theorem abortOp_pos (e) (s : State) : (abortOp e s).pos = .idle := rfl
@[simp] theorem abortOp_revTrace (e) (s : State) : (abortOp e s).revTrace = s.revTrace := rfl
@[simp] theorem abortOp_trace (e) (s : State) : (abortOp e s).trace = s.trace := rfl
@[simp] theorem abortOp_blockedMs (e) (s : State) : (abortOp e s).blockedMs = s.blockedMs := rfl
@[simp] theorem abortOp_env (e) (s : State) : (abortOp e s).env = s.env := rfl
@[simp] theorem abortOp_program (e) (s : State) : (abortOp e s).host.program = s.host.program := rfl
@[simp] theorem abortOp_index (e) (s : State) : (abortOp e s).host.index = s.host.index := rfl
@[simp] theorem abortOp_revResults (e) (s : State) :
    (abortOp e s).host.revResults = { raised := some e, status := statusOnRaise e s.status } :: s.host.revResults := rfl
@[simp] theorem abortOp_runEnded (e) (s : State) : (abortOp e s).host.runEnded = true := rfl

/-! ### Status records -/

@[simp] theorem statusOnOk_result (st) : (statusOnOk st).result = 0 := rfl
@[simp] theorem statusOnOk_warn (st) : (statusOnOk st).warn = st.warn := rfl
@[simp] theorem statusOnOk_errLine (st) : (statusOnOk st).errLine = st.errLine := rfl
@[simp] theorem statusOnOk_errLevel (st) : (statusOnOk st).errLevel = st.errLevel := rfl
@[simp] theorem statusOnStart_result (st) : (statusOnStart st).result = st.result := rfl
@[simp] theorem statusOnStart_warn (st) : (statusOnStart st).warn = 0 := rfl
@[simp] theorem statusOnStart_errLine (st) : (statusOnStart st).errLine = st.errLine := rfl
@[simp] theorem statusOnStart_errLevel (st) : (statusOnStart st).errLevel = st.errLevel := rfl
@[simp] theorem statusOnRaise_result (e st) : (statusOnRaise e st).result = resultCode e := by cases e <;> rfl
@[simp] theorem statusOnRaise_warn (e st) : (statusOnRaise e st).warn = st.warn := by cases e <;> rfl

/-- No raise produces a reserved status value, and none keeps one out that was there (30_encoding.md R123). -/
theorem statusOnRaise_noReserved (e : Raise) (st : Status) (h : noReservedStatus st = true) :
    noReservedStatus (statusOnRaise e st) = true := by
  cases e with
  | ioWrite l v => cases l <;> simp [noReservedStatus, statusOnRaise, resultCode, lineCode]
  | ioReadBusy => simp [noReservedStatus, statusOnRaise, resultCode, busyCode]
  | busyTimeout n =>
    simp only [noReservedStatus, Bool.and_eq_true, decide_eq_true_eq] at h
    have h6 := h.1.2
    have h7 := h.2
    simp [noReservedStatus, statusOnRaise, resultCode]
    exact ⟨decide_eq_true h6, decide_eq_true h7⟩

end Sys2Proof.Machine
end

