-- ==== Sys2Proof/Laws/Ops.lean ====
section
/-! SUPPORT. One lemma per shared operation that says everything it can do: sequencing, the GPIO primitives, the draws,
the event lists, the wrapper of an operation. -/

namespace Sys2Proof.Machine

/-! ### Sequencing -/

theorem seqOp_done {a b : Op} {s s' : State} (h : a s = .done s') : seqOp a b s = b s' := by simp [seqOp, h]

theorem seqOp_raised {a b : Op} {s s' : State} {e : Raise} (h : a s = .raised e s') :
    seqOp a b s = .raised e s' := by simp [seqOp, h]

theorem seqOp_stuck {a b : Op} {s s' : State} (h : a s = .stuck s') : seqOp a b s = .stuck s' := by simp [seqOp, h]

@[simp] theorem skip_apply (s : State) : skip s = .done s := rfl
@[simp] theorem inOrder_nil : inOrder [] = skip := rfl
@[simp] theorem inOrder_cons (a : Op) (as : List Op) : inOrder (a :: as) = seqOp a (inOrder as) := rfl

@[simp] theorem seqOp_skip (a : Op) : seqOp a skip = a := by
  funext s
  unfold seqOp
  cases a s <;> rfl

@[simp] theorem skip_seqOp (a : Op) : seqOp skip a = a := rfl

theorem seqOp_assoc (a b c : Op) : seqOp (seqOp a b) c = seqOp a (seqOp b c) := by
  funext s
  unfold seqOp
  cases a s <;> rfl

theorem inOrder_append (as bs : List Op) : inOrder (as ++ bs) = seqOp (inOrder as) (inOrder bs) := by
  induction as with
  | nil => rfl
  | cons a as ih => simp only [List.cons_append, inOrder_cons, ih, seqOp_assoc]

/-! ### Events -/

@[simp] theorem emit_nil (s : State) : emit [] s = s := by
  obtain ⟨cfg, lines, status, dp, ghost, pos, rev, ms, env, host⟩ := s
  cases pos <;> rfl

theorem advanceBy_add (m n : Nat) (p : Position) : advanceBy n (advanceBy m p) = advanceBy (m + n) p := by
  cases p <;> simp [advanceBy, Nat.add_assoc]

@[simp] theorem linesAfter_nil (ls : Lines) : linesAfter ls [] = ls := rfl
@[simp] theorem linesAfter_cons (ls : Lines) (e es) :
    linesAfter ls (e :: es) = linesAfter (lineEffect ls e) es := rfl
@[simp] theorem linesAfter_append (ls : Lines) (as bs) :
    linesAfter ls (as ++ bs) = linesAfter (linesAfter ls as) bs := by simp [linesAfter]
@[simp] theorem envAfter_nil (v : Env) : envAfter v [] = v := rfl
@[simp] theorem envAfter_cons (v : Env) (e es) : envAfter v (e :: es) = envAfter (envEffect v e) es := rfl
@[simp] theorem envAfter_append (v : Env) (as bs) : envAfter v (as ++ bs) = envAfter (envAfter v as) bs := by
  simp [envAfter]

theorem delayedMs_append (v : Env) (as bs : List Event) :
    delayedMs v.late (as ++ bs) = delayedMs v.late as + delayedMs (envAfter v as).late bs := by
  induction as generalizing v with
  | nil => simp [delayedMs]
  | cons e es ih =>
    have := ih (envEffect v e)
    cases e <;> (simp_all [delayedMs, envEffect]; try omega)

theorem emit_append (as bs : List Event) (s : State) : emit (as ++ bs) s = emit bs (emit as s) := by
  simp [emit, delayedMs_append, advanceBy_add, Nat.add_assoc]

theorem emit_cons (e : Event) (es : List Event) (s : State) : emit (e :: es) s = emit es (emit [e] s) :=
  emit_append [e] es s

@[simp] theorem accesses_nil : accesses [] = 0 := rfl
@[simp] theorem accesses_append (as bs : List Event) : accesses (as ++ bs) = accesses as + accesses bs := by
  simp [accesses]
theorem accesses_cons (e : Event) (es : List Event) :
    accesses (e :: es) = accesses es + (if isAccess e then 1 else 0) := by simp [accesses, List.countP_cons]

theorem drawsAfter_add {α : Type} (m n : Nat) (d : Draws α) :
    drawsAfter (m + n) d = drawsAfter n (drawsAfter m d) := by
  induction m generalizing d with
  | zero => simp [drawsAfter]
  | succ m ih => rw [Nat.succ_add]; exact ih _

theorem answersOk_add (m n : Nat) (d : Draws GpioAnswer) :
    answersOk (m + n) d = (answersOk m d && answersOk n (drawsAfter m d)) := by
  induction m generalizing d with
  | zero => simp [answersOk, drawsAfter]
  | succ m ih => rw [Nat.succ_add]; simp [answersOk, drawsAfter, ih, Bool.and_assoc]

theorem envAfter_gpio (v : Env) (es : List Event) : (envAfter v es).gpio = drawsAfter (accesses es) v.gpio := by
  induction es generalizing v with
  | nil => rfl
  | cons e es ih =>
    rw [envAfter_cons, ih]
    cases e <;> simp [accesses_cons, isAccess, envEffect, drawsAfter]

/-! ### The primitives -/

/-- A write whose access succeeds (40_transport.md R140). -/
theorem gpioWrite_ok {l : OutLine} {v : Level} {s : State} (h : nextDraw s.env.gpio = .ok) :
    gpioWrite l v s = .done (emit [.w l v] s) := by
  obtain ⟨cfg, lines, status, dp, ghost, pos, rev, ms, ⟨⟨pre, rest⟩, busy, late⟩, host⟩ := s
  simp only at h
  cases pos <;> simp [gpioWrite, gpioAccess, h, wroteLine, recordEvent, emit, lineEffect, envEffect, advance,
    advanceBy, delayedMs]

/-- A write whose access fails (40_transport.md R140, R141): the event F, the line Unknown, IoError. -/
theorem gpioWrite_fails {l : OutLine} {v : Level} {s : State} (h : nextDraw s.env.gpio = .fails) :
    gpioWrite l v s = .raised (.ioWrite l v) (emit [.f l v] s) := by
  obtain ⟨cfg, lines, status, dp, ghost, pos, rev, ms, ⟨⟨pre, rest⟩, busy, late⟩, host⟩ := s
  simp only at h
  cases pos <;> simp [gpioWrite, gpioAccess, h, failedLine, recordEvent, emit, lineEffect, envEffect, advance,
    advanceBy, delayedMs]

/-- A write that never returns (40_transport.md R145). -/
theorem gpioWrite_never {l : OutLine} {v : Level} {s : State} (h : nextDraw s.env.gpio = .neverReturns) :
    gpioWrite l v s = .stuck s := by
  obtain ⟨cfg, lines, status, dp, ghost, pos, rev, ms, ⟨⟨pre, rest⟩, busy, late⟩, host⟩ := s
  simp only at h
  simp [gpioWrite, gpioAccess, h]

/-- Everything a write can do. -/
theorem gpioWrite_cases (l : OutLine) (v : Level) (s : State) :
    (nextDraw s.env.gpio = .ok ∧ gpioWrite l v s = .done (emit [.w l v] s)) ∨
    (nextDraw s.env.gpio = .fails ∧ gpioWrite l v s = .raised (.ioWrite l v) (emit [.f l v] s)) ∨
    (nextDraw s.env.gpio = .neverReturns ∧ gpioWrite l v s = .stuck s) := by
  cases h : nextDraw s.env.gpio with
  | ok => exact .inl ⟨rfl, gpioWrite_ok h⟩
  | fails => exact .inr (.inl ⟨rfl, gpioWrite_fails h⟩)
  | neverReturns => exact .inr (.inr ⟨rfl, gpioWrite_never h⟩)

/-- Everything a read of BUSY can do (40_transport.md R143). -/
theorem gpioReadBusy_cases (k : Level → Op) (s : State) :
    (nextDraw s.env.gpio = .ok ∧
      gpioReadBusy k s = k (nextDraw s.env.busy) (emit [.rd (nextDraw s.env.busy)] s)) ∨
    (nextDraw s.env.gpio = .fails ∧
      gpioReadBusy k s = .raised .ioReadBusy { s with env := { s.env with gpio := laterDraws s.env.gpio } }) ∨
    (nextDraw s.env.gpio = .neverReturns ∧ gpioReadBusy k s = .stuck s) := by
  obtain ⟨cfg, lines, status, dp, ghost, pos, rev, ms, ⟨⟨pre, rest⟩, busy, late⟩, host⟩ := s
  cases h : nextDraw (⟨pre, rest⟩ : Draws GpioAnswer) <;> cases pos <;>
    simp [gpioReadBusy, gpioAccess, h, readBusy, recordEvent, emit, lineEffect, envEffect, advance,
      advanceBy, delayedMs]

/-- A delay (40_transport.md R144). -/
theorem delay_eq (ms : Nat) (s : State) : delay ms s = .done (emit [.dly ms] s) := by
  obtain ⟨cfg, lines, status, dp, ghost, pos, rev, n, env, host⟩ := s
  cases pos <;> simp [delay, recordEvent, emit, lineEffect, envEffect, advance, advanceBy, delayedMs]

/-- A warning (00_scope.md R15). -/
theorem warn_eq (code : Nat) (s : State) : warn code s = .done (emit [.warn code] s) := by
  obtain ⟨cfg, lines, status, dp, ghost, pos, rev, n, env, host⟩ := s
  cases pos <;> simp [warn, recordEvent, emit, lineEffect, envEffect, advance, advanceBy, delayedMs]

@[simp] theorem writeDp_eq (f) (s : State) : writeDp f s = .done (withScratch (f s.dp) s) := rfl
@[simp] theorem withDp_eq (f : Datapath → Op) (s : State) : withDp f s = f s.dp s := rfl
@[simp] theorem withCfg_eq (f : Cfg → Op) (s : State) : withCfg f s = f s.cfg s := rfl
@[simp] theorem writeGhost_eq (f) (s : State) : writeGhost f s = .done { s with ghost := f s.ghost } := rfl
@[simp] theorem setWarn_eq (s : State) : setWarn s = .done { s with status := { s.status with warn := 1 } } := rfl

/-! ### The wrapper of an operation -/

/-- Everything a host operation can answer. -/
theorem runHostOp_cases (op : HostOp) (body : Op) (s : State) :
    (s.cfg.wf = false ∧ runHostOp op body s = .refused .illFormedConfig) ∨
    (∃ s', body (startOp op s) = .done s' ∧ s.cfg.wf = true ∧ runHostOp op body s = .next (returnOk s')) ∨
    (∃ e s', body (startOp op s) = .raised e s' ∧ s.cfg.wf = true ∧ runHostOp op body s = .next (abortOp e s')) ∨
    (∃ s', body (startOp op s) = .stuck s' ∧ s.cfg.wf = true ∧
      runHostOp op body s = .fault (.gpioNeverReturns s')) := by
  unfold runHostOp
  cases hw : s.cfg.wf with
  | false => exact .inl ⟨rfl, by simp⟩
  | true =>
    cases hb : body (startOp op s) with
    | done s' => exact .inr (.inl ⟨s', rfl, rfl, by simp⟩)
    | raised e s' => exact .inr (.inr (.inl ⟨e, s', rfl, rfl, by simp⟩))
    | stuck s' => exact .inr (.inr (.inr ⟨s', rfl, rfl, by simp⟩))

/-- Everything an inner call run on its own can answer. -/
theorem runInner_cases (body : Op) (s : State) :
    (s.cfg.wf = false ∧ runInner body s = .refused .illFormedConfig) ∨
    (∃ s', body s = .done s' ∧ s.cfg.wf = true ∧ runInner body s = .next s') ∨
    (∃ e s', body s = .raised e s' ∧ s.cfg.wf = true ∧ runInner body s = .next (abortOp e s')) ∨
    (∃ s', body s = .stuck s' ∧ s.cfg.wf = true ∧ runInner body s = .fault (.gpioNeverReturns s')) := by
  unfold runInner
  cases hw : s.cfg.wf with
  | false => exact .inl ⟨rfl, by simp⟩
  | true =>
    cases hb : body s with
    | done s' => exact .inr (.inl ⟨s', rfl, rfl, by simp⟩)
    | raised e s' => exact .inr (.inr (.inl ⟨e, s', rfl, rfl, by simp⟩))
    | stuck s' => exact .inr (.inr (.inr ⟨s', rfl, rfl, by simp⟩))

end Sys2Proof.Machine
end

