-- ==== Sys2Proof/Laws/Replay.lean ====
section
/-! SUPPORT. What the block's operations do, said once: an operation of a rule, run against ANY answers of the
environment, does what playing its list of events does, the scratch registers apart (10_state.md R43). From one such lemma
per operation follow its completion, its failures at every access and its frame. -/

namespace Sys2Proof.Machine

/-- A result whose state has other scratch registers. -/
def resWithScratch (d : Datapath) : Res → Res
  | .done s => .done (withScratch d s)
  | .raised e s => .raised e (withScratch d s)
  | .stuck s => .stuck (withScratch d s)

@[simp] theorem resWithScratch_twice (d d' : Datapath) (r : Res) :
    resWithScratch d (resWithScratch d' r) = resWithScratch d r := by cases r <;> rfl

/-- In configuration `c`, the operation does what playing the events `es` does, the scratch registers apart. -/
def ReplaysAt (c : Cfg) (op : Op) (es : List Event) : Prop :=
  ∀ s : State, s.cfg = c → ∃ d, op s = resWithScratch d (replay es s)

/-! ### Playing events -/

@[simp] theorem replay_nil (s : State) : replay [] s = .done s := rfl
theorem replay_cons (e : Event) (es : List Event) : replay (e :: es) = seqOp (playEvent e) (replay es) := rfl
theorem replay_append (as bs : List Event) : replay (as ++ bs) = seqOp (replay as) (replay bs) := by
  simp [replay, inOrder_append]

/-- Whether an event can be planned: it is no failure and no read. -/
def isPlanned : Event → Bool
  | .w .. | .dly _ | .warn _ => true
  | .f .. | .rd _ => false

/-- A state with other scratch registers, ghost state and status record: nothing that an access or an event looks at. -/
def retouch (d : Datapath → Datapath) (g : Ghost → Ghost) (f : Status → Status) (s : State) : State :=
  { s with dp := d s.dp, ghost := g s.ghost, status := f s.status }

/-- A result with its state changed. -/
def resMap (t : State → State) : Res → Res
  | .done s => .done (t s)
  | .raised e s => .raised e (t s)
  | .stuck s => .stuck (t s)

theorem resMap_withScratch (d : Datapath) (r : Res) : resMap (withScratch d) r = resWithScratch d r := by
  cases r <;> rfl

theorem gpioWrite_retouch (l : OutLine) (v : Level) (d g f) (s : State) :
    gpioWrite l v (retouch d g f s) = resMap (retouch d g f) (gpioWrite l v s) := by
  rcases gpioWrite_cases l v s with ⟨h, e⟩ | ⟨h, e⟩ | ⟨h, e⟩
  · rw [e, gpioWrite_ok (show nextDraw (retouch d g f s).env.gpio = .ok from h)]; rfl
  · rw [e, gpioWrite_fails (show nextDraw (retouch d g f s).env.gpio = .fails from h)]; rfl
  · rw [e, gpioWrite_never (show nextDraw (retouch d g f s).env.gpio = .neverReturns from h)]; rfl

theorem playEvent_retouch (e : Event) (d g f) (s : State) :
    playEvent e (retouch d g f s) = resMap (retouch d g f) (playEvent e s) := by
  cases e with
  | w l v => exact gpioWrite_retouch l v d g f s
  | f l v => rfl
  | dly ms => simp only [playEvent, delay_eq, resMap]; rfl
  | rd b => rfl
  | warn n => simp only [playEvent, warn_eq, resMap]; rfl

/-- Playing events looks at no scratch register, ghost flag or status field, and leaves them as they are. -/
theorem replay_retouch (es : List Event) (d g f) : ∀ s : State,
    replay es (retouch d g f s) = resMap (retouch d g f) (replay es s) := by
  induction es with
  | nil => intro s; rfl
  | cons e es ih =>
    intro s
    rw [replay_cons]
    unfold seqOp
    rw [playEvent_retouch]
    cases playEvent e s with
    | done s' => exact ih s'
    | raised e s' => rfl
    | stuck s' => rfl

/-- Playing events does not depend on the scratch registers. -/
theorem replay_withScratch (es : List Event) (d : Datapath) (s : State) :
    replay es (withScratch d s) = resWithScratch d (replay es s) := by
  rw [← resMap_withScratch]
  exact replay_retouch es (fun _ => d) id id s

/-- The state a result ends in. -/
def resState : Res → State
  | .done s => s
  | .raised _ s => s
  | .stuck s => s

/-- Playing events leaves the configuration as it is. -/
theorem replay_cfg (es : List Event) : ∀ s : State, (resState (replay es s)).cfg = s.cfg := by
  induction es with
  | nil => intro s; rfl
  | cons e es ih =>
    intro s
    rw [replay_cons]
    cases e with
    | w l v =>
      rcases gpioWrite_cases l v s with ⟨_, e⟩ | ⟨_, e⟩ | ⟨_, e⟩
      · rw [seqOp_done (show playEvent (.w l v) s = _ from e), ih]; rfl
      · rw [seqOp_raised (show playEvent (.w l v) s = _ from e)]; rfl
      · rw [seqOp_stuck (show playEvent (.w l v) s = _ from e)]; rfl
    | f l v => exact ih s
    | dly ms => rw [seqOp_done (show playEvent (.dly ms) s = _ from delay_eq ms s), ih]; rfl
    | rd b => exact ih s
    | warn n => rw [seqOp_done (show playEvent (.warn n) s = _ from warn_eq n s), ih]; rfl

/-- Planned events whose accesses all succeed: the state after them. -/
theorem replay_ok (es : List Event) : ∀ s : State, es.all isPlanned = true →
    answersOk (accesses es) s.env.gpio = true → replay es s = .done (emit es s) := by
  induction es with
  | nil => intro s _ _; simp
  | cons e es ih =>
    intro s hp ha
    simp only [List.all_cons, Bool.and_eq_true] at hp
    rw [replay_cons, emit_cons]
    cases e with
    | w l v =>
      simp only [accesses_cons, isAccess, if_true, answersOk, Bool.and_eq_true, decide_eq_true_eq] at ha
      rw [seqOp_done (show playEvent (.w l v) s = _ from gpioWrite_ok ha.1)]
      exact ih _ hp.2 (by simpa [envEffect] using ha.2)
    | f l v => simp [isPlanned] at hp
    | dly ms =>
      rw [seqOp_done (show playEvent (.dly ms) s = _ from delay_eq ms s)]
      exact ih _ hp.2 (by simpa [accesses_cons, isAccess, envEffect] using ha)
    | rd b => simp [isPlanned] at hp
    | warn n =>
      rw [seqOp_done (show playEvent (.warn n) s = _ from warn_eq n s)]
      exact ih _ hp.2 (by simpa [accesses_cons, isAccess, envEffect] using ha)

/-- Planned events up to a write whose access fails. -/
theorem replay_fails (pre post : List Event) (l : OutLine) (v : Level) (s : State) (hp : pre.all isPlanned = true)
    (ha : answersOk (accesses pre) s.env.gpio = true)
    (hf : nextDraw (drawsAfter (accesses pre) s.env.gpio) = .fails) :
    replay (pre ++ .w l v :: post) s = .raised (.ioWrite l v) (emit (pre ++ [.f l v]) s) := by
  rw [replay_append, seqOp_done (replay_ok pre s hp ha), replay_cons, emit_append]
  exact seqOp_raised (gpioWrite_fails (by simpa [envAfter_gpio] using hf))

/-- Planned events up to a write that never returns. -/
theorem replay_never (pre post : List Event) (l : OutLine) (v : Level) (s : State) (hp : pre.all isPlanned = true)
    (ha : answersOk (accesses pre) s.env.gpio = true)
    (hf : nextDraw (drawsAfter (accesses pre) s.env.gpio) = .neverReturns) :
    replay (pre ++ .w l v :: post) s = .stuck (emit pre s) := by
  rw [replay_append, seqOp_done (replay_ok pre s hp ha), replay_cons]
  exact seqOp_stuck (gpioWrite_never (by simpa [envAfter_gpio] using hf))

/-- Everything that playing planned events can do: all of them happen, or they happen up to a write that fails or
never returns. -/
theorem replay_cases (es : List Event) : ∀ s : State, es.all isPlanned = true →
    (answersOk (accesses es) s.env.gpio = true ∧ replay es s = .done (emit es s)) ∨
    (∃ pre l v post, es = pre ++ .w l v :: post ∧ answersOk (accesses pre) s.env.gpio = true ∧
      nextDraw (drawsAfter (accesses pre) s.env.gpio) = .fails ∧
      replay es s = .raised (.ioWrite l v) (emit (pre ++ [.f l v]) s)) ∨
    (∃ pre l v post, es = pre ++ .w l v :: post ∧ answersOk (accesses pre) s.env.gpio = true ∧
      nextDraw (drawsAfter (accesses pre) s.env.gpio) = .neverReturns ∧ replay es s = .stuck (emit pre s)) := by
  induction es with
  | nil => intro s _; exact .inl ⟨rfl, by simp⟩
  | cons e es ih =>
    intro s hp
    have hp' := hp
    simp only [List.all_cons, Bool.and_eq_true] at hp'
    have onward : ∀ s1, playEvent e s = .done s1 → s1 = emit [e] s →
        answersOk (accesses [e]) s.env.gpio = true →
        (answersOk (accesses (e :: es)) s.env.gpio = true ∧ replay (e :: es) s = .done (emit (e :: es) s)) ∨
        (∃ pre l v post, e :: es = pre ++ .w l v :: post ∧ answersOk (accesses pre) s.env.gpio = true ∧
          nextDraw (drawsAfter (accesses pre) s.env.gpio) = .fails ∧
          replay (e :: es) s = .raised (.ioWrite l v) (emit (pre ++ [.f l v]) s)) ∨
        (∃ pre l v post, e :: es = pre ++ .w l v :: post ∧ answersOk (accesses pre) s.env.gpio = true ∧
          nextDraw (drawsAfter (accesses pre) s.env.gpio) = .neverReturns ∧
          replay (e :: es) s = .stuck (emit pre s)) := by
      intro s1 h1 hs hok
      subst hs
      rw [replay_cons, seqOp_done h1]
      have split : ∀ xs, answersOk (accesses (e :: xs)) s.env.gpio
          = answersOk (accesses xs) (emit [e] s).env.gpio := by
        intro xs
        have : accesses (e :: xs) = accesses [e] + accesses xs := accesses_append [e] xs
        rw [this, answersOk_add, hok, emit_env, envAfter_gpio]; rfl
      have onDraws : ∀ xs, drawsAfter (accesses (e :: xs)) s.env.gpio
          = drawsAfter (accesses xs) (emit [e] s).env.gpio := by
        intro xs
        have : accesses (e :: xs) = accesses [e] + accesses xs := accesses_append [e] xs
        rw [this, drawsAfter_add, emit_env, envAfter_gpio]
      rcases ih (emit [e] s) hp'.2 with ⟨ha, h⟩ | ⟨pre, l, v, post, he, ha, hf, h⟩ | ⟨pre, l, v, post, he, ha, hf, h⟩
      · exact .inl ⟨by rw [split]; exact ha, by rw [h, ← emit_cons]⟩
      · exact .inr (.inl ⟨e :: pre, l, v, post, by rw [he]; rfl, by rw [split]; exact ha, by rw [onDraws]; exact hf,
          by rw [h, ← emit_cons]; rfl⟩)
      · exact .inr (.inr ⟨e :: pre, l, v, post, by rw [he]; rfl, by rw [split]; exact ha, by rw [onDraws]; exact hf,
          by rw [h, ← emit_cons]⟩)
    cases e with
    | w l v =>
      rcases gpioWrite_cases l v s with ⟨h, he⟩ | ⟨h, he⟩ | ⟨h, he⟩
      · exact onward _ he rfl (by simp [accesses_cons, isAccess, answersOk, h])
      · exact .inr (.inl ⟨[], l, v, es, rfl, rfl, h, replay_fails [] es l v s rfl rfl h⟩)
      · exact .inr (.inr ⟨[], l, v, es, rfl, rfl, h, by simpa using replay_never [] es l v s rfl rfl h⟩)
    | f l v => simp [isPlanned] at hp
    | dly ms => exact onward _ (delay_eq ms s) rfl rfl
    | rd b => simp [isPlanned] at hp
    | warn n => exact onward _ (warn_eq n s) rfl rfl

/-! ### Building replays -/

theorem ReplaysAt.skip (c : Cfg) : ReplaysAt c skip [] := fun s _ => ⟨s.dp, rfl⟩

theorem ReplaysAt.writeDp (c : Cfg) (f : Datapath → Datapath) : ReplaysAt c (writeDp f) [] :=
  fun s _ => ⟨f s.dp, rfl⟩

theorem playEvent_replays (c : Cfg) (e : Event) : ReplaysAt c (playEvent e) [e] := by
  intro s _
  refine ⟨s.dp, ?_⟩
  rw [replay_cons]
  have h : ∀ r : Res, (resState r).dp = s.dp → r = resWithScratch s.dp r := by
    intro r hr
    cases r <;> (simp only [resState] at hr; simp only [resWithScratch, ← hr]; rfl)
  show _ = resWithScratch s.dp (seqOp (playEvent e) (inOrder []) s)
  rw [inOrder_nil, seqOp_skip]
  refine h _ ?_
  cases e with
  | w l v => rcases gpioWrite_cases l v s with ⟨_, e⟩ | ⟨_, e⟩ | ⟨_, e⟩ <;> rw [show playEvent (.w l v) s = _ from e] <;> rfl
  | f l v => rfl
  | dly ms => rw [show playEvent (.dly ms) s = _ from delay_eq ms s]; rfl
  | rd b => rfl
  | warn n => rw [show playEvent (.warn n) s = _ from warn_eq n s]; rfl

theorem ReplaysAt.gpioWrite (c : Cfg) (l : OutLine) (v : Level) : ReplaysAt c (gpioWrite l v) [.w l v] :=
  playEvent_replays c (.w l v)

theorem ReplaysAt.delay (c : Cfg) (ms : Nat) : ReplaysAt c (delay ms) [.dly ms] := playEvent_replays c (.dly ms)

theorem ReplaysAt.warn (c : Cfg) (n : Nat) : ReplaysAt c (warn n) [.warn n] := playEvent_replays c (.warn n)

theorem ReplaysAt.seqOp {c : Cfg} {a b : Op} {as bs : List Event} (ha : ReplaysAt c a as) (hb : ReplaysAt c b bs) :
    ReplaysAt c (seqOp a b) (as ++ bs) := by
  intro s hs
  obtain ⟨d, hd⟩ := ha s hs
  have hc := replay_cfg as s
  rw [replay_append]
  cases hr : replay as s with
  | done s1 =>
    rw [hr] at hd hc
    obtain ⟨d2, hd2⟩ := hb (withScratch d s1) (by simpa [resState, hs] using hc)
    refine ⟨d2, ?_⟩
    rw [seqOp_done hr, seqOp_done (show a s = .done (withScratch d s1) from hd), hd2, replay_withScratch]
    simp
  | raised e s1 =>
    rw [hr] at hd
    exact ⟨d, by rw [seqOp_raised hr, seqOp_raised (show a s = .raised e (withScratch d s1) from hd)]; rfl⟩
  | stuck s1 =>
    rw [hr] at hd
    exact ⟨d, by rw [seqOp_stuck hr, seqOp_stuck (show a s = .stuck (withScratch d s1) from hd)]; rfl⟩

theorem ReplaysAt.cons {c : Cfg} {a : Op} {as : List Op} {es fs : List Event} (ha : ReplaysAt c a es)
    (has : ReplaysAt c (inOrder as) fs) : ReplaysAt c (inOrder (a :: as)) (es ++ fs) := ha.seqOp has

theorem ReplaysAt.nil (c : Cfg) : ReplaysAt c (inOrder []) [] := ReplaysAt.skip c

theorem ReplaysAt.map {α : Type} {c : Cfg} (xs : List α) (f : α → Op) (g : α → List Event)
    (h : ∀ x ∈ xs, ReplaysAt c (f x) (g x)) : ReplaysAt c (inOrder (xs.map f)) (xs.flatMap g) := by
  induction xs with
  | nil => exact ReplaysAt.nil c
  | cons x xs ih =>
    simp only [List.map_cons, List.flatMap_cons]
    exact (h x (by simp)).cons (ih fun y hy => h y (by simp [hy]))

theorem ReplaysAt.forUpTo {c : Cfg} (n : Nat) (f : Nat → Op) (g : Nat → List Event)
    (h : ∀ i, i < n → ReplaysAt c (f i) (g i)) : ReplaysAt c (forUpTo n f) ((List.range n).flatMap g) :=
  ReplaysAt.map _ f g fun i hi => h i (List.mem_range.mp hi)

theorem ReplaysAt.withCfg {c : Cfg} {f : Cfg → Op} {es : List Event} (h : ReplaysAt c (f c) es) :
    ReplaysAt c (withCfg f) es := by
  intro s hs
  obtain ⟨d, hd⟩ := h s hs
  exact ⟨d, by rw [withCfg_eq, hs]; exact hd⟩

/-! ### The transport (40_transport.md) -/

/-- Bit slot j of the byte in SHIFT, which it leaves in SHIFT. -/
theorem sendBit_replays (v : Byte) (j : Nat) (s : State) (hv : s.dp.shift = v) :
    ∃ d, d.shift = v ∧ sendBit j s = resWithScratch d (replay (bitSlot (v.getLsbD (7 - j))) s) := by
  refine ⟨{ s.dp with bit := BitVec.ofNat 3 (7 - j) }, hv, ?_⟩
  have hb : (BitVec.ofNat 3 (7 - j)).toNat = 7 - j := by
    rw [BitVec.toNat_ofNat]; exact Nat.mod_eq_of_lt (by omega)
  have hset : setBit (7 - j) s = .done (withScratch { s.dp with bit := BitVec.ofNat 3 (7 - j) } s) := rfl
  rw [sendBit, inOrder_cons, seqOp_done hset, inOrder_cons, ← replay_withScratch]
  generalize hs' : withScratch { s.dp with bit := BitVec.ofNat 3 (7 - j) } s = s'
  have hdrive : driveBit s' = gpioWrite .din (bitLevel (v.getLsbD (7 - j))) s' := by
    subst hs'; simp [driveBit, hv, hb]
  show seqOp driveBit (inOrder [gpioWrite .clk .high, gpioWrite .clk .low]) s'
    = seqOp (gpioWrite .din (bitLevel (v.getLsbD (7 - j)))) (inOrder [gpioWrite .clk .high, gpioWrite .clk .low]) s'
  unfold seqOp
  rw [hdrive]

theorem sendBits_replay (v : Byte) (js : List Nat) : ∀ s : State, s.dp.shift = v →
    ∃ d, inOrder (js.map sendBit) s
      = resWithScratch d (replay (js.flatMap fun j => bitSlot (v.getLsbD (7 - j))) s) := by
  induction js with
  | nil => intro s _; exact ⟨s.dp, rfl⟩
  | cons j js ih =>
    intro s hv
    obtain ⟨d, hdv, hd⟩ := sendBit_replays v j s hv
    simp only [List.map_cons, inOrder_cons, List.flatMap_cons]
    rw [replay_append]
    cases hr : replay (bitSlot (v.getLsbD (7 - j))) s with
    | done s1 =>
      rw [hr] at hd
      obtain ⟨d2, hd2⟩ := ih (withScratch d s1) hdv
      refine ⟨d2, ?_⟩
      rw [seqOp_done hr, seqOp_done (show sendBit j s = .done (withScratch d s1) from hd), hd2, replay_withScratch]
      simp
    | raised e s1 =>
      rw [hr] at hd
      exact ⟨d, by rw [seqOp_raised hr, seqOp_raised (show sendBit j s = .raised e (withScratch d s1) from hd)]; rfl⟩
    | stuck s1 =>
      rw [hr] at hd
      exact ⟨d, by rw [seqOp_stuck hr, seqOp_stuck (show sendBit j s = .stuck (withScratch d s1) from hd)]; rfl⟩

/-- WRITE_BYTE (40_transport.md R146). -/
theorem writeByte_replays (c : Cfg) (v : Byte) : ReplaysAt c (writeByte v) (transportByte v) := by
  intro s hs
  have hset : setShift v s = .done (withScratch { s.dp with shift := v } s) := rfl
  rw [writeByte, inOrder_cons, seqOp_done hset]
  have key : ∀ s' : State, s'.dp.shift = v → s'.cfg = c →
      ∃ d, inOrder [gpioWrite .cs .low, forUpTo 8 sendBit, gpioWrite .cs .high] s'
        = resWithScratch d (replay (transportByte v) s') := by
    intro s' hv hc
    rw [inOrder_cons, transportByte, replay_cons]
    rcases gpioWrite_cases .cs .low s' with ⟨_, h⟩ | ⟨_, h⟩ | ⟨_, h⟩
    · rw [seqOp_done h, seqOp_done (show playEvent (.w .cs .low) s' = _ from h), inOrder_cons, replay_append]
      obtain ⟨d, hd⟩ := sendBits_replay v (List.range 8) (emit [.w .cs .low] s') hv
      have hd' : forUpTo 8 sendBit (emit [.w .cs .low] s') = resWithScratch d (replay (byteSlots v) (emit [.w .cs .low] s')) := hd
      cases hr : replay (byteSlots v) (emit [.w .cs .low] s') with
      | done s1 =>
        rw [hr] at hd'
        obtain ⟨d2, hd2⟩ := ((ReplaysAt.gpioWrite (withScratch d s1).cfg .cs .high).cons (ReplaysAt.nil _)) (withScratch d s1) rfl
        refine ⟨d2, ?_⟩
        rw [seqOp_done hr, seqOp_done (show forUpTo 8 sendBit _ = .done (withScratch d s1) from hd'), hd2,
          List.append_nil, replay_withScratch]
        simp
      | raised e s1 =>
        rw [hr] at hd'
        exact ⟨d, by rw [seqOp_raised hr, seqOp_raised (show forUpTo 8 sendBit _ = .raised e (withScratch d s1) from hd')]; rfl⟩
      | stuck s1 =>
        rw [hr] at hd'
        exact ⟨d, by rw [seqOp_stuck hr, seqOp_stuck (show forUpTo 8 sendBit _ = .stuck (withScratch d s1) from hd')]; rfl⟩
    · exact ⟨s'.dp, by rw [seqOp_raised h, seqOp_raised (show playEvent (.w .cs .low) s' = _ from h)]; rfl⟩
    · exact ⟨s'.dp, by rw [seqOp_stuck h, seqOp_stuck (show playEvent (.w .cs .low) s' = _ from h)]; rfl⟩
  obtain ⟨d, hd⟩ := key (withScratch { s.dp with shift := v } s) rfl hs
  exact ⟨d, by rw [hd, replay_withScratch]; simp⟩

/-- WRITE_BYTES (40_transport.md R147). -/
theorem writeBytes_replays (c : Cfg) (s : List Byte) : ReplaysAt c (writeBytes s) (s.flatMap transportByte) :=
  ReplaysAt.map s writeByte transportByte fun v _ => writeByte_replays c v

/-! ### The framer (41_framer.md) -/

/-- SEND_DATA_INTERNAL (41_framer.md R163). -/
theorem sendDataInternal_replays (c : Cfg) (v : Byte) (isCommand : Bool) :
    ReplaysAt c (sendDataInternal v isCommand) (framedByte (roleOf isCommand) v) := by
  have h := (ReplaysAt.gpioWrite c .dc (roleLevel (roleOf isCommand))).cons ((ReplaysAt.gpioWrite c .dc .low).cons
    ((ReplaysAt.gpioWrite c .cs .low).cons ((writeByte_replays c v).cons
      ((ReplaysAt.gpioWrite c .cs .high).cons (ReplaysAt.nil c)))))
  exact h

theorem sendCmd_replays (c : Cfg) (v : Byte) : ReplaysAt c (sendCmd v) (framedByte .cmd v) :=
  sendDataInternal_replays c v true

theorem sendData_replays (c : Cfg) (v : Byte) : ReplaysAt c (sendData v) (framedByte .data v) :=
  sendDataInternal_replays c v false

/-! ### Command frames (42_wire_commands.md) -/

@[simp] theorem eventsOf_nil : eventsOf [] = [] := rfl
@[simp] theorem eventsOf_cons (i : WireItem) (is : List WireItem) :
    eventsOf (i :: is) = itemEvents i ++ eventsOf is := by simp [eventsOf]
@[simp] theorem eventsOf_append (as bs : List WireItem) : eventsOf (as ++ bs) = eventsOf as ++ eventsOf bs := by
  simp [eventsOf]
theorem eventsOf_flatMap {α : Type} (xs : List α) (f : α → List WireItem) :
    eventsOf (xs.flatMap f) = xs.flatMap fun x => eventsOf (f x) := by
  induction xs with
  | nil => rfl
  | cons x xs ih => simp [ih]

theorem eventsOf_data (ds : List Byte) :
    eventsOf (ds.map (WireItem.framed .data)) = ds.flatMap (framedByte .data) := by
  induction ds with
  | nil => rfl
  | cons d ds ih => simp [itemEvents, ih]

theorem cmdFrame_replays (c : Cfg) (op : Byte) (ds : List Byte) :
    ReplaysAt c (cmdFrame op ds) (eventsOf (cmdItems op ds)) := by
  rw [cmdItems, eventsOf_cons, eventsOf_data]
  exact (sendCmd_replays c op).cons (ReplaysAt.map ds sendData (framedByte .data) fun v _ => sendData_replays c v)

theorem driverOutputControl_replays (c : Cfg) :
    ReplaysAt c driverOutputControl (eventsOf (cmdItems c.opDriverOutputControl [lo (heightOperand c), hi (heightOperand c), c.dScanDir])) :=
  ReplaysAt.withCfg (cmdFrame_replays c _ _)

theorem boosterSoftStart_replays (c : Cfg) :
    ReplaysAt c boosterSoftStart (eventsOf (cmdItems c.opBoosterSoftStart [c.dBooster0, c.dBooster1, c.dBooster2])) :=
  ReplaysAt.withCfg (cmdFrame_replays c _ _)

theorem writeVcom_replays (c : Cfg) :
    ReplaysAt c writeVcom (eventsOf (cmdItems c.opWriteVcom [c.dVcom])) :=
  ReplaysAt.withCfg (cmdFrame_replays c _ _)

theorem dummyLinePeriod_replays (c : Cfg) :
    ReplaysAt c dummyLinePeriod (eventsOf (cmdItems c.opDummyLinePeriod [c.dDummyLine])) :=
  ReplaysAt.withCfg (cmdFrame_replays c _ _)

theorem gateTime_replays (c : Cfg) :
    ReplaysAt c gateTime (eventsOf (cmdItems c.opGateTime [c.dGateTime])) :=
  ReplaysAt.withCfg (cmdFrame_replays c _ _)

theorem borderWaveform_replays (c : Cfg) :
    ReplaysAt c borderWaveform (eventsOf (cmdItems c.opBorderWaveform [c.dBorder])) :=
  ReplaysAt.withCfg (cmdFrame_replays c _ _)

theorem dataEntryMode_replays (c : Cfg) :
    ReplaysAt c dataEntryMode (eventsOf (cmdItems c.opDataEntryMode [c.dDataEntry])) :=
  ReplaysAt.withCfg (cmdFrame_replays c _ _)

theorem ramXWindow_replays (c : Cfg) (xs xe : Nat) :
    ReplaysAt c (ramXWindow xs xe) (eventsOf (cmdItems c.opRamXWindow [xb xs, xb xe])) :=
  ReplaysAt.withCfg (cmdFrame_replays c _ _)

theorem ramYWindow_replays (c : Cfg) (ys ye : Nat) :
    ReplaysAt c (ramYWindow ys ye) (eventsOf (cmdItems c.opRamYWindow [lo ys, hi ys, lo ye, hi ye])) :=
  ReplaysAt.withCfg (cmdFrame_replays c _ _)

theorem ramXCounter_replays (c : Cfg) (x : Nat) :
    ReplaysAt c (ramXCounter x) (eventsOf (cmdItems c.opRamXCounter [xb x])) :=
  ReplaysAt.withCfg (cmdFrame_replays c _ _)

theorem ramYCounter_replays (c : Cfg) (y : Nat) :
    ReplaysAt c (ramYCounter y) (eventsOf (cmdItems c.opRamYCounter [lo y, hi y])) :=
  ReplaysAt.withCfg (cmdFrame_replays c _ _)

theorem writeRam_replays (c : Cfg) (bytes : List Byte) :
    ReplaysAt c (writeRam bytes) (eventsOf (cmdItems c.opWriteRam bytes)) :=
  ReplaysAt.withCfg (cmdFrame_replays c _ _)

theorem displayUpdateCtrl2_replays (c : Cfg) :
    ReplaysAt c displayUpdateCtrl2 (eventsOf (cmdItems c.opDisplayUpdateCtrl2 [c.dDuc2Mode])) :=
  ReplaysAt.withCfg (cmdFrame_replays c _ _)

theorem masterActivation_replays (c : Cfg) :
    ReplaysAt c masterActivation (eventsOf (cmdItems c.opMasterActivation [])) :=
  ReplaysAt.withCfg (cmdFrame_replays c _ _)

theorem deepSleep_replays (c : Cfg) :
    ReplaysAt c deepSleep (eventsOf (cmdItems c.opDeepSleep [c.dDeepSleep])) :=
  ReplaysAt.withCfg (cmdFrame_replays c _ _)

theorem terminateFrameRw_replays (c : Cfg) :
    ReplaysAt c terminateFrameRw (eventsOf [.framed c.terminateKind c.opTerminateFrameRw]) := by
  apply ReplaysAt.withCfg
  cases h : c.terminateKind with
  | cmd => simpa [itemEvents, h] using sendCmd_replays c c.opTerminateFrameRw
  | data => simpa [itemEvents, h] using sendData_replays c c.opTerminateFrameRw

/-- Reading a list of `n` entries by index gives the list. -/
theorem map_range_getD (xs : List Byte) (n : Nat) (h : xs.length = n) :
    (List.range n).map (fun k => xs.getD k 0) = xs := by
  subst h
  apply List.ext_getElem
  · simp
  · intro i h1 h2
    simp at h1
    simp [List.getD_eq_getElem?_getD, h2]

/-- The lengths of the LUT tables in a well-formed configuration (00_scope.md R12). -/
theorem wf_lut_lengths {c : Cfg} (h : c.wf = true) : c.lutFull.length = 30 ∧ c.lutPartial.length = 30 := by
  simp only [Cfg.wf, Bool.and_eq_true, decide_eq_true_eq] at h
  obtain ⟨⟨⟨⟨_, hl⟩, hf⟩, hp⟩, _⟩ := h.1
  exact ⟨hf.trans hl, hp.trans hl⟩

theorem writeLut_replays (c : Cfg) (hw : c.wf = true) (m : RefreshMode) :
    ReplaysAt c (writeLut m) (eventsOf (writeLutItems c m)) := by
  apply ReplaysAt.withCfg
  obtain ⟨hf, hp⟩ := wf_lut_lengths hw
  have h1 : (List.range 30).map (lut c .full) = c.lutFull := map_range_getD c.lutFull 30 hf
  have h2 : (List.range 30).map (lut c .partialRefresh) = c.lutPartial := map_range_getD c.lutPartial 30 hp
  cases m with
  | full =>
    show ReplaysAt c (cmdFrame c.opWriteLut ((List.range 30).map (lut c .full))) _
    rw [h1]
    exact cmdFrame_replays c _ _
  | partialRefresh =>
    show ReplaysAt c (cmdFrame c.opWriteLut ((List.range 30).map (lut c .partialRefresh))) _
    rw [h2]
    exact cmdFrame_replays c _ _
  | unrecognised =>
    cases hi : c.invalidModeSendsLutCmd with
    | true => simpa [writeLutItems, hi] using cmdFrame_replays c c.opWriteLut []
    | false => simpa [writeLutItems, hi] using ReplaysAt.skip c

/-! ### The bodies that change no status and no ghost flag (43_sequencer.md, 44_streamer.md) -/

theorem ReplaysAt.last {c : Cfg} {a : Op} {es : List Event} (h : ReplaysAt c a es) : ReplaysAt c (inOrder [a]) es := by
  rwa [show inOrder [a] = a from seqOp_skip a]

theorem setWindowBody_replays (c : Cfg) (xs ys xe ye : Nat) :
    ReplaysAt c (setWindowBody xs ys xe ye) (eventsOf (setWindowItems c xs ys xe ye)) := by
  rw [setWindowItems, eventsOf_append]
  exact (ramXWindow_replays c xs xe).cons (ramYWindow_replays c ys ye).last

theorem setCursorBody_replays (c : Cfg) (x y : Nat) :
    ReplaysAt c (setCursorBody x y) (eventsOf (setCursorItems c x y)) := by
  rw [setCursorItems, eventsOf_append]
  exact (ramXCounter_replays c x).cons (ramYCounter_replays c y).last

/-- The activation bytes, before the busy wait. -/
theorem activation_replays (c : Cfg) :
    ReplaysAt c (inOrder [displayUpdateCtrl2, masterActivation, terminateFrameRw]) (eventsOf (activationItems c)) := by
  rw [activationItems, eventsOf_append, eventsOf_append, List.append_assoc]
  exact (displayUpdateCtrl2_replays c).cons ((masterActivation_replays c).cons (terminateFrameRw_replays c).last)

/-- One framed byte of role DATA, or nothing. -/
def optionalData : Option Byte → List Event
  | some b => framedByte .data b
  | none => []

theorem flatMap_optionalData (xs : List Nat) (f : Nat → Option Byte) :
    xs.flatMap (fun i => optionalData (f i)) = (xs.filterMap f).flatMap (framedByte .data) := by
  induction xs with
  | nil => rfl
  | cons x xs ih =>
    rw [List.flatMap_cons, ih]
    cases h : f x with
    | none => rw [List.filterMap_cons_none h]; rfl
    | some b => rw [List.filterMap_cons_some h]; rfl

/-- Row y of a buffer, byte-column by byte-column (44_streamer.md R272, R273). -/
theorem filterMap_memRead (buf : List Byte) (start n : Nat) :
    (List.range n).filterMap (fun i => memRead buf (i + start)) = (buf.drop start).take n := by
  induction n with
  | zero => simp
  | succ n ih =>
    rw [List.range_succ, List.filterMap_append, ih]
    rw [List.take_add_one, List.getElem?_drop]
    congr 1
    simp only [List.filterMap_cons, List.filterMap_nil, memRead, Nat.add_comm n start]
    cases buf[start + n]? <;> rfl

/-- The byte that byte-column i of row y sends (44_streamer.md R272). -/
def columnByte (c : Cfg) (src : Source) (y i : Nat) : Option Byte :=
  match src with
  | .const => some clearPattern
  | .buffer buf => memRead buf (flatIndex c y i)

theorem rowBytes_eq (c : Cfg) (src : Source) (y : Nat) :
    (List.range (byteWidth c)).filterMap (columnByte c src y) = rowBytes c src y := by
  cases src with
  | const =>
    have h : columnByte c .const y = fun _ => some clearPattern := rfl
    rw [h, rowBytes]
    generalize byteWidth c = n
    induction n with
    | zero => rfl
    | succ n ih =>
      rw [List.range_succ, List.filterMap_append, ih, List.replicate_succ']
      rfl
  | buffer buf => exact filterMap_memRead buf (y * byteWidth c) (byteWidth c)

/-- In a well-formed geometry a flat index fits IDX (44_streamer.md R271). -/
theorem flatIndex_lt {c : Cfg} (hw : c.wf = true) {y i : Nat} (hy : y < c.height) (hi : i < byteWidth c) :
    flatIndex c y i < 2 ^ 24 := by
  simp only [Cfg.wf, Bool.and_eq_true, decide_eq_true_eq] at hw
  obtain ⟨⟨⟨⟨⟨⟨⟨⟨_, hW⟩, _⟩, hH⟩, _⟩, _⟩, _⟩, _⟩, _⟩ := hw
  have hbw : byteWidth c ≤ 256 := by unfold byteWidth; omega
  unfold flatIndex
  have h1 : y * byteWidth c ≤ 65535 * byteWidth c := Nat.mul_le_mul_right _ (by omega)
  have h2 : 65535 * byteWidth c + byteWidth c ≤ 65536 * 256 := by omega
  omega

theorem streamColumn_replays (c : Cfg) (hw : c.wf = true) (src : Source) (y i : Nat) (hy : y < c.height)
    (hi : i < byteWidth c) : ReplaysAt c (streamColumn src c y i) (optionalData (columnByte c src y i)) := by
  have hidx : (BitVec.ofNat 32 (flatIndex c y i)).toNat = flatIndex c y i := by
    rw [BitVec.toNat_ofNat]
    exact Nat.mod_eq_of_lt (lt_trans (flatIndex_lt hw hy hi) (by norm_num))
  intro s hs
  have h1 : setCol i s = .done (withScratch { s.dp with col := BitVec.ofNat 9 i } s) := rfl
  rw [streamColumn, inOrder_cons, seqOp_done h1]
  generalize hs1 : withScratch { s.dp with col := BitVec.ofNat 9 i } s = s1
  have h2 : setIdx (flatIndex c y i) s1
      = .done (withScratch { s1.dp with idx := BitVec.ofNat 32 (flatIndex c y i) } s1) := rfl
  rw [inOrder_cons, seqOp_done h2, inOrder_cons, inOrder_nil, seqOp_skip]
  generalize hs2 : withScratch { s1.dp with idx := BitVec.ofNat 32 (flatIndex c y i) } s1 = s2
  have hc2 : s2.cfg = c := by subst hs2 hs1; exact hs
  have hback : ∀ es, ∃ d, replay es s2 = resWithScratch d (replay es s) := by
    intro es
    subst hs2 hs1
    exact ⟨_, by rw [withScratch_withScratch, replay_withScratch]⟩
  have hstream : ∃ d, streamByte src s2 = resWithScratch d (replay (optionalData (columnByte c src y i)) s2) := by
    cases src with
    | const => exact sendData_replays c clearPattern s2 hc2
    | buffer buf =>
      have hd : s2.dp.idx.toNat = flatIndex c y i := by subst hs2; exact hidx
      have hread : streamByte (.buffer buf) s2
          = (match memRead buf (flatIndex c y i) with
            | some b => sendData b
            | none => skip) s2 := by
        cases hm : memRead buf (flatIndex c y i) <;> simp only [streamByte, withDp_eq, hd, hm]
      rw [hread]
      show ∃ d, _ = resWithScratch d (replay (optionalData (memRead buf (flatIndex c y i))) s2)
      cases memRead buf (flatIndex c y i) with
      | none => exact ReplaysAt.skip c s2 hc2
      | some b => exact sendData_replays c b s2 hc2
  obtain ⟨d, hd⟩ := hstream
  obtain ⟨d2, hd2⟩ := hback (optionalData (columnByte c src y i))
  exact ⟨d, by rw [hd, hd2]; simp⟩

theorem streamRow_replays (c : Cfg) (hw : c.wf = true) (src : Source) (y : Nat) (hy : y < c.height) :
    ReplaysAt c (streamRow src c y) (eventsOf (rowItems c src y)) := by
  have hcols := ReplaysAt.forUpTo (byteWidth c) (streamColumn src c y)
    (fun i => optionalData (columnByte c src y i)) (fun i hi => streamColumn_replays c hw src y i hy hi)
  rw [flatMap_optionalData, rowBytes_eq] at hcols
  have hset : ReplaysAt c (setRow y) [] := ReplaysAt.writeDp c _
  have h := hset.cons ((ramXCounter_replays c 0).cons ((ramYCounter_replays c y).cons
    ((sendCmd_replays c c.opWriteRam).cons hcols.last)))
  rw [rowItems, setCursorItems, eventsOf_append, eventsOf_append]
  rw [show cmdItems c.opWriteRam (rowBytes c src y)
    = .framed .cmd c.opWriteRam :: (rowBytes c src y).map (.framed .data) from rfl, eventsOf_cons, eventsOf_data]
  simp only [List.nil_append, List.append_assoc] at h ⊢
  exact h

/-- STREAM_FRAME before its busy wait (44_streamer.md R270). -/
def frameSend (src : Source) (c : Cfg) : Op :=
  inOrder [ramXWindow 0 c.width, ramYWindow 0 c.height, forUpTo c.height (streamRow src c), displayUpdateCtrl2,
    masterActivation, terminateFrameRw]

theorem streamFrame_eq (src : Source) (s : State) :
    streamFrame src s = seqOp (frameSend src s.cfg) busyWait s := by
  rw [streamFrame, withCfg_eq]
  have h := congrFun (inOrder_append [ramXWindow 0 s.cfg.width, ramYWindow 0 s.cfg.height,
    forUpTo s.cfg.height (streamRow src s.cfg), displayUpdateCtrl2, masterActivation, terminateFrameRw] [busyWait]) s
  rw [show inOrder [busyWait] = busyWait from seqOp_skip busyWait] at h
  exact h

theorem frameSend_replays (c : Cfg) (hw : c.wf = true) (src : Source) :
    ReplaysAt c (frameSend src c) (eventsOf (frameItems c src)) := by
  have hrows := ReplaysAt.forUpTo c.height (streamRow src c) (fun y => eventsOf (rowItems c src y))
    (fun y hy => streamRow_replays c hw src y hy)
  rw [← eventsOf_flatMap] at hrows
  have h := (ramXWindow_replays c 0 c.width).cons ((ramYWindow_replays c 0 c.height).cons
    (hrows.cons (activation_replays c)))
  rw [frameItems, setWindowItems]
  simp only [eventsOf_append, List.append_assoc] at h ⊢
  exact h

end Sys2Proof.Machine
end

