-- ==== Sys2Proof/Laws/Wait.lean ====
section
/-! SUPPORT. What BUSY_WAIT does under both policies (43_sequencer.md R237, R238). -/

namespace Sys2Proof.Machine

/-- FixedDelay: one delay, BUSY is not read (R237). -/
theorem busyWait_fixed {s : State} (h : s.cfg.busyPolicy = .fixedDelay) :
    busyWait s = .done (emit (eventsOf (fixedWaitItems s.cfg)) s) := by
  rw [busyWait, withCfg_eq, h]
  exact delay_eq _ _

theorem busyWait_poll {s : State} (h : s.cfg.busyPolicy = .poll) :
    busyWait s = pollLoop s.cfg (pollBound s.cfg) 0 s := by
  rw [busyWait, withCfg_eq, h]

/-- The polls that remain when `elapsed` milliseconds have been counted: the least n with elapsed + n*P at or above the
timeout. -/
def PollsLeft (c : Cfg) (n elapsed : Nat) : Prop :=
  c.tBusyTimeoutMs ≤ elapsed + n * c.tPollMs ∧ ∀ j, j < n → elapsed + j * c.tPollMs < c.tBusyTimeoutMs

theorem pollsLeft_start {c : Cfg} (hp : 1 ≤ c.tPollMs) : PollsLeft c (pollBound c) 0 := by
  unfold PollsLeft pollBound
  have hd := Nat.div_add_mod (c.tBusyTimeoutMs + c.tPollMs - 1) c.tPollMs
  have hm := Nat.mod_lt (c.tBusyTimeoutMs + c.tPollMs - 1) (show c.tPollMs > 0 by omega)
  generalize (c.tBusyTimeoutMs + c.tPollMs - 1) / c.tPollMs = q at *
  rw [Nat.mul_comm] at hd
  refine ⟨by omega, fun j hj => ?_⟩
  have h1 : (j + 1) * c.tPollMs ≤ q * c.tPollMs := Nat.mul_le_mul_right _ hj
  rw [Nat.add_mul] at h1
  omega

theorem pollsLeft_next {c : Cfg} {n elapsed : Nat} (h : PollsLeft c (n + 1) elapsed) :
    PollsLeft c n (elapsed + c.tPollMs) := by
  refine ⟨by have := h.1; rw [Nat.add_mul] at this; omega, fun j hj => ?_⟩
  have := h.2 (j + 1) (by omega)
  rw [Nat.add_mul] at this
  omega

theorem pollWaitItems_zero (c : Cfg) (b : Level) : pollWaitItems c 0 b = [.single (.rd b)] := rfl

theorem pollWaitItems_succ (c : Cfg) (k : Nat) (b : Level) : pollWaitItems c (k + 1) b
    = .single (.rd c.busyActiveLevel) :: .single (.dly c.tPollMs) :: pollWaitItems c k b := by
  simp [pollWaitItems, List.range_succ_eq_map, List.flatMap_map]

theorem gpioReadBusy_ok {k : Level → Op} {s : State} (h : nextDraw s.env.gpio = .ok) :
    gpioReadBusy k s = k (nextDraw s.env.busy) (emit [.rd (nextDraw s.env.busy)] s) := by
  rcases gpioReadBusy_cases k s with ⟨_, e⟩ | ⟨h', _⟩ | ⟨h', _⟩
  · exact e
  · rw [h] at h'; cases h'
  · rw [h] at h'; cases h'

/-- One turn of the loop that finds the controller busy before the timeout. -/
theorem pollLoop_busy {c : Cfg} {n elapsed : Nat} {s : State} (hg : nextDraw s.env.gpio = .ok)
    (hb : nextDraw s.env.busy = c.busyActiveLevel) (ht : elapsed < c.tBusyTimeoutMs) :
    pollLoop c (n + 1) elapsed s
      = pollLoop c n (elapsed + c.tPollMs) (emit [.rd c.busyActiveLevel, .dly c.tPollMs] s) := by
  rw [pollLoop, gpioReadBusy_ok hg, hb]
  simp only [ne_eq, not_true_eq_false, if_false, Nat.not_le.mpr ht]
  rw [seqOp_done (delay_eq _ _), ← emit_append]
  rfl

theorem answersOk_afterPoll {c : Cfg} {n : Nat} {s : State} (h : answersOk (n + 1 + 1) s.env.gpio = true) :
    answersOk (n + 1) (emit [.rd c.busyActiveLevel, .dly c.tPollMs] s).env.gpio = true := by
  have h' : (decide (nextDraw s.env.gpio = .ok) && answersOk (n + 1) (laterDraws s.env.gpio)) = true := h
  rw [Bool.and_eq_true] at h'
  exact h'.2

/-- The loop ends at the first read that is not busy (R237). -/
theorem pollLoop_idle (c : Cfg) (n : Nat) : ∀ (elapsed : Nat) (s : State) (k : Nat) (b : Level),
    PollsLeft c n elapsed → firstIdle c.busyActiveLevel n s.env.busy = some (k, b) →
    answersOk (k + 1) s.env.gpio = true →
    pollLoop c n elapsed s = .done (emit (eventsOf (pollWaitItems c k b)) s) := by
  induction n with
  | zero =>
    intro elapsed s k b _ hf ha
    simp only [firstIdle] at hf
    split at hf
    · rename_i hne
      obtain ⟨rfl, rfl⟩ : (0 = k ∧ nextDraw s.env.busy = b) := by simpa using hf
      have hg : nextDraw s.env.gpio = .ok := by simpa [answersOk] using ha
      rw [pollLoop, gpioReadBusy_ok hg, if_pos hne]
      rfl
    · cases hf
  | succ n ih =>
    intro elapsed s k b hl hf ha
    have hg : nextDraw s.env.gpio = .ok := by
      simp only [answersOk, Bool.and_eq_true, decide_eq_true_eq] at ha
      exact ha.1
    simp only [firstIdle] at hf
    split at hf
    · rename_i hne
      obtain ⟨rfl, rfl⟩ : (0 = k ∧ nextDraw s.env.busy = b) := by simpa using hf
      rw [pollLoop, gpioReadBusy_ok hg, if_pos hne]
      rfl
    · rename_i hne
      simp only [ne_eq, not_not] at hne
      obtain ⟨⟨j, b'⟩, hj, heq⟩ := Option.map_eq_some_iff.mp hf
      obtain ⟨rfl, rfl⟩ : j + 1 = k ∧ b' = b := by simpa using heq
      have ht : elapsed < c.tBusyTimeoutMs := by simpa using hl.2 0 (by omega)
      rw [pollLoop_busy hg hne ht, ih _ _ j b' (pollsLeft_next hl) (by simpa [envEffect] using hj)
        (answersOk_afterPoll ha),
        pollWaitItems_succ, ← emit_append]
      rfl

/-- The loop times out when every read it may make is busy (R237, R238; 60_exceptions.md R301). -/
theorem pollLoop_timeout (c : Cfg) (n : Nat) : ∀ (elapsed : Nat) (s : State),
    PollsLeft c n elapsed → firstIdle c.busyActiveLevel n s.env.busy = none →
    answersOk (n + 1) s.env.gpio = true →
    pollLoop c n elapsed s = .raised (.busyTimeout (elapsed + n * c.tPollMs))
      (emit (eventsOf (pollWaitItems c n c.busyActiveLevel)) s) := by
  induction n with
  | zero =>
    intro elapsed s hl hf ha
    simp only [firstIdle] at hf
    split at hf
    · cases hf
    · rename_i hne
      simp only [ne_eq, not_not] at hne
      have hg : nextDraw s.env.gpio = .ok := by simpa [answersOk] using ha
      have ht : c.tBusyTimeoutMs ≤ elapsed := by simpa using hl.1
      rw [pollLoop, gpioReadBusy_ok hg, hne]
      simp only [ne_eq, not_true_eq_false, if_false, Nat.zero_mul, Nat.add_zero]
      rfl
  | succ n ih =>
    intro elapsed s hl hf ha
    have hg : nextDraw s.env.gpio = .ok := by
      simp only [answersOk, Bool.and_eq_true, decide_eq_true_eq] at ha
      exact ha.1
    simp only [firstIdle] at hf
    split at hf
    · cases hf
    · rename_i hne
      simp only [ne_eq, not_not] at hne
      have ht : elapsed < c.tBusyTimeoutMs := by simpa using hl.2 0 (by omega)
      rw [pollLoop_busy hg hne ht, ih _ _ (pollsLeft_next hl) (by simpa [envEffect] using hf)
        (answersOk_afterPoll ha),
        pollWaitItems_succ, ← emit_append]
      congr 2
      rw [Nat.add_mul]
      omega

/-- In a well-formed configuration under Poll, a poll delays at least 1 ms (00_scope.md R12). -/
theorem wf_poll {c : Cfg} (hw : c.wf = true) (hp : c.busyPolicy = .poll) : 1 ≤ c.tPollMs := by
  simp only [Cfg.wf, Bool.and_eq_true, hp, decide_eq_true_eq] at hw
  exact hw.2

theorem accesses_pollWaitItems (c : Cfg) (k : Nat) (b : Level) : accesses (eventsOf (pollWaitItems c k b)) = k + 1 := by
  induction k with
  | zero => rfl
  | succ k ih =>
    rw [pollWaitItems_succ, eventsOf_cons, eventsOf_cons, accesses_append, accesses_append, ih]
    simp [itemEvents, accesses, isAccess]
    omega

/-- A busy wait that ends (R237). -/
theorem busyWait_ok {s : State} {w : List WireItem} (hw : s.cfg.wf = true)
    (hwait : waitItems s.cfg s.env.busy = some w) (ha : answersOk (accesses (eventsOf w)) s.env.gpio = true) :
    busyWait s = .done (emit (eventsOf w) s) := by
  cases hp : s.cfg.busyPolicy with
  | fixedDelay =>
    simp only [waitItems, hp, Option.some.injEq] at hwait
    subst hwait
    exact busyWait_fixed hp
  | poll =>
    simp only [waitItems, hp] at hwait
    obtain ⟨⟨k, b⟩, hf, rfl⟩ := Option.map_eq_some_iff.mp hwait
    rw [busyWait_poll hp]
    exact pollLoop_idle _ _ 0 s k b (pollsLeft_start (wf_poll hw hp)) hf (by simpa [accesses_pollWaitItems] using ha)

/-- A busy wait that times out (R237, R238; 60_exceptions.md R301). -/
theorem busyWait_timeout {s : State} (hw : s.cfg.wf = true) (hwait : waitItems s.cfg s.env.busy = none)
    (ha : answersOk (pollBound s.cfg + 1) s.env.gpio = true) :
    busyWait s = .raised (.busyTimeout (pollBound s.cfg * s.cfg.tPollMs)) (emit (eventsOf (timeoutItems s.cfg)) s) := by
  cases hp : s.cfg.busyPolicy with
  | fixedDelay => simp [waitItems, hp] at hwait
  | poll =>
    simp only [waitItems, hp] at hwait
    rw [busyWait_poll hp]
    have h := pollLoop_timeout s.cfg (pollBound s.cfg) 0 s (pollsLeft_start (wf_poll hw hp))
      (by simpa using hwait) ha
    rwa [Nat.zero_add] at h

/-! ### Accesses of BUSY that fail or never return -/

theorem busyTurns_succ (c : Cfg) (k : Nat) : busyTurns c (k + 1)
    = .single (.rd c.busyActiveLevel) :: .single (.dly c.tPollMs) :: busyTurns c k := by
  simp [busyTurns, List.range_succ_eq_map, List.flatMap_map]

theorem pollWaitItems_eq (c : Cfg) (k : Nat) (b : Level) : pollWaitItems c k b = busyTurns c k ++ [.single (.rd b)] := rfl

theorem accesses_busyTurns (c : Cfg) (k : Nat) : accesses (eventsOf (busyTurns c k)) = k := by
  induction k with
  | zero => rfl
  | succ k ih =>
    rw [busyTurns_succ, eventsOf_cons, eventsOf_cons, accesses_append, accesses_append, ih]
    simp [itemEvents, accesses, isAccess]
    omega

/-- `k` turns of the loop that find the controller busy. -/
theorem pollLoop_turns (c : Cfg) (k : Nat) : ∀ (n elapsed : Nat) (s : State), PollsLeft c (n + k) elapsed →
    busyFor c.busyActiveLevel k s.env.busy = true → answersOk k s.env.gpio = true →
    pollLoop c (n + k) elapsed s = pollLoop c n (elapsed + k * c.tPollMs) (emit (eventsOf (busyTurns c k)) s) := by
  induction k with
  | zero => intro n elapsed s _ _ _; simp [busyTurns]
  | succ k ih =>
    intro n elapsed s hl hb ha
    simp only [busyFor, Bool.and_eq_true, decide_eq_true_eq] at hb
    have hg : nextDraw s.env.gpio = .ok := by
      simp only [answersOk, Bool.and_eq_true, decide_eq_true_eq] at ha
      exact ha.1
    have ht : elapsed < c.tBusyTimeoutMs := by simpa using hl.2 0 (by omega)
    have ha' : answersOk k (emit [.rd c.busyActiveLevel, .dly c.tPollMs] s).env.gpio = true := by
      have h' : (decide (nextDraw s.env.gpio = .ok) && answersOk k (laterDraws s.env.gpio)) = true := ha
      rw [Bool.and_eq_true] at h'
      exact h'.2
    rw [← Nat.add_assoc, pollLoop_busy hg hb.1 ht,
      ih n _ _ (pollsLeft_next hl) hb.2 ha', busyTurns_succ, ← emit_append]
    congr 1
    rw [Nat.add_mul]
    omega

theorem gpioReadBusy_fails {k : Level → Op} {s : State} (h : nextDraw s.env.gpio = .fails) :
    gpioReadBusy k s = .raised .ioReadBusy (useAnswer s) := by
  rcases gpioReadBusy_cases k s with ⟨h', _⟩ | ⟨_, e⟩ | ⟨h', _⟩
  · rw [h] at h'; cases h'
  · exact e
  · rw [h] at h'; cases h'

theorem gpioReadBusy_never {k : Level → Op} {s : State} (h : nextDraw s.env.gpio = .neverReturns) :
    gpioReadBusy k s = .stuck s := by
  rcases gpioReadBusy_cases k s with ⟨h', _⟩ | ⟨h', _⟩ | ⟨_, e⟩
  · rw [h] at h'; cases h'
  · rw [h] at h'; cases h'
  · exact e

theorem pollLoop_fails (c : Cfg) (n elapsed : Nat) (s : State) (h : nextDraw s.env.gpio = .fails) :
    pollLoop c n elapsed s = .raised .ioReadBusy (useAnswer s) := by
  cases n <;> rw [pollLoop, gpioReadBusy_fails h]

theorem pollLoop_never (c : Cfg) (n elapsed : Nat) (s : State) (h : nextDraw s.env.gpio = .neverReturns) :
    pollLoop c n elapsed s = .stuck s := by
  cases n <;> rw [pollLoop, gpioReadBusy_never h]

/-- A read of BUSY that fails after `k` busy reads (40_transport.md R143). -/
theorem busyWait_readFails {s : State} {k : Nat} (hw : s.cfg.wf = true) (hp : s.cfg.busyPolicy = .poll)
    (hk : k ≤ pollBound s.cfg) (hb : busyFor s.cfg.busyActiveLevel k s.env.busy = true)
    (ha : answersOk k s.env.gpio = true) (hf : nextDraw (drawsAfter k s.env.gpio) = .fails) :
    busyWait s = .raised .ioReadBusy (useAnswer (emit (eventsOf (busyTurns s.cfg k)) s)) := by
  obtain ⟨n, hn⟩ : ∃ n, pollBound s.cfg = n + k := ⟨pollBound s.cfg - k, by omega⟩
  have hl := pollsLeft_start (wf_poll hw hp)
  rw [hn] at hl
  rw [busyWait_poll hp, hn, pollLoop_turns s.cfg k n 0 s hl hb ha]
  exact pollLoop_fails _ _ _ _ (by rw [emit_env, envAfter_gpio, accesses_busyTurns]; exact hf)

/-- A read of BUSY that never returns after `k` busy reads (40_transport.md R145; 60_exceptions.md R308). -/
theorem busyWait_never {s : State} {k : Nat} (hw : s.cfg.wf = true) (hp : s.cfg.busyPolicy = .poll)
    (hk : k ≤ pollBound s.cfg) (hb : busyFor s.cfg.busyActiveLevel k s.env.busy = true)
    (ha : answersOk k s.env.gpio = true) (hf : nextDraw (drawsAfter k s.env.gpio) = .neverReturns) :
    busyWait s = .stuck (emit (eventsOf (busyTurns s.cfg k)) s) := by
  obtain ⟨n, hn⟩ : ∃ n, pollBound s.cfg = n + k := ⟨pollBound s.cfg - k, by omega⟩
  have hl := pollsLeft_start (wf_poll hw hp)
  rw [hn] at hl
  rw [busyWait_poll hp, hn, pollLoop_turns s.cfg k n 0 s hl hb ha]
  exact pollLoop_never _ _ _ _ (by rw [emit_env, envAfter_gpio, accesses_busyTurns]; exact hf)

/-- The first idle read comes after as many busy ones as it says. -/
theorem firstIdle_busyFor (active : Level) (n : Nat) : ∀ (d : Draws Level),
    (firstIdle active n d = none ∧ busyFor active (n + 1) d = true) ∨
      ∃ k b, firstIdle active n d = some (k, b) ∧ k ≤ n ∧ busyFor active k d = true ∧ b ≠ active := by
  induction n with
  | zero =>
    intro d
    by_cases h : nextDraw d = active
    · exact .inl ⟨by simp [firstIdle, h], by simp [busyFor, h]⟩
    · exact .inr ⟨0, nextDraw d, by simp [firstIdle, h], le_refl _, rfl, h⟩
  | succ n ih =>
    intro d
    by_cases h : nextDraw d = active
    · rcases ih (laterDraws d) with ⟨h1, h2⟩ | ⟨k, b, h1, h2, h3, h4⟩
      · exact .inl ⟨by simp [firstIdle, h, h1], by rw [busyFor, h, h2]; simp⟩
      · exact .inr ⟨k + 1, b, by simp [firstIdle, h, h1], by omega, by simp [busyFor, h, h3], h4⟩
    · exact .inr ⟨0, nextDraw d, by simp [firstIdle, h], by omega, rfl, h⟩

theorem busyFor_le {active : Level} : ∀ {m k : Nat} {d : Draws Level}, k ≤ m → busyFor active m d = true →
    busyFor active k d = true
  | _, 0, _, _, _ => rfl
  | 0, k + 1, _, h, _ => by omega
  | m + 1, k + 1, d, h, hb => by
    simp only [busyFor, Bool.and_eq_true] at hb ⊢
    exact ⟨hb.1, busyFor_le (by omega) hb.2⟩

/-- Of `n` answers, all succeed, or one of them is the first that does not. -/
theorem answersOk_cases (n : Nat) : ∀ d : Draws GpioAnswer, answersOk n d = true ∨
    ∃ k, k < n ∧ answersOk k d = true ∧ nextDraw (drawsAfter k d) ≠ .ok := by
  induction n with
  | zero => intro d; exact .inl rfl
  | succ n ih =>
    intro d
    by_cases h : nextDraw d = .ok
    · rcases ih (laterDraws d) with h1 | ⟨k, h1, h2, h3⟩
      · exact .inl (by simp [answersOk, h, h1])
      · exact .inr ⟨k + 1, by omega, by simp [answersOk, h, h2], h3⟩
    · exact .inr ⟨0, by omega, rfl, h⟩

/-- Everything a busy wait can do. -/
theorem busyWait_cases (s : State) (hw : s.cfg.wf = true) :
    (∃ w, waitItems s.cfg s.env.busy = some w ∧ answersOk (accesses (eventsOf w)) s.env.gpio = true ∧
      busyWait s = .done (emit (eventsOf w) s)) ∨
    (s.cfg.busyPolicy = .poll ∧ waitItems s.cfg s.env.busy = none ∧
      answersOk (pollBound s.cfg + 1) s.env.gpio = true ∧
      busyWait s = .raised (.busyTimeout (pollBound s.cfg * s.cfg.tPollMs)) (emit (eventsOf (timeoutItems s.cfg)) s)) ∨
    (∃ k, s.cfg.busyPolicy = .poll ∧ k ≤ pollBound s.cfg ∧
      busyFor s.cfg.busyActiveLevel k s.env.busy = true ∧ answersOk k s.env.gpio = true ∧
      nextDraw (drawsAfter k s.env.gpio) = .fails ∧
      busyWait s = .raised .ioReadBusy (useAnswer (emit (eventsOf (busyTurns s.cfg k)) s))) ∨
    (∃ k, s.cfg.busyPolicy = .poll ∧ k ≤ pollBound s.cfg ∧
      busyFor s.cfg.busyActiveLevel k s.env.busy = true ∧ answersOk k s.env.gpio = true ∧
      nextDraw (drawsAfter k s.env.gpio) = .neverReturns ∧
      busyWait s = .stuck (emit (eventsOf (busyTurns s.cfg k)) s)) := by
  cases hp : s.cfg.busyPolicy with
  | fixedDelay =>
    exact .inl ⟨fixedWaitItems s.cfg, by simp [waitItems, hp], rfl, busyWait_fixed hp⟩
  | poll =>
    have stops : ∀ k, k ≤ pollBound s.cfg → busyFor s.cfg.busyActiveLevel k s.env.busy = true →
        answersOk k s.env.gpio = true → nextDraw (drawsAfter k s.env.gpio) ≠ .ok →
        (nextDraw (drawsAfter k s.env.gpio) = .fails ∧
          busyWait s = .raised .ioReadBusy (useAnswer (emit (eventsOf (busyTurns s.cfg k)) s))) ∨
        (nextDraw (drawsAfter k s.env.gpio) = .neverReturns ∧
          busyWait s = .stuck (emit (eventsOf (busyTurns s.cfg k)) s)) := by
      intro k hk hb ha hne
      cases hd : nextDraw (drawsAfter k s.env.gpio) with
      | ok => exact absurd hd hne
      | fails => exact .inl ⟨rfl, busyWait_readFails hw hp hk hb ha hd⟩
      | neverReturns => exact .inr ⟨rfl, busyWait_never hw hp hk hb ha hd⟩
    rcases firstIdle_busyFor s.cfg.busyActiveLevel (pollBound s.cfg) s.env.busy with ⟨hf, hb⟩ | ⟨k, b, hf, hk, hb, _⟩
    · rcases answersOk_cases (pollBound s.cfg + 1) s.env.gpio with ha | ⟨j, hj, ha, hne⟩
      · have hwait : waitItems s.cfg s.env.busy = none := by simp [waitItems, hp, hf]
        exact .inr (.inl ⟨rfl, hwait, ha, busyWait_timeout hw hwait ha⟩)
      · have hbj := busyFor_le (show j ≤ pollBound s.cfg + 1 by omega) hb
        rcases stops j (by omega) hbj ha hne with ⟨h1, h2⟩ | ⟨h1, h2⟩
        · exact .inr (.inr (.inl ⟨j, rfl, by omega, hbj, ha, h1, h2⟩))
        · exact .inr (.inr (.inr ⟨j, rfl, by omega, hbj, ha, h1, h2⟩))
    · rcases answersOk_cases (k + 1) s.env.gpio with ha | ⟨j, hj, ha, hne⟩
      · have hwait : waitItems s.cfg s.env.busy = some (pollWaitItems s.cfg k b) := by simp [waitItems, hp, hf]
        have ha' : answersOk (accesses (eventsOf (pollWaitItems s.cfg k b))) s.env.gpio = true := by
          rw [accesses_pollWaitItems]; exact ha
        exact .inl ⟨_, hwait, ha', busyWait_ok hw hwait ha'⟩
      · have hbj := busyFor_le (show j ≤ k by omega) hb
        rcases stops j (by omega) hbj ha hne with ⟨h1, h2⟩ | ⟨h1, h2⟩
        · exact .inr (.inr (.inl ⟨j, rfl, by omega, hbj, ha, h1, h2⟩))
        · exact .inr (.inr (.inr ⟨j, rfl, by omega, hbj, ha, h1, h2⟩))

end Sys2Proof.Machine
end

