-- ==== Sys2Proof/Laws/Plays.lean ====
section
/-! SUPPORT. The bodies that also write ghost flags or WARN: each plays its events, and once all of them have happened
its flags are written; where one fails, nothing but PSTATE and the scratch registers may differ (43_sequencer.md R220 to
R240). -/

namespace Sys2Proof.Machine

/-- A result of playing events, followed by writes of flags on completion. -/
def thenFlags (d : Datapath) (g : Ghost → Ghost) (f : Status → Status) : Res → Res
  | .done s => .done (retouch (fun _ => d) g f s)
  | .raised e s => .raised e (withScratch d s)
  | .stuck s => .stuck (withScratch d s)

/-- In configuration `c`, the operation plays the events `es` and, when all have happened, writes the ghost state by
`g` and the status record by `f`. -/
def ReplaysThen (c : Cfg) (op : Op) (es : List Event) (g : Ghost → Ghost) (f : Status → Status) : Prop :=
  ∀ s : State, s.cfg = c → ∃ d, op s = thenFlags d g f (replay es s)

theorem ReplaysAt.then {c : Cfg} {op : Op} {es : List Event} (h : ReplaysAt c op es) : ReplaysThen c op es id id := by
  intro s hs
  obtain ⟨d, hd⟩ := h s hs
  refine ⟨d, ?_⟩
  rw [hd]
  cases replay es s <;> rfl

theorem ReplaysThen.ghost {c : Cfg} {a : Op} {es : List Event} {g : Ghost → Ghost} {f : Status → Status}
    (ha : ReplaysThen c a es g f) (g2 : Ghost → Ghost) : ReplaysThen c (seqOp a (writeGhost g2)) es (g2 ∘ g) f := by
  intro s hs
  obtain ⟨d, hd⟩ := ha s hs
  refine ⟨d, ?_⟩
  cases hr : replay es s <;> rw [hr] at hd
  · rw [seqOp_done (show a s = .done _ from hd)]; rfl
  · rw [seqOp_raised (show a s = .raised _ _ from hd)]; rfl
  · rw [seqOp_stuck (show a s = .stuck _ from hd)]; rfl

theorem ReplaysThen.warn {c : Cfg} {a : Op} {es : List Event} {g : Ghost → Ghost} {f : Status → Status}
    (ha : ReplaysThen c a es g f) : ReplaysThen c (seqOp a setWarn) es g (fun st => { f st with warn := 1 }) := by
  intro s hs
  obtain ⟨d, hd⟩ := ha s hs
  refine ⟨d, ?_⟩
  cases hr : replay es s <;> rw [hr] at hd
  · rw [seqOp_done (show a s = .done _ from hd)]; rfl
  · rw [seqOp_raised (show a s = .raised _ _ from hd)]; rfl
  · rw [seqOp_stuck (show a s = .stuck _ from hd)]; rfl

theorem ReplaysThen.withCfg {c : Cfg} {f : Cfg → Op} {es : List Event} {g h} (hp : ReplaysThen c (f c) es g h) :
    ReplaysThen c (withCfg f) es g h := by
  intro s hs
  obtain ⟨d, hd⟩ := hp s hs
  exact ⟨d, by rw [withCfg_eq, hs]; exact hd⟩

/-- A result of playing events of an operation whose parts write PSTATE in between: on completion the flags are
written, otherwise PSTATE is `p`. -/
def finish (d : Datapath) (p : PState) (g : Ghost → Ghost) (f : Status → Status) : Res → Res
  | .done s => .done (retouch (fun _ => d) g f s)
  | .raised e s => .raised e (retouch (fun _ => d) (fun h => { h with pstate := p }) id s)
  | .stuck s => .stuck (retouch (fun _ => d) (fun h => { h with pstate := p }) id s)

/-- In configuration `c`, the operation plays the events `es`, its parts writing PSTATE in between, and then writes the
ghost state by `g` and the status record by `f`. -/
def PlaysAt (c : Cfg) (op : Op) (es : List Event) (g : Ghost → Ghost) (f : Status → Status) : Prop :=
  ∀ s : State, s.cfg = c → ∃ d p, op s = finish d p g f (replay es s)

theorem replay_ghost (es : List Event) : ∀ s : State, (resState (replay es s)).ghost = s.ghost := by
  induction es with
  | nil => intro s; rfl
  | cons e es ih =>
    intro s
    rw [replay_cons]
    cases e with
    | w l v =>
      rcases gpioWrite_cases l v s with ⟨_, e⟩ | ⟨_, e⟩ | ⟨_, e⟩
      · rw [seqOp_done (show playEvent (.w l v) s = _ from e), ih]; rfl
      · rw [seqOp_raised (show playEvent (.w l v) s = _ from e)]; rfl
      · rw [seqOp_stuck (show playEvent (.w l v) s = _ from e)]; rfl
    | f l v => exact ih s
    | dly ms => rw [seqOp_done (show playEvent (.dly ms) s = _ from delay_eq ms s), ih]; rfl
    | rd b => exact ih s
    | warn n => rw [seqOp_done (show playEvent (.warn n) s = _ from warn_eq n s), ih]; rfl

theorem ReplaysThen.plays {c : Cfg} {op : Op} {es : List Event} {g f} (h : ReplaysThen c op es g f) :
    PlaysAt c op es g f := by
  intro s hs
  obtain ⟨d, hd⟩ := h s hs
  have hg := replay_ghost es s
  refine ⟨d, s.ghost.pstate, ?_⟩
  rw [hd]
  cases hr : replay es s with
  | done s' => rfl
  | raised e s' =>
    rw [hr] at hg
    have : ({ s'.ghost with pstate := s.ghost.pstate } : Ghost) = s'.ghost := by
      rw [show s.ghost = s'.ghost from hg.symm]
    simp only [thenFlags, finish, retouch, withScratch, this]
    rfl
  | stuck s' =>
    rw [hr] at hg
    have : ({ s'.ghost with pstate := s.ghost.pstate } : Ghost) = s'.ghost := by
      rw [show s.ghost = s'.ghost from hg.symm]
    simp only [thenFlags, finish, retouch, withScratch, this]
    rfl

/-- A flag update that writes nothing but PSTATE. -/
def OnlyPState (g : Ghost → Ghost) : Prop := ∀ h p, ({ g h with pstate := p } : Ghost) = { h with pstate := p }

theorem PlaysAt.andThen {c : Cfg} {a b : Op} {as bs : List Event} {g1 g2 : Ghost → Ghost} {f : Status → Status}
    (ha : PlaysAt c a as g1 id) (hg : OnlyPState g1) (hb : PlaysAt c b bs g2 f) :
    PlaysAt c (seqOp a b) (as ++ bs) (g2 ∘ g1) f := by
  intro s hs
  obtain ⟨d, p, hd⟩ := ha s hs
  have hc := replay_cfg as s
  rw [replay_append]
  cases hr : replay as s with
  | done s1 =>
    rw [hr] at hd hc
    obtain ⟨d2, p2, hd2⟩ := hb (retouch (fun _ => d) g1 id s1) (hc.trans hs)
    refine ⟨d2, p2, ?_⟩
    rw [seqOp_done hr, seqOp_done (show a s = .done _ from hd), hd2, replay_retouch]
    cases replay bs s1 with
    | done s2 => rfl
    | raised e s2 => exact congrArg (fun gh => Res.raised e { s2 with dp := d2, ghost := gh }) (hg s2.ghost p2)
    | stuck s2 => exact congrArg (fun gh => Res.stuck { s2 with dp := d2, ghost := gh }) (hg s2.ghost p2)
  | raised e s1 =>
    rw [hr] at hd
    exact ⟨d, p, by rw [seqOp_raised hr, seqOp_raised (show a s = .raised e _ from hd)]; rfl⟩
  | stuck s1 =>
    rw [hr] at hd
    exact ⟨d, p, by rw [seqOp_stuck hr, seqOp_stuck (show a s = .stuck _ from hd)]; rfl⟩

theorem PlaysAt.thenGhost {c : Cfg} {a : Op} {es : List Event} {g : Ghost → Ghost} {f : Status → Status}
    (ha : PlaysAt c a es g f) (g2 : Ghost → Ghost) : PlaysAt c (seqOp a (writeGhost g2)) es (g2 ∘ g) f := by
  intro s hs
  obtain ⟨d, p, hd⟩ := ha s hs
  refine ⟨d, p, ?_⟩
  cases hr : replay es s <;> rw [hr] at hd
  · rw [seqOp_done (show a s = .done _ from hd)]; rfl
  · rw [seqOp_raised (show a s = .raised _ _ from hd)]; rfl
  · rw [seqOp_stuck (show a s = .stuck _ from hd)]; rfl

theorem onlyPState_id : OnlyPState id := fun _ _ => rfl
theorem onlyPState_const (p : PState) : OnlyPState fun g => { g with pstate := p } := fun _ _ => rfl

/-! ### The bodies -/

/-- CONFIGURE (43_sequencer.md R220). -/
theorem configure_then (c : Cfg) :
    ReplaysThen c configure (eventsOf configureItems) (fun g => { g with pstate := .configured }) id := by
  have h := ((ReplaysAt.gpioWrite c .cs .high).seqOp (ReplaysAt.gpioWrite c .clk .low)).then.ghost
    (fun g => { g with pstate := .configured })
  rw [seqOp_assoc] at h
  simpa [configure, setPState, configureItems, itemEvents] using h

/-- RESET (43_sequencer.md R221). -/
theorem reset_then (c : Cfg) :
    ReplaysThen c resetController (eventsOf (resetItems c)) (fun g => { g with pstate := .reset }) id := by
  apply ReplaysThen.withCfg
  have h := ((ReplaysAt.gpioWrite c .rst .high).seqOp ((ReplaysAt.delay c c.tResetMs).seqOp
    ((ReplaysAt.gpioWrite c .rst .low).seqOp ((ReplaysAt.delay c c.tResetMs).seqOp
    ((ReplaysAt.gpioWrite c .rst .high).seqOp (ReplaysAt.delay c c.tResetMs)))))).then.ghost
    (fun g => { g with pstate := .reset })
  simp only [seqOp_assoc] at h
  simpa [setPState, resetItems, itemEvents] using h

/-- REGISTER_LOAD (43_sequencer.md R223). -/
theorem registerLoad_then (c : Cfg) :
    ReplaysThen c registerLoad (eventsOf (registerLoadItems c)) (fun g => { g with pstate := .registersLoaded }) id := by
  have h := ((driverOutputControl_replays c).seqOp ((boosterSoftStart_replays c).seqOp ((writeVcom_replays c).seqOp
    ((dummyLinePeriod_replays c).seqOp ((gateTime_replays c).seqOp ((borderWaveform_replays c).seqOp
    (dataEntryMode_replays c))))))).then.ghost (fun g => { g with pstate := .registersLoaded })
  simp only [seqOp_assoc] at h
  simp only [registerLoad, inOrder_cons, inOrder_nil, seqOp_skip, setPState, registerLoadItems, eventsOf_append,
    List.append_assoc]
  exact h

theorem sendLutByte_replays (c : Cfg) (m : RefreshMode) (k : Nat) :
    ReplaysAt c (sendLutByte c m k) (framedByte .data (lut c m k)) :=
  (ReplaysAt.writeDp c _).cons (sendData_replays c _).last

/-- The data bytes of a recognised LUT (43_sequencer.md R225). -/
theorem lutBytes_replays (c : Cfg) (m : RefreshMode) (table : List Byte)
    (ht : (List.range 30).map (lut c m) = table) :
    ReplaysAt c (seqOp (sendCmd c.opWriteLut) (forUpTo 30 (sendLutByte c m))) (eventsOf (cmdItems c.opWriteLut table)) := by
  have h := ReplaysAt.forUpTo 30 (sendLutByte c m) (fun k => framedByte .data (lut c m k))
    (fun k _ => sendLutByte_replays c m k)
  have hm : (List.range 30).flatMap (fun k => framedByte .data (lut c m k)) = table.flatMap (framedByte .data) := by
    rw [← ht, List.flatMap_map]
  rw [hm] at h
  rw [cmdItems, eventsOf_cons, eventsOf_data]
  exact (sendCmd_replays c c.opWriteLut).seqOp h

/-- What LUT_LOAD writes when it completes (43_sequencer.md R225, R226). -/
def lutLoadGhost (c : Cfg) (mode : Byte) (g : Ghost) : Ghost :=
  { g with
    pstate := .lutLoaded
    lutOk := if decodeMode c mode = .unrecognised then g.lutOk else true }

/-- WARN after a LUT_LOAD that completed (43_sequencer.md R226). -/
def lutLoadStatus (c : Cfg) (mode : Byte) (st : Status) : Status :=
  if decodeMode c mode = .unrecognised then { st with warn := 1 } else st

/-- LUT_LOAD (43_sequencer.md R225, R226). -/
theorem lutLoad_then (c : Cfg) (hw : c.wf = true) (mode : Byte) :
    ReplaysThen c (lutLoad mode) (eventsOf (lutLoadItems c mode)) (lutLoadGhost c mode) (lutLoadStatus c mode) := by
  obtain ⟨hf, hp⟩ := wf_lut_lengths hw
  have h1 : (List.range 30).map (lut c .full) = c.lutFull := map_range_getD c.lutFull 30 hf
  have h2 : (List.range 30).map (lut c .partialRefresh) = c.lutPartial := map_range_getD c.lutPartial 30 hp
  apply ReplaysThen.withCfg
  cases hm : decodeMode c mode with
  | full =>
    have h := ((lutBytes_replays c .full c.lutFull h1).then.ghost (fun g => { g with lutOk := true })).ghost
      (fun g => { g with pstate := .lutLoaded })
    simp only [seqOp_assoc] at h
    simp only [lutLoadItems, hm, writeLutItems, inOrder_cons, inOrder_nil, seqOp_skip, setPState, setLutOk]
    have hg : lutLoadGhost c mode
        = (fun g => { g with pstate := PState.lutLoaded }) ∘ (fun g => { g with lutOk := true }) ∘ id := by
      funext g; simp [lutLoadGhost, hm]
    have hst : lutLoadStatus c mode = id := by funext st; simp [lutLoadStatus, hm]
    rw [hg, hst]
    exact h
  | partialRefresh =>
    have h := ((lutBytes_replays c .partialRefresh c.lutPartial h2).then.ghost
      (fun g => { g with lutOk := true })).ghost (fun g => { g with pstate := .lutLoaded })
    simp only [seqOp_assoc] at h
    simp only [lutLoadItems, hm, writeLutItems, inOrder_cons, inOrder_nil, seqOp_skip, setPState, setLutOk]
    have hg : lutLoadGhost c mode
        = (fun g => { g with pstate := PState.lutLoaded }) ∘ (fun g => { g with lutOk := true }) ∘ id := by
      funext g; simp [lutLoadGhost, hm]
    have hst : lutLoadStatus c mode = id := by funext st; simp [lutLoadStatus, hm]
    rw [hg, hst]
    exact h
  | unrecognised =>
    have hcmd : ReplaysAt c (if c.invalidModeSendsLutCmd = true then sendCmd c.opWriteLut else skip)
        (eventsOf (writeLutItems c .unrecognised)) := by
      cases hi : c.invalidModeSendsLutCmd with
      | true => simpa [writeLutItems, hi, cmdItems, itemEvents] using sendCmd_replays c c.opWriteLut
      | false => simpa [writeLutItems, hi] using ReplaysAt.skip c
    have h := (hcmd.seqOp (ReplaysAt.warn c warnInvalidModeCode)).then.warn.ghost
      (fun g => { g with pstate := .lutLoaded })
    simp only [seqOp_assoc] at h
    simp only [lutLoadItems, hm, inOrder_cons, inOrder_nil, seqOp_skip, setPState, eventsOf_append]
    have hg : lutLoadGhost c mode = (fun g => { g with pstate := PState.lutLoaded }) ∘ id := by
      funext g; simp [lutLoadGhost, hm]
    have hst : lutLoadStatus c mode = fun st => { id st with warn := 1 } := by funext st; simp [lutLoadStatus, hm]
    rw [hg, hst]
    exact h

/-- INIT after its first write of LUT_OK (43_sequencer.md R230). -/
theorem initTail_plays (c : Cfg) (hw : c.wf = true) (mode : Byte) :
    PlaysAt c (inOrder [configure, resetController, registerLoad, lutLoad mode, setPState .ready])
      (eventsOf (initItems c mode)) (fun g => { lutLoadGhost c mode g with pstate := .ready })
      (lutLoadStatus c mode) := by
  have h := (configure_then c).plays.andThen (onlyPState_const _) ((reset_then c).plays.andThen (onlyPState_const _)
    ((registerLoad_then c).plays.andThen (onlyPState_const _) ((lutLoad_then c hw mode).plays.thenGhost
      (fun g => { g with pstate := .ready }))))
  simp only [initItems, eventsOf_append, List.append_assoc, inOrder_cons, inOrder_nil, seqOp_skip, setPState]
  exact h

/-- INIT (43_sequencer.md R230): LUT_OK is false from its start until the LUT of a recognised mode has been sent. -/
theorem initBody_plays (c : Cfg) (hw : c.wf = true) (mode : Byte) (s : State) (hs : s.cfg = c) :
    ∃ d p, initBody mode s = finish d p (fun g => { lutLoadGhost c mode g with pstate := .ready })
      (lutLoadStatus c mode)
      (resMap (retouch id (fun g => { g with lutOk := false }) id) (replay (eventsOf (initItems c mode)) s)) := by
  obtain ⟨d, p, h⟩ := initTail_plays c hw mode (retouch id (fun g => { g with lutOk := false }) id s) hs
  refine ⟨d, p, ?_⟩
  rw [replay_retouch] at h
  exact h

end Sys2Proof.Machine
end

