-- ==== Sys2Proof/Laws/Played.lean ====
section
/-! SUPPORT. Playing planned events and then, for some operations, waiting for the controller: what that does for every
answer of the environment. -/

namespace Sys2Proof.Machine

/-- The planned events, and then a busy wait where the operation ends with one. -/
def played (es : List Event) (waits : Bool) : Op := seqOp (replay es) (if waits then busyWait else skip)

theorem envAfter_busy (es : List Event) : ∀ (v : Env), es.all isPlanned = true → (envAfter v es).busy = v.busy := by
  induction es with
  | nil => intro v _; rfl
  | cons e es ih =>
    intro v h
    simp only [List.all_cons, Bool.and_eq_true] at h
    rw [envAfter_cons, ih _ h.2]
    cases e <;> first | rfl | simp [isPlanned] at h

theorem answersOk_left {m n : Nat} {d : Draws GpioAnswer} (h : answersOk (m + n) d = true) : answersOk m d = true := by
  rw [answersOk_add, Bool.and_eq_true] at h
  exact h.1

theorem answersOk_right {m n : Nat} {d : Draws GpioAnswer} (h : answersOk (m + n) d = true) :
    answersOk n (drawsAfter m d) = true := by
  rw [answersOk_add, Bool.and_eq_true] at h
  exact h.2

/-- What a busy wait adds to the events of an operation. -/
def waitTail (c : Cfg) (busy : Draws Level) (waits : Bool) : Option (List WireItem) :=
  if waits then waitItems c busy else some []

theorem played_ok {es : List Event} {waits : Bool} {s : State} {w : List WireItem} (hw : s.cfg.wf = true)
    (hp : es.all isPlanned = true) (hwait : waitTail s.cfg s.env.busy waits = some w)
    (ha : answersOk (accesses es + accesses (eventsOf w)) s.env.gpio = true) :
    played es waits s = .done (emit (es ++ eventsOf w) s) := by
  rw [played, seqOp_done (replay_ok es s hp (answersOk_left ha)), emit_append]
  cases waits with
  | false =>
    obtain rfl : [] = w := by simpa [waitTail] using hwait
    simp
  | true =>
    have hb := envAfter_busy es s.env hp
    refine busyWait_ok (s := emit es s) hw ?_ ?_
    · simpa [waitTail, hb] using hwait
    · rw [emit_env, envAfter_gpio]; exact answersOk_right ha

theorem played_fails {pre post : List Event} {l : OutLine} {v : Level} {waits : Bool} {s : State}
    (hp : (pre ++ .w l v :: post).all isPlanned = true) (ha : answersOk (accesses pre) s.env.gpio = true)
    (hf : nextDraw (drawsAfter (accesses pre) s.env.gpio) = .fails) :
    played (pre ++ .w l v :: post) waits s = .raised (.ioWrite l v) (emit (pre ++ [.f l v]) s) := by
  rw [List.all_append, Bool.and_eq_true] at hp
  rw [played, seqOp_raised (replay_fails pre post l v s hp.1 ha hf)]

theorem played_never {pre post : List Event} {l : OutLine} {v : Level} {waits : Bool} {s : State}
    (hp : (pre ++ .w l v :: post).all isPlanned = true) (ha : answersOk (accesses pre) s.env.gpio = true)
    (hf : nextDraw (drawsAfter (accesses pre) s.env.gpio) = .neverReturns) :
    played (pre ++ .w l v :: post) waits s = .stuck (emit pre s) := by
  rw [List.all_append, Bool.and_eq_true] at hp
  rw [played, seqOp_stuck (replay_never pre post l v s hp.1 ha hf)]

theorem played_timeout {es : List Event} {s : State} (hw : s.cfg.wf = true) (hp : es.all isPlanned = true)
    (hwait : waitItems s.cfg s.env.busy = none)
    (ha : answersOk (accesses es + (pollBound s.cfg + 1)) s.env.gpio = true) :
    played es true s = .raised (.busyTimeout (pollBound s.cfg * s.cfg.tPollMs))
      (emit (es ++ eventsOf (timeoutItems s.cfg)) s) := by
  rw [played, seqOp_done (replay_ok es s hp (answersOk_left ha)), emit_append]
  have hb := envAfter_busy es s.env hp
  exact busyWait_timeout (s := emit es s) hw (by simpa [hb] using hwait)
    (by rw [emit_env, envAfter_gpio]; exact answersOk_right ha)

theorem played_readFails {es : List Event} {s : State} {k : Nat} (hw : s.cfg.wf = true)
    (hp : es.all isPlanned = true) (hpol : s.cfg.busyPolicy = .poll) (hk : k ≤ pollBound s.cfg)
    (hb : busyFor s.cfg.busyActiveLevel k s.env.busy = true) (ha : answersOk (accesses es + k) s.env.gpio = true)
    (hf : nextDraw (drawsAfter (accesses es + k) s.env.gpio) = .fails) :
    played es true s = .raised .ioReadBusy (useAnswer (emit (es ++ eventsOf (busyTurns s.cfg k)) s)) := by
  rw [played, seqOp_done (replay_ok es s hp (answersOk_left ha)), emit_append]
  have hb' := envAfter_busy es s.env hp
  exact busyWait_readFails (s := emit es s) hw hpol hk (by rw [emit_env, hb']; exact hb)
    (by rw [emit_env, envAfter_gpio]; exact answersOk_right ha)
    (by rw [emit_env, envAfter_gpio, ← drawsAfter_add]; exact hf)

theorem played_readNever {es : List Event} {s : State} {k : Nat} (hw : s.cfg.wf = true)
    (hp : es.all isPlanned = true) (hpol : s.cfg.busyPolicy = .poll) (hk : k ≤ pollBound s.cfg)
    (hb : busyFor s.cfg.busyActiveLevel k s.env.busy = true) (ha : answersOk (accesses es + k) s.env.gpio = true)
    (hf : nextDraw (drawsAfter (accesses es + k) s.env.gpio) = .neverReturns) :
    played es true s = .stuck (emit (es ++ eventsOf (busyTurns s.cfg k)) s) := by
  rw [played, seqOp_done (replay_ok es s hp (answersOk_left ha)), emit_append]
  have hb' := envAfter_busy es s.env hp
  exact busyWait_never (s := emit es s) hw hpol hk (by rw [emit_env, hb']; exact hb)
    (by rw [emit_env, envAfter_gpio]; exact answersOk_right ha)
    (by rw [emit_env, envAfter_gpio, ← drawsAfter_add]; exact hf)

/-- How playing events and waiting can end, and the conditions on the environment's draws under which it does. -/
inductive Ending (es : List Event) (waits : Bool) (s : State) : Res → Prop
  | done (w : List WireItem) (hwait : waitTail s.cfg s.env.busy waits = some w)
      (ha : answersOk (accesses es + accesses (eventsOf w)) s.env.gpio = true) :
      Ending es waits s (.done (emit (es ++ eventsOf w) s))
  | writeFails (pre : List Event) (l : OutLine) (v : Level) (post : List Event) (he : es = pre ++ .w l v :: post)
      (ha : answersOk (accesses pre) s.env.gpio = true)
      (hf : nextDraw (drawsAfter (accesses pre) s.env.gpio) = .fails) :
      Ending es waits s (.raised (.ioWrite l v) (emit (pre ++ [.f l v]) s))
  | writeNever (pre : List Event) (l : OutLine) (v : Level) (post : List Event) (he : es = pre ++ .w l v :: post)
      (ha : answersOk (accesses pre) s.env.gpio = true)
      (hf : nextDraw (drawsAfter (accesses pre) s.env.gpio) = .neverReturns) :
      Ending es waits s (.stuck (emit pre s))
  | timeout (hw : waits = true) (hpol : s.cfg.busyPolicy = .poll) (hwait : waitItems s.cfg s.env.busy = none)
      (ha : answersOk (accesses es + (pollBound s.cfg + 1)) s.env.gpio = true) :
      Ending es waits s (.raised (.busyTimeout (pollBound s.cfg * s.cfg.tPollMs))
        (emit (es ++ eventsOf (timeoutItems s.cfg)) s))
  | readFails (k : Nat) (hw : waits = true) (hpol : s.cfg.busyPolicy = .poll) (hk : k ≤ pollBound s.cfg)
      (hb : busyFor s.cfg.busyActiveLevel k s.env.busy = true)
      (ha : answersOk (accesses es + k) s.env.gpio = true)
      (hf : nextDraw (drawsAfter (accesses es + k) s.env.gpio) = .fails) :
      Ending es waits s (.raised .ioReadBusy (useAnswer (emit (es ++ eventsOf (busyTurns s.cfg k)) s)))
  | readNever (k : Nat) (hw : waits = true) (hpol : s.cfg.busyPolicy = .poll) (hk : k ≤ pollBound s.cfg)
      (hb : busyFor s.cfg.busyActiveLevel k s.env.busy = true)
      (ha : answersOk (accesses es + k) s.env.gpio = true)
      (hf : nextDraw (drawsAfter (accesses es + k) s.env.gpio) = .neverReturns) :
      Ending es waits s (.stuck (emit (es ++ eventsOf (busyTurns s.cfg k)) s))

/-- Everything that playing planned events and waiting can do. -/
theorem played_ending (es : List Event) (waits : Bool) (s : State) (hw : s.cfg.wf = true)
    (hp : es.all isPlanned = true) : Ending es waits s (played es waits s) := by
  rcases replay_cases es s hp with ⟨ha, h⟩ | ⟨pre, l, v, post, he, ha, hf, h⟩ | ⟨pre, l, v, post, he, ha, hf, h⟩
  · cases waits with
    | false =>
      have h0 : waitTail s.cfg s.env.busy false = some [] := rfl
      rw [played_ok hw hp h0 (by simpa using ha)]
      exact .done [] h0 (by simpa using ha)
    | true =>
      have hb := envAfter_busy es s.env hp
      have hcount : ∀ n, answersOk n (envAfter s.env es).gpio = true →
          answersOk (accesses es + n) s.env.gpio = true := by
        intro n hn
        rw [envAfter_gpio] at hn
        rw [answersOk_add, ha, hn]; rfl
      have hdraw : ∀ n, drawsAfter n (envAfter s.env es).gpio = drawsAfter (accesses es + n) s.env.gpio := by
        intro n; rw [envAfter_gpio, drawsAfter_add]
      rcases busyWait_cases (emit es s) hw with ⟨w, hwt, haw, _⟩ | ⟨hpol, hwt, haw, _⟩ |
        ⟨k, hpol, hk, hbk, hak, hfk, _⟩ | ⟨k, hpol, hk, hbk, hak, hfk, _⟩
      · rw [emit_env, hb] at hwt
        have h1 : waitTail s.cfg s.env.busy true = some w := hwt
        rw [played_ok hw hp h1 (hcount _ haw)]
        exact .done w h1 (hcount _ haw)
      · rw [emit_env, hb] at hwt
        rw [played_timeout hw hp hwt (hcount _ haw)]
        exact .timeout rfl hpol hwt (hcount _ haw)
      · rw [emit_env, hb] at hbk
        rw [emit_env, hdraw] at hfk
        rw [played_readFails hw hp hpol hk hbk (hcount _ hak) hfk]
        exact .readFails k rfl hpol hk hbk (hcount _ hak) hfk
      · rw [emit_env, hb] at hbk
        rw [emit_env, hdraw] at hfk
        rw [played_readNever hw hp hpol hk hbk (hcount _ hak) hfk]
        exact .readNever k rfl hpol hk hbk (hcount _ hak) hfk
  · subst he
    rw [played_fails hp ha hf]
    exact .writeFails pre l v post rfl ha hf
  · subst he
    rw [played_never hp ha hf]
    exact .writeNever pre l v post rfl ha hf

end Sys2Proof.Machine
end

