-- ==== Sys2Proof/Laws/HostOps.lean ====
section
/-! SUPPORT. What a host operation does, said once for all seven: it plays its events, waits where it ends with a busy
wait, and returns Ok, returns Err, or is stuck (10_state.md R52; 60_exceptions.md R305, R308). -/

namespace Sys2Proof.Machine

/-- The outcome of the host operation `i`, issued in `s`, whose events ended as the result says. -/
def hostEnd (i : Instr) (op : HostOp) (d : Datapath) (p : PState) (s : State) :
    Res → Host.Outcome State Fault Refusal
  | .done t => .next
    { t with
      dp := d
      pos := .idle
      status := okStatus i s
      ghost :=
        { pstate := pstateOnOk op s.ghost.pstate
          lutOk := lutOkOnOk s.cfg i s.ghost.lutOk
          protocolViolation := violationAfter op s.ghost.pstate s.ghost.protocolViolation
          frameUndefined := frameUndefinedOnOk op s.ghost.pstate s.ghost.frameUndefined }
      host :=
        { s.host with
          revResults := { raised := none, status := okStatus i s } :: s.host.revResults
          runEnded := false } }
  | .raised e t => .next (hostErr i op e d t s)
  | .stuck t => .fault (.gpioNeverReturns
    { t with
      dp := d
      ghost := { t.ghost with pstate := p, lutOk := lutOkOnErr i t.ghost.lutOk } })

/-! ### Items that can be planned -/

theorem framedByte_planned (r : Role) (v : Byte) : (framedByte r v).all isPlanned = true := rfl
theorem transportByte_planned (v : Byte) : (transportByte v).all isPlanned = true := rfl
theorem accesses_framedByte (r : Role) (v : Byte) : accesses (framedByte r v) = 30 := rfl
theorem accesses_transportByte (v : Byte) : accesses (transportByte v) = 26 := rfl

/-- An item that can be planned. -/
def plannedItem : WireItem → Bool
  | .framed .. => true
  | .single e => isPlanned e

theorem eventsOf_planned (is : List WireItem) (h : is.all plannedItem = true) :
    (eventsOf is).all isPlanned = true := by
  induction is with
  | nil => rfl
  | cons i is ih =>
    simp only [List.all_cons, Bool.and_eq_true] at h
    rw [eventsOf_cons, List.all_append, ih h.2]
    cases i with
    | framed r v => rfl
    | single e => simpa [itemEvents, plannedItem] using h.1

theorem cmdItems_planned (op : Byte) (ds : List Byte) : (cmdItems op ds).all plannedItem = true := by
  simp only [cmdItems, List.all_cons, plannedItem, Bool.true_and, List.all_eq_true, List.mem_map]
  rintro _ ⟨d, _, rfl⟩
  rfl

theorem writeLutItems_planned (c : Cfg) (m : RefreshMode) : (writeLutItems c m).all plannedItem = true := by
  cases m with
  | full => exact cmdItems_planned _ _
  | partialRefresh => exact cmdItems_planned _ _
  | unrecognised =>
    show (if c.invalidModeSendsLutCmd then cmdItems c.opWriteLut [] else []).all plannedItem = true
    cases c.invalidModeSendsLutCmd <;> rfl

theorem lutLoadItems_planned (c : Cfg) (mode : Byte) : (lutLoadItems c mode).all plannedItem = true := by
  unfold lutLoadItems
  cases decodeMode c mode with
  | full => exact writeLutItems_planned c _
  | partialRefresh => exact writeLutItems_planned c _
  | unrecognised => rw [List.all_append, writeLutItems_planned]; rfl

theorem activationItems_planned (c : Cfg) : (activationItems c).all plannedItem = true := rfl

theorem frameItems_planned (c : Cfg) (src : Source) : (frameItems c src).all plannedItem = true := by
  have hrows : ((List.range c.height).flatMap (rowItems c src)).all plannedItem = true := by
    rw [List.all_flatMap, List.all_eq_true]
    intro y _
    simp only [rowItems, setCursorItems, List.all_append, cmdItems_planned, Bool.and_self]
  simp only [frameItems, setWindowItems, List.all_append, cmdItems_planned, hrows, activationItems_planned,
    Bool.and_self]

theorem initItems_planned (c : Cfg) (mode : Byte) : (initItems c mode).all plannedItem = true := by
  simp only [initItems, registerLoadItems, List.all_append, cmdItems_planned, lutLoadItems_planned, Bool.and_true]
  rfl

theorem hostItems_planned (c : Cfg) (i : Instr) : (hostItems c i).all plannedItem = true := by
  cases i <;> first
    | rfl
    | exact initItems_planned c _
    | exact frameItems_planned c _

/-! ### The seven operations -/

/-- A host operation whose body plays its events and then writes the ghost state by `g`. -/
theorem runHostOp_flags {i : Instr} {op : HostOp} {body : Op} {es : List Event} {waits : Bool} {g : Ghost → Ghost}
    {s : State} (hw : s.cfg.wf = true) (hp : es.all isPlanned = true) (hi : initMode i = none) (hop : op ≠ .init)
    (hb : ∃ d, body (startOp op s) = thenFlags d g id (played es waits (startOp op s)))
    (hg : g (startOp op s).ghost =
      { pstate := pstateOnOk op s.ghost.pstate
        lutOk := s.ghost.lutOk
        protocolViolation := violationAfter op s.ghost.pstate s.ghost.protocolViolation
        frameUndefined := frameUndefinedOnOk op s.ghost.pstate s.ghost.frameUndefined }) :
    ∃ d, runHostOp op body s = hostEnd i op d s.ghost.pstate s (played es waits (startOp op s)) := by
  obtain ⟨d, hd⟩ := hb
  have hwarn : warnsInvalidMode s.cfg i = false := by simp [warnsInvalidMode, hi]
  have hok : statusOnOk (statusOnStart s.status) = okStatus i s := by
    simp [statusOnOk, statusOnStart, okStatus, hwarn]
  have hviol : (startOp op s).ghost.protocolViolation
      = violationAfter op s.ghost.pstate s.ghost.protocolViolation := by
    cases op <;> simp [violationAfter, validIn] at hop ⊢
  have hend := played_ending es waits (startOp op s) hw hp
  generalize played es waits (startOp op s) = r at hend hd
  refine ⟨d, ?_⟩
  unfold runHostOp
  rw [if_pos hw, hd]
  have herr : ∀ (e : Raise) (es' : List Event) (t : State), t = emit es' (startOp op s) ∨
      t = useAnswer (emit es' (startOp op s)) →
      (Host.Outcome.next (abortOp e (withScratch d t)) : Host.Outcome State Fault Refusal)
        = .next (hostErr i op e d t s) := by
    intro e es' t ht
    have hpst : pstateOnRaise t.pos t.ghost.pstate = pstateOnErr op s.ghost.pstate := by
      rcases ht with rfl | rfl <;> cases op <;> rfl
    have hst : statusOnRaise e t.status = errStatus e s := by
      rcases ht with rfl | rfl <;> rfl
    have hl : t.ghost.lutOk = lutOkOnErr i s.ghost.lutOk := by
      rcases ht with rfl | rfl <;> simp [lutOkOnErr, hi, useAnswer]
    have hv : t.ghost.protocolViolation = violationAfter op s.ghost.pstate s.ghost.protocolViolation := by
      rcases ht with rfl | rfl <;> exact hviol
    have hh : t.host = s.host := by rcases ht with rfl | rfl <;> rfl
    simp only [abortOp, hostErr, withScratch, receive, hpst, hst, hl, hv, hh, Option.isSome_some]
  have hstuck : ∀ es' : List Event,
      (Host.Outcome.fault (Fault.gpioNeverReturns (withScratch d (emit es' (startOp op s)))) :
        Host.Outcome State Fault Refusal)
        = hostEnd i op d s.ghost.pstate s (.stuck (emit es' (startOp op s))) := by
    intro es'
    have hl : lutOkOnErr i (emit es' (startOp op s)).ghost.lutOk = (emit es' (startOp op s)).ghost.lutOk := by
      simp [lutOkOnErr, hi]
    simp only [hostEnd, hl]
    rfl
  cases hend with
  | done w hwait ha =>
    have hg' : g (emit (es ++ eventsOf w) (startOp op s)).ghost = _ := hg
    have hl : lutOkOnOk s.cfg i s.ghost.lutOk = s.ghost.lutOk := by simp [lutOkOnOk, hi]
    simp only [thenFlags, hostEnd, returnOk, retouch, hg', receive, emit_status, startOp_status, hok, hl, id,
      emit_host, startOp_host, Option.isSome_none]
  | writeFails pre l v post he ha hf => exact herr _ _ _ (.inl rfl)
  | writeNever pre l v post he ha hf => exact hstuck _
  | timeout _ hpol hwait ha => exact herr _ _ _ (.inl rfl)
  | readFails k _ hpol hk hb' ha hf => exact herr _ _ _ (.inr rfl)
  | readNever k _ hpol hk hb' ha hf => exact hstuck _

theorem played_noWait (es : List Event) (s : State) : played es false s = replay es s := by
  simp only [played, Bool.false_eq_true, if_false, seqOp_skip]

theorem busyWait_replays_tail {c : Cfg} {send : Op} {es : List Event} (h : ReplaysAt c send es) :
    ∀ s : State, s.cfg = c → ∃ d, seqOp send busyWait s = resWithScratch d (played es true s) := by
  intro s hs
  obtain ⟨d, hd⟩ := h s hs
  have busyWait_retouch : ∀ t : State, busyWait (withScratch d t) = resWithScratch d (busyWait t) := by
    have hloop : ∀ (c : Cfg) (n elapsed : Nat) (t : State),
        pollLoop c n elapsed (withScratch d t) = resWithScratch d (pollLoop c n elapsed t) := by
      intro c n
      induction n with
      | zero =>
        intro elapsed t
        rw [pollLoop]
        rcases gpioReadBusy_cases (fun b => if b ≠ c.busyActiveLevel then skip else fun s => .raised (.busyTimeout elapsed) s) t
          with ⟨h, e⟩ | ⟨h, e⟩ | ⟨h, e⟩
        · rw [e, gpioReadBusy_ok (show nextDraw (withScratch d t).env.gpio = .ok from h)]
          show (if nextDraw t.env.busy ≠ c.busyActiveLevel then skip else fun s => .raised (.busyTimeout elapsed) s) _ = _
          split <;> rfl
        · rw [e, gpioReadBusy_fails (show nextDraw (withScratch d t).env.gpio = .fails from h)]; rfl
        · rw [e, gpioReadBusy_never (show nextDraw (withScratch d t).env.gpio = .neverReturns from h)]; rfl
      | succ n ih =>
        intro elapsed t
        rw [pollLoop]
        rcases gpioReadBusy_cases (fun b => if b ≠ c.busyActiveLevel then skip
            else if c.tBusyTimeoutMs ≤ elapsed then fun s => .raised (.busyTimeout elapsed) s
            else seqOp (delay c.tPollMs) (pollLoop c n (elapsed + c.tPollMs))) t
          with ⟨h, e⟩ | ⟨h, e⟩ | ⟨h, e⟩
        · rw [e, gpioReadBusy_ok (show nextDraw (withScratch d t).env.gpio = .ok from h)]
          show (if nextDraw t.env.busy ≠ c.busyActiveLevel then skip
            else if c.tBusyTimeoutMs ≤ elapsed then fun s => .raised (.busyTimeout elapsed) s
            else seqOp (delay c.tPollMs) (pollLoop c n (elapsed + c.tPollMs))) _ = _
          split
          · rfl
          · split
            · rfl
            · rw [seqOp_done (delay_eq _ _), seqOp_done (delay_eq _ _), ← ih]; rfl
        · rw [e, gpioReadBusy_fails (show nextDraw (withScratch d t).env.gpio = .fails from h)]; rfl
        · rw [e, gpioReadBusy_never (show nextDraw (withScratch d t).env.gpio = .neverReturns from h)]; rfl
    intro t
    rw [busyWait, withCfg_eq, withCfg_eq, withScratch_cfg]
    cases t.cfg.busyPolicy with
    | fixedDelay => simp only [delay_eq]; rfl
    | poll => exact hloop _ _ _ t
  refine ⟨d, ?_⟩
  rw [played, if_pos rfl]
  unfold seqOp
  rw [hd]
  cases replay es s with
  | done t => exact busyWait_retouch t
  | raised e t => rfl
  | stuck t => rfl

/-- INIT (43_sequencer.md R230). -/
theorem runHostOp_init {mode : Byte} {s : State} (hw : s.cfg.wf = true) :
    ∃ d p, runHostOp .init (initBody mode) s
      = hostEnd (.init mode) .init d p s (played (eventsOf (initItems s.cfg mode)) false (startOp .init s)) := by
  obtain ⟨d, p, hd⟩ := initBody_plays s.cfg hw mode (startOp .init s) rfl
  have hp : (eventsOf (initItems s.cfg mode)).all isPlanned = true := eventsOf_planned _ (initItems_planned _ _)
  have hend := played_ending _ false (startOp .init s) hw hp
  rw [← played_noWait] at hd
  generalize played (eventsOf (initItems s.cfg mode)) false (startOp .init s) = r at hend hd
  refine ⟨d, p, ?_⟩
  unfold runHostOp
  rw [if_pos hw, hd]
  have hviol : (startOp .init s).ghost.protocolViolation = s.ghost.protocolViolation := by
    simp [startOp, validIn]
  cases hend with
  | done w hwait ha =>
    have hst : statusOnOk (lutLoadStatus s.cfg mode (statusOnStart s.status)) = okStatus (.init mode) s := by
      by_cases h : decodeMode s.cfg mode = .unrecognised <;>
        simp [lutLoadStatus, okStatus, warnsInvalidMode, initMode, h, statusOnOk, statusOnStart]
    have hgh : ({ lutLoadGhost s.cfg mode { (startOp .init s).ghost with lutOk := false } with
          pstate := .ready } : Ghost) =
        { pstate := pstateOnOk .init s.ghost.pstate
          lutOk := lutOkOnOk s.cfg (.init mode) s.ghost.lutOk
          protocolViolation := violationAfter .init s.ghost.pstate s.ghost.protocolViolation
          frameUndefined := frameUndefinedOnOk .init s.ghost.pstate s.ghost.frameUndefined } := by
      by_cases h : decodeMode s.cfg mode = .unrecognised <;>
        simp [lutLoadGhost, h, pstateOnOk, lutOkOnOk, initMode, violationAfter, frameUndefinedOnOk, validIn]
    simp only [resMap, retouch, finish, hostEnd, returnOk, id, emit_ghost, emit_status, emit_host, startOp_status,
      startOp_host, hst, receive, hgh, Option.isSome_none]
  | writeFails pre l v post he ha hf =>
    simp only [resMap, retouch, finish, hostEnd, abortOp, hostErr, receive, emit_ghost, emit_status, emit_host,
      emit_pos, startOp_status, startOp_host, startOp_pos, advanceBy, pstateOnRaise, pstateOnErr, lutOkOnErr, initMode,
      violationAfter, hviol, Option.isSome_some, id]
    rfl
  | writeNever pre l v post he ha hf =>
    simp only [resMap, retouch, finish, hostEnd, lutOkOnErr, initMode, id]
  | timeout h => cases h
  | readFails k h => cases h
  | readNever k h => cases h

/-- A host operation, in a well-formed configuration: its events, played and waited for, decide its outcome. Stuck, only
an INIT has moved PSTATE. -/
theorem exec_host {i : Instr} {op : HostOp} {s : State} (hi : hostOpOf i = some op) (hw : s.cfg.wf = true) :
    ∃ d p, (op = .init ∨ p = s.ghost.pstate) ∧ exec i s
      = hostEnd i op d p s (played (eventsOf (hostItems s.cfg i)) (waitsAtEnd op) (startOp op s)) := by
  have keep : ∀ {body : Op}, (∃ d, runHostOp op body s = hostEnd i op d s.ghost.pstate s
        (played (eventsOf (hostItems s.cfg i)) (waitsAtEnd op) (startOp op s))) →
      ∃ d p, (op = .init ∨ p = s.ghost.pstate) ∧ runHostOp op body s
        = hostEnd i op d p s (played (eventsOf (hostItems s.cfg i)) (waitsAtEnd op) (startOp op s)) :=
    fun ⟨d, h⟩ => ⟨d, _, .inr rfl, h⟩
  have hplan : (eventsOf (hostItems s.cfg i)).all isPlanned = true := eventsOf_planned _ (hostItems_planned _ _)
  have noFlag : ∀ {es : List Event} {body : Op}, ReplaysAt s.cfg body es →
      ∃ d, body (startOp op s) = thenFlags d id id (played es false (startOp op s)) := by
    intro es body h
    obtain ⟨d, hd⟩ := h.then (startOp op s) rfl
    exact ⟨d, by rw [hd, played_noWait]⟩
  have frame : ∀ src, ∃ d, frameBody src (startOp op s)
      = thenFlags d (fun g => if s.ghost.pstate = .ready then { g with frameUndefined := false } else g) id
        (played (eventsOf (frameItems s.cfg src)) true (startOp op s)) := by
    intro src
    obtain ⟨d, hd⟩ := busyWait_replays_tail (frameSend_replays s.cfg hw src) (startOp op s) rfl
    refine ⟨d, ?_⟩
    rw [frameBody, inOrder_cons, inOrder_cons, inOrder_nil, seqOp_skip]
    unfold seqOp
    rw [streamFrame_eq, show (startOp op s).cfg = s.cfg from rfl, hd, startOp_pstate]
    by_cases h : s.ghost.pstate = .ready
    · simp only [h, if_true]
      cases played (eventsOf (frameItems s.cfg src)) true (startOp op s) <;> rfl
    · simp only [h, if_false]
      cases played (eventsOf (frameItems s.cfg src)) true (startOp op s) <;> rfl
  cases i with
  | init mode =>
    obtain rfl : HostOp.init = op := by simpa [hostOpOf] using hi
    obtain ⟨d, p, h⟩ := runHostOp_init (mode := mode) hw
    exact ⟨d, p, .inl rfl, h⟩
  | clear =>
    obtain rfl : HostOp.clear = op := by simpa [hostOpOf] using hi
    refine keep (runHostOp_flags hw hplan rfl (by decide) (frame .const) ?_)
    by_cases h : s.ghost.pstate = .ready <;>
      simp [startOp, h, pstateOnOk, violationAfter, frameUndefinedOnOk, validIn]
  | display buf =>
    obtain rfl : HostOp.display = op := by simpa [hostOpOf] using hi
    refine keep (runHostOp_flags hw hplan rfl (by decide) (frame (.buffer buf)) ?_)
    by_cases h : s.ghost.pstate = .ready <;>
      simp [startOp, h, pstateOnOk, violationAfter, frameUndefinedOnOk, validIn]
  | sleep =>
    obtain rfl : HostOp.sleep = op := by simpa [hostOpOf] using hi
    refine keep (runHostOp_flags (g := fun g => if s.ghost.pstate = .ready then { g with pstate := .sleeping } else g)
      hw hplan rfl (by decide) ?_ ?_)
    · obtain ⟨d, hd⟩ := deepSleep_replays s.cfg (startOp .sleep s) rfl
      refine ⟨d, ?_⟩
      have hpl : played (eventsOf (hostItems s.cfg .sleep)) (waitsAtEnd .sleep) (startOp .sleep s)
          = replay (eventsOf (cmdItems s.cfg.opDeepSleep [s.cfg.dDeepSleep])) (startOp .sleep s) := played_noWait _ _
      rw [sleepBody, inOrder_cons, inOrder_cons, inOrder_nil, seqOp_skip, hpl]
      unfold seqOp
      rw [hd, startOp_pstate]
      by_cases h : s.ghost.pstate = .ready
      · simp only [h, if_true]
        cases replay (eventsOf (cmdItems s.cfg.opDeepSleep [s.cfg.dDeepSleep])) (startOp .sleep s) <;> rfl
      · simp only [h, if_false]
        cases replay (eventsOf (cmdItems s.cfg.opDeepSleep [s.cfg.dDeepSleep])) (startOp .sleep s) <;> rfl
    · by_cases h : s.ghost.pstate = .ready <;>
        simp [startOp, h, pstateOnOk, violationAfter, frameUndefinedOnOk, validIn]
  | setWindow xs ys xe ye =>
    obtain rfl : HostOp.setWindow = op := by simpa [hostOpOf] using hi
    refine keep (runHostOp_flags hw hplan rfl (by decide) (noFlag (setWindowBody_replays s.cfg _ _ _ _)) ?_)
    simp [startOp, pstateOnOk, violationAfter, frameUndefinedOnOk, validIn]
  | setCursor x y =>
    obtain rfl : HostOp.setCursor = op := by simpa [hostOpOf] using hi
    refine keep (runHostOp_flags hw hplan rfl (by decide) (noFlag (setCursorBody_replays s.cfg _ _)) ?_)
    simp [startOp, pstateOnOk, violationAfter, frameUndefinedOnOk, validIn]
  | turnonDisplay =>
    obtain rfl : HostOp.turnonDisplay = op := by simpa [hostOpOf] using hi
    refine keep (runHostOp_flags (g := id) hw hplan rfl (by decide) ?_ ?_)
    · obtain ⟨d, hd⟩ := busyWait_replays_tail (activation_replays s.cfg) (startOp .turnonDisplay s) rfl
      refine ⟨d, ?_⟩
      have hbody : turnonDisplayBody
          = seqOp (inOrder [displayUpdateCtrl2, masterActivation, terminateFrameRw]) busyWait := by
        have h := inOrder_append [displayUpdateCtrl2, masterActivation, terminateFrameRw] [busyWait]
        rw [show inOrder [busyWait] = busyWait from seqOp_skip busyWait] at h
        exact h
      rw [hbody, hd]
      show _ = thenFlags d id id (played (eventsOf (activationItems s.cfg)) true (startOp .turnonDisplay s))
      cases played (eventsOf (activationItems s.cfg)) true (startOp .turnonDisplay s) <;> rfl
    · simp [startOp, pstateOnOk, violationAfter, frameUndefinedOnOk, validIn]
  | writeByte _ | writeBytes _ | sendDataInternal _ _ | sendCmd _ | sendData _ | configure | reset | registerLoad
  | lutLoad _ | busyWait | streamFrame _ | driverOutputControl | boosterSoftStart | writeVcom | dummyLinePeriod
  | gateTime | borderWaveform | dataEntryMode | writeLut _ | ramXWindow _ _ | ramYWindow _ _ | ramXCounter _
  | ramYCounter _ | writeRam _ | displayUpdateCtrl2 | masterActivation | terminateFrameRw | deepSleep =>
    cases hi

end Sys2Proof.Machine
end

