-- ==== Sys2Proof/Laws/InnerOps.lean ====
section
/-! SUPPORT. What a micro-operation or a command frame does when it is run as an instruction of its own, said once for all
28: it plays its events, waits where it ends with a busy wait, and completes, is aborted, or is stuck. -/

namespace Sys2Proof.Machine

/-- The outcome of the micro-operation or frame `i` whose events ended as the result says. -/
def innerEnd (c : Cfg) (i : Instr) (d : Datapath) : Res → Host.Outcome State Fault Refusal
  | .done t => .next { t with dp := d, ghost := innerGhost c i t.ghost, status := innerStatus c i t.status }
  | .raised e t => .next (abortOp e (withScratch d t))
  | .stuck t => .fault (.gpioNeverReturns (withScratch d t))

theorem runInner_then {i : Instr} {body : Op} {es : List Event} {s : State} {g f} (hw : s.cfg.wf = true)
    (h : ReplaysThen s.cfg body es g f) (hg : ∀ x, g x = innerGhost s.cfg i x)
    (hf : ∀ x, f x = innerStatus s.cfg i x) :
    ∃ d, runInner body s = innerEnd s.cfg i d (played es false s) := by
  obtain ⟨d, hd⟩ := h s rfl
  refine ⟨d, ?_⟩
  unfold runInner
  rw [if_pos hw, hd, played_noWait]
  cases replay es s with
  | done t => simp only [thenFlags, retouch, innerEnd, hg, hf]
  | raised e t => rfl
  | stuck t => rfl

theorem runInner_replays {i : Instr} {body : Op} {es : List Event} {s : State} (hw : s.cfg.wf = true)
    (h : ReplaysAt s.cfg body es) (hg : ∀ x, innerGhost s.cfg i x = x) (hf : ∀ x, innerStatus s.cfg i x = x) :
    ∃ d, runInner body s = innerEnd s.cfg i d (played es false s) :=
  runInner_then hw h.then (fun x => (hg x).symm) (fun x => (hf x).symm)

theorem runInner_waits {i : Instr} {send : Op} {body : Op} {es : List Event} {s : State} (hw : s.cfg.wf = true)
    (h : ReplaysAt s.cfg send es) (hb : body s = seqOp send busyWait s) (hg : ∀ x, innerGhost s.cfg i x = x)
    (hf : ∀ x, innerStatus s.cfg i x = x) : ∃ d, runInner body s = innerEnd s.cfg i d (played es true s) := by
  obtain ⟨d, hd⟩ := busyWait_replays_tail h s rfl
  refine ⟨d, ?_⟩
  unfold runInner
  rw [if_pos hw, hb, hd]
  cases played es true s with
  | done t => simp only [resWithScratch, innerEnd, hg, hf]; rfl
  | raised e t => rfl
  | stuck t => rfl

/-- A micro-operation or a command frame, in a well-formed configuration: its events, played and waited for, decide its
outcome. -/
theorem exec_inner {i : Instr} {s : State} (hi : hostOpOf i = none) (hw : s.cfg.wf = true) :
    ∃ d, exec i s = innerEnd s.cfg i d (played (innerEvents s.cfg i) (innerWaits i) s) := by
  have plain : ∀ {body : Op} {es : List Event}, ReplaysAt s.cfg body es → (∀ x, innerGhost s.cfg i x = x) →
      (∀ x, innerStatus s.cfg i x = x) → ∃ d, runInner body s = innerEnd s.cfg i d (played es false s) :=
    fun h hg hf => runInner_replays hw h hg hf
  cases i with
  | init _ | clear | display _ | sleep | setWindow _ _ _ _ | setCursor _ _ | turnonDisplay => cases hi
  | writeByte v => exact plain (writeByte_replays _ v) (fun _ => rfl) (fun _ => rfl)
  | writeBytes bytes => exact plain (writeBytes_replays _ bytes) (fun _ => rfl) (fun _ => rfl)
  | sendDataInternal v b => exact plain (sendDataInternal_replays _ v b) (fun _ => rfl) (fun _ => rfl)
  | sendCmd v => exact plain (sendCmd_replays _ v) (fun _ => rfl) (fun _ => rfl)
  | sendData v => exact plain (sendData_replays _ v) (fun _ => rfl) (fun _ => rfl)
  | configure => exact runInner_then hw (configure_then _) (fun _ => rfl) (fun _ => rfl)
  | reset => exact runInner_then hw (reset_then _) (fun _ => rfl) (fun _ => rfl)
  | registerLoad => exact runInner_then hw (registerLoad_then _) (fun _ => rfl) (fun _ => rfl)
  | lutLoad mode => exact runInner_then hw (lutLoad_then _ hw mode) (fun _ => rfl) (fun _ => rfl)
  | busyWait =>
    exact runInner_waits hw (ReplaysAt.skip s.cfg) (by rw [skip_seqOp]) (fun _ => rfl) (fun _ => rfl)
  | streamFrame src =>
    exact runInner_waits hw (frameSend_replays _ hw src) (streamFrame_eq src s) (fun _ => rfl) (fun _ => rfl)
  | driverOutputControl => exact plain (driverOutputControl_replays _) (fun _ => rfl) (fun _ => rfl)
  | boosterSoftStart => exact plain (boosterSoftStart_replays _) (fun _ => rfl) (fun _ => rfl)
  | writeVcom => exact plain (writeVcom_replays _) (fun _ => rfl) (fun _ => rfl)
  | dummyLinePeriod => exact plain (dummyLinePeriod_replays _) (fun _ => rfl) (fun _ => rfl)
  | gateTime => exact plain (gateTime_replays _) (fun _ => rfl) (fun _ => rfl)
  | borderWaveform => exact plain (borderWaveform_replays _) (fun _ => rfl) (fun _ => rfl)
  | dataEntryMode => exact plain (dataEntryMode_replays _) (fun _ => rfl) (fun _ => rfl)
  | writeLut m => exact plain (writeLut_replays _ hw m) (fun _ => rfl) (fun _ => rfl)
  | ramXWindow xs xe => exact plain (ramXWindow_replays _ _ _) (fun _ => rfl) (fun _ => rfl)
  | ramYWindow ys ye => exact plain (ramYWindow_replays _ _ _) (fun _ => rfl) (fun _ => rfl)
  | ramXCounter x => exact plain (ramXCounter_replays _ _) (fun _ => rfl) (fun _ => rfl)
  | ramYCounter y => exact plain (ramYCounter_replays _ _) (fun _ => rfl) (fun _ => rfl)
  | writeRam bytes => exact plain (writeRam_replays _ _) (fun _ => rfl) (fun _ => rfl)
  | displayUpdateCtrl2 => exact plain (displayUpdateCtrl2_replays _) (fun _ => rfl) (fun _ => rfl)
  | masterActivation => exact plain (masterActivation_replays _) (fun _ => rfl) (fun _ => rfl)
  | terminateFrameRw =>
    have h := terminateFrameRw_replays s.cfg
    rw [eventsOf_cons, eventsOf_nil, List.append_nil] at h
    exact plain h (fun _ => rfl) (fun _ => rfl)
  | deepSleep => exact plain (deepSleep_replays _) (fun _ => rfl) (fun _ => rfl)

theorem innerEvents_planned (c : Cfg) (i : Instr) : (innerEvents c i).all isPlanned = true := by
  cases i with
  | writeBytes bytes =>
    show (bytes.flatMap transportByte).all isPlanned = true
    rw [List.all_flatMap, List.all_eq_true]
    intro v _
    exact transportByte_planned v
  | registerLoad =>
    exact eventsOf_planned _ (by simp only [registerLoadItems, List.all_append, cmdItems_planned, Bool.and_self])
  | lutLoad mode => exact eventsOf_planned _ (lutLoadItems_planned c mode)
  | streamFrame src => exact eventsOf_planned _ (frameItems_planned c src)
  | writeLut m => exact eventsOf_planned _ (writeLutItems_planned c m)
  | writeRam bytes => exact eventsOf_planned _ (cmdItems_planned _ _)
  | init _ | clear | display _ | sleep | setWindow _ _ _ _ | setCursor _ _ | turnonDisplay | writeByte _
  | sendDataInternal _ _ | sendCmd _ | sendData _ | configure | reset | busyWait | driverOutputControl
  | boosterSoftStart | writeVcom | dummyLinePeriod | gateTime | borderWaveform | dataEntryMode | ramXWindow _ _
  | ramYWindow _ _ | ramXCounter _ | ramYCounter _ | displayUpdateCtrl2 | masterActivation | terminateFrameRw
  | deepSleep => rfl

end Sys2Proof.Machine
end

