-- ==== Sys2Proof/Laws/Answers.lean ====
section
/-! SUPPORT. The outcomes of `exec` in the terms of Safety.lean: the answers of a host operation one by one, and what holds
of every instruction: the events it performed are its planned ones, up to a failure, and the lines, the trace and the time
follow them. -/

namespace Sys2Proof.Machine

/-! ### Forward: from the environment's draws to the outcome -/

theorem host_ok {i : Instr} {op : HostOp} {s : State} {w : List WireItem} (hi : hostOpOf i = some op)
    (hw : s.cfg.wf = true) (hwait : waitTail s.cfg s.env.busy (waitsAtEnd op) = some w)
    (ha : answersOk (accesses (eventsOf (hostItems s.cfg i)) + accesses (eventsOf w)) s.env.gpio = true) :
    ∃ d, exec i s = .next (hostOk i op (eventsOf (hostItems s.cfg i) ++ eventsOf w) d s) := by
  obtain ⟨d, p, hp0, h⟩ := exec_host hi hw
  rw [played_ok (s := startOp op s) hw (eventsOf_planned _ (hostItems_planned _ _)) hwait ha] at h
  exact ⟨d, h⟩

theorem host_writeFails {i : Instr} {op : HostOp} {s : State} {pre post : List Event} {l : OutLine} {v : Level}
    (hi : hostOpOf i = some op) (hw : s.cfg.wf = true) (he : eventsOf (hostItems s.cfg i) = pre ++ .w l v :: post)
    (ha : answersOk (accesses pre) s.env.gpio = true)
    (hf : nextDraw (drawsAfter (accesses pre) s.env.gpio) = .fails) :
    ∃ d, exec i s = .next (hostErr i op (.ioWrite l v) d (emit (pre ++ [.f l v]) s) s) := by
  obtain ⟨d, p, hp0, h⟩ := exec_host hi hw
  have hp := eventsOf_planned _ (hostItems_planned s.cfg i)
  rw [he] at h hp
  rw [played_fails (s := startOp op s) hp ha hf] at h
  exact ⟨d, h⟩

theorem host_writeNever {i : Instr} {op : HostOp} {s : State} {pre post : List Event} {l : OutLine} {v : Level}
    (hi : hostOpOf i = some op) (hw : s.cfg.wf = true) (he : eventsOf (hostItems s.cfg i) = pre ++ .w l v :: post)
    (ha : answersOk (accesses pre) s.env.gpio = true)
    (hf : nextDraw (drawsAfter (accesses pre) s.env.gpio) = .neverReturns) :
    ∃ d p, (op = .init ∨ p = s.ghost.pstate) ∧
      exec i s = hostEnd i op d p s (.stuck (emit pre (startOp op s))) := by
  obtain ⟨d, p, hp0, h⟩ := exec_host hi hw
  have hp := eventsOf_planned _ (hostItems_planned s.cfg i)
  rw [he] at h hp
  rw [played_never (s := startOp op s) hp ha hf] at h
  exact ⟨d, p, hp0, h⟩

theorem host_timeout {i : Instr} {op : HostOp} {s : State} (hi : hostOpOf i = some op) (hop : waitsAtEnd op = true)
    (hw : s.cfg.wf = true) (hwait : waitItems s.cfg s.env.busy = none)
    (ha : answersOk (accesses (eventsOf (hostItems s.cfg i)) + (pollBound s.cfg + 1)) s.env.gpio = true) :
    ∃ d, exec i s = .next (hostErr i op (.busyTimeout (pollBound s.cfg * s.cfg.tPollMs)) d
      (emit (eventsOf (hostItems s.cfg i) ++ eventsOf (timeoutItems s.cfg)) s) s) := by
  obtain ⟨d, p, hp0, h⟩ := exec_host hi hw
  rw [hop, played_timeout (s := startOp op s) hw (eventsOf_planned _ (hostItems_planned _ _)) hwait ha] at h
  exact ⟨d, h⟩

theorem host_readFails {i : Instr} {op : HostOp} {s : State} {k : Nat} (hi : hostOpOf i = some op)
    (hop : waitsAtEnd op = true) (hw : s.cfg.wf = true) (hpol : s.cfg.busyPolicy = .poll) (hk : k ≤ pollBound s.cfg)
    (hb : busyFor s.cfg.busyActiveLevel k s.env.busy = true)
    (ha : answersOk (accesses (eventsOf (hostItems s.cfg i)) + k) s.env.gpio = true)
    (hf : nextDraw (drawsAfter (accesses (eventsOf (hostItems s.cfg i)) + k) s.env.gpio) = .fails) :
    ∃ d, exec i s = .next (hostErr i op .ioReadBusy d
      (useAnswer (emit (eventsOf (hostItems s.cfg i) ++ eventsOf (busyTurns s.cfg k)) s)) s) := by
  obtain ⟨d, p, hp0, h⟩ := exec_host hi hw
  rw [hop, played_readFails (s := startOp op s) hw (eventsOf_planned _ (hostItems_planned _ _)) hpol hk hb ha hf] at h
  exact ⟨d, h⟩

theorem host_readNever {i : Instr} {op : HostOp} {s : State} {k : Nat} (hi : hostOpOf i = some op)
    (hop : waitsAtEnd op = true) (hw : s.cfg.wf = true) (hpol : s.cfg.busyPolicy = .poll) (hk : k ≤ pollBound s.cfg)
    (hb : busyFor s.cfg.busyActiveLevel k s.env.busy = true)
    (ha : answersOk (accesses (eventsOf (hostItems s.cfg i)) + k) s.env.gpio = true)
    (hf : nextDraw (drawsAfter (accesses (eventsOf (hostItems s.cfg i)) + k) s.env.gpio) = .neverReturns) :
    ∃ d p, (op = .init ∨ p = s.ghost.pstate) ∧ exec i s = hostEnd i op d p s
      (.stuck (emit (eventsOf (hostItems s.cfg i) ++ eventsOf (busyTurns s.cfg k)) (startOp op s))) := by
  obtain ⟨d, p, hp0, h⟩ := exec_host hi hw
  rw [hop, played_readNever (s := startOp op s) hw (eventsOf_planned _ (hostItems_planned _ _)) hpol hk hb ha hf] at h
  exact ⟨d, p, hp0, h⟩

theorem inner_ok {i : Instr} {s : State} {w : List WireItem} (hi : hostOpOf i = none) (hw : s.cfg.wf = true)
    (hwait : waitTail s.cfg s.env.busy (innerWaits i) = some w)
    (ha : answersOk (accesses (innerEvents s.cfg i) + accesses (eventsOf w)) s.env.gpio = true) :
    ∃ d, exec i s = .next { emit (innerEvents s.cfg i ++ eventsOf w) s with
      dp := d, ghost := innerGhost s.cfg i s.ghost, status := innerStatus s.cfg i s.status } := by
  obtain ⟨d, h⟩ := exec_inner hi hw
  rw [played_ok hw (innerEvents_planned _ _) hwait ha] at h
  exact ⟨d, h⟩

/-- The abort of a micro-operation or frame run alone is `innerErr`. -/
theorem abortOp_inner {e : Raise} {d : Datapath} {t s : State} {es : List Event}
    (h : t = emit es s ∨ t = useAnswer (emit es s)) : abortOp e (withScratch d t) = innerErr e d t s := by
  have hp : pstateOnRaise t.pos t.ghost.pstate = pstateOnRaise s.pos s.ghost.pstate := by
    have ha : ∀ n p, pstateOnRaise (advanceBy n s.pos) p = pstateOnRaise s.pos p := by
      intro n p
      cases hs : s.pos with
      | idle => rfl
      | running op k => cases op <;> rfl
    rcases h with rfl | rfl <;> exact ha _ _
  have hst : t.status = s.status := by rcases h with rfl | rfl <;> rfl
  have hgh : t.ghost = s.ghost := by rcases h with rfl | rfl <;> rfl
  have hh : t.host = s.host := by rcases h with rfl | rfl <;> rfl
  rw [hgh] at hp
  simp only [abortOp, innerErr, withScratch, receive, hgh, hp, hst, hh, Option.isSome_some]

theorem inner_writeFails {i : Instr} {s : State} {pre post : List Event} {l : OutLine} {v : Level}
    (hi : hostOpOf i = none) (hw : s.cfg.wf = true) (he : innerEvents s.cfg i = pre ++ .w l v :: post)
    (ha : answersOk (accesses pre) s.env.gpio = true)
    (hf : nextDraw (drawsAfter (accesses pre) s.env.gpio) = .fails) :
    ∃ d, exec i s = .next (innerErr (.ioWrite l v) d (emit (pre ++ [.f l v]) s) s) := by
  obtain ⟨d, h⟩ := exec_inner hi hw
  have hp := innerEvents_planned s.cfg i
  rw [he] at h hp
  rw [played_fails hp ha hf] at h
  exact ⟨d, h.trans (congrArg _ (abortOp_inner (.inl rfl)))⟩

theorem inner_writeNever {i : Instr} {s : State} {pre post : List Event} {l : OutLine} {v : Level}
    (hi : hostOpOf i = none) (hw : s.cfg.wf = true) (he : innerEvents s.cfg i = pre ++ .w l v :: post)
    (ha : answersOk (accesses pre) s.env.gpio = true)
    (hf : nextDraw (drawsAfter (accesses pre) s.env.gpio) = .neverReturns) :
    ∃ d, exec i s = .fault (.gpioNeverReturns (withScratch d (emit pre s))) := by
  obtain ⟨d, h⟩ := exec_inner hi hw
  have hp := innerEvents_planned s.cfg i
  rw [he] at h hp
  rw [played_never hp ha hf] at h
  exact ⟨d, h⟩

theorem inner_timeout {i : Instr} {s : State} (hi : hostOpOf i = none) (hwt : innerWaits i = true)
    (hw : s.cfg.wf = true) (hwait : waitItems s.cfg s.env.busy = none)
    (ha : answersOk (accesses (innerEvents s.cfg i) + (pollBound s.cfg + 1)) s.env.gpio = true) :
    ∃ d, exec i s = .next (innerErr (.busyTimeout (pollBound s.cfg * s.cfg.tPollMs)) d
      (emit (innerEvents s.cfg i ++ eventsOf (timeoutItems s.cfg)) s) s) := by
  obtain ⟨d, h⟩ := exec_inner hi hw
  rw [hwt, played_timeout hw (innerEvents_planned _ _) hwait ha] at h
  exact ⟨d, h.trans (congrArg _ (abortOp_inner (.inl rfl)))⟩

theorem inner_readFails {i : Instr} {s : State} {k : Nat} (hi : hostOpOf i = none) (hwt : innerWaits i = true)
    (hw : s.cfg.wf = true) (hpol : s.cfg.busyPolicy = .poll) (hk : k ≤ pollBound s.cfg)
    (hb : busyFor s.cfg.busyActiveLevel k s.env.busy = true)
    (ha : answersOk (accesses (innerEvents s.cfg i) + k) s.env.gpio = true)
    (hf : nextDraw (drawsAfter (accesses (innerEvents s.cfg i) + k) s.env.gpio) = .fails) :
    ∃ d, exec i s = .next (innerErr .ioReadBusy d
      (useAnswer (emit (innerEvents s.cfg i ++ eventsOf (busyTurns s.cfg k)) s)) s) := by
  obtain ⟨d, h⟩ := exec_inner hi hw
  rw [hwt, played_readFails hw (innerEvents_planned _ _) hpol hk hb ha hf] at h
  exact ⟨d, h.trans (congrArg _ (abortOp_inner (.inr rfl)))⟩

theorem inner_readNever {i : Instr} {s : State} {k : Nat} (hi : hostOpOf i = none) (hwt : innerWaits i = true)
    (hw : s.cfg.wf = true) (hpol : s.cfg.busyPolicy = .poll) (hk : k ≤ pollBound s.cfg)
    (hb : busyFor s.cfg.busyActiveLevel k s.env.busy = true)
    (ha : answersOk (accesses (innerEvents s.cfg i) + k) s.env.gpio = true)
    (hf : nextDraw (drawsAfter (accesses (innerEvents s.cfg i) + k) s.env.gpio) = .neverReturns) :
    ∃ d, exec i s = .fault (.gpioNeverReturns
      (withScratch d (emit (innerEvents s.cfg i ++ eventsOf (busyTurns s.cfg k)) s))) := by
  obtain ⟨d, h⟩ := exec_inner hi hw
  rw [hwt, played_readNever hw (innerEvents_planned _ _) hpol hk hb ha hf] at h
  exact ⟨d, h⟩

/-! ### Backward: what an outcome can be -/

/-- The instruction is refused in a configuration that is not well formed (log entry 5). -/
theorem exec_illFormed {s : State} (i : Instr) (hw : s.cfg.wf = false) : exec i s = .refused .illFormedConfig := by
  have h1 : ∀ op body, runHostOp op body s = .refused .illFormedConfig := by
    intro op body; unfold runHostOp; rw [hw]; rfl
  have h2 : ∀ body, runInner body s = .refused .illFormedConfig := by
    intro body; unfold runInner; rw [hw]; rfl
  cases i <;> first | exact h1 _ _ | exact h2 _

/-- An outcome that is no refusal comes from a well-formed configuration. -/
theorem wf_of_exec {i : Instr} {s t : State}
    (h : exec i s = .next t ∨ exec i s = .fault (.gpioNeverReturns t)) : s.cfg.wf = true := by
  cases hw : s.cfg.wf with
  | true => rfl
  | false => rw [exec_illFormed i hw] at h; rcases h with h | h <;> cases h

/-- How a host operation that answers a next state can have ended. -/
inductive HostAnswer (i : Instr) (op : HostOp) (s : State) : State → Prop
  | ok (w : List WireItem) (d : Datapath) (hwait : waitTail s.cfg s.env.busy (waitsAtEnd op) = some w)
      (ha : answersOk (accesses (eventsOf (hostItems s.cfg i)) + accesses (eventsOf w)) s.env.gpio = true) :
      HostAnswer i op s (hostOk i op (eventsOf (hostItems s.cfg i) ++ eventsOf w) d s)
  | writeFails (pre : List Event) (l : OutLine) (v : Level) (post : List Event) (d : Datapath)
      (he : eventsOf (hostItems s.cfg i) = pre ++ .w l v :: post)
      (ha : answersOk (accesses pre) s.env.gpio = true)
      (hf : nextDraw (drawsAfter (accesses pre) s.env.gpio) = .fails) :
      HostAnswer i op s (hostErr i op (.ioWrite l v) d (emit (pre ++ [.f l v]) s) s)
  | timeout (d : Datapath) (hop : waitsAtEnd op = true) (hpol : s.cfg.busyPolicy = .poll)
      (hwait : waitItems s.cfg s.env.busy = none)
      (ha : answersOk (accesses (eventsOf (hostItems s.cfg i)) + (pollBound s.cfg + 1)) s.env.gpio = true) :
      HostAnswer i op s (hostErr i op (.busyTimeout (pollBound s.cfg * s.cfg.tPollMs)) d
        (emit (eventsOf (hostItems s.cfg i) ++ eventsOf (timeoutItems s.cfg)) s) s)
  | readFails (k : Nat) (d : Datapath) (hop : waitsAtEnd op = true) (hpol : s.cfg.busyPolicy = .poll)
      (hk : k ≤ pollBound s.cfg) (hb : busyFor s.cfg.busyActiveLevel k s.env.busy = true)
      (ha : answersOk (accesses (eventsOf (hostItems s.cfg i)) + k) s.env.gpio = true)
      (hf : nextDraw (drawsAfter (accesses (eventsOf (hostItems s.cfg i)) + k) s.env.gpio) = .fails) :
      HostAnswer i op s (hostErr i op .ioReadBusy d
        (useAnswer (emit (eventsOf (hostItems s.cfg i) ++ eventsOf (busyTurns s.cfg k)) s)) s)

/-- At which access a host operation can wait for ever: the events it performed before. -/
inductive HostStuck (i : Instr) (op : HostOp) (s : State) : List Event → Prop
  | write (pre : List Event) (l : OutLine) (v : Level) (post : List Event)
      (he : eventsOf (hostItems s.cfg i) = pre ++ .w l v :: post)
      (ha : answersOk (accesses pre) s.env.gpio = true)
      (hf : nextDraw (drawsAfter (accesses pre) s.env.gpio) = .neverReturns) : HostStuck i op s pre
  | read (k : Nat) (hop : waitsAtEnd op = true) (hpol : s.cfg.busyPolicy = .poll) (hk : k ≤ pollBound s.cfg)
      (hb : busyFor s.cfg.busyActiveLevel k s.env.busy = true)
      (ha : answersOk (accesses (eventsOf (hostItems s.cfg i)) + k) s.env.gpio = true)
      (hf : nextDraw (drawsAfter (accesses (eventsOf (hostItems s.cfg i)) + k) s.env.gpio) = .neverReturns) :
      HostStuck i op s (eventsOf (hostItems s.cfg i) ++ eventsOf (busyTurns s.cfg k))

/-- The same access of the operation never returns wherever the configuration and the draws are the same. -/
theorem host_stuck {i : Instr} {op : HostOp} {s : State} {pre : List Event} (hi : hostOpOf i = some op)
    (hw : s.cfg.wf = true) (h : HostStuck i op s pre) :
    ∃ d p, (op = .init ∨ p = s.ghost.pstate) ∧
      exec i s = hostEnd i op d p s (.stuck (emit pre (startOp op s))) := by
  cases h with
  | write pre l v post he ha hf => exact host_writeNever hi hw he ha hf
  | read k hop hpol hk hb ha hf => exact host_readNever hi hop hw hpol hk hb ha hf

/-- Every outcome of a host operation in a well-formed configuration. -/
theorem host_outcome {i : Instr} {op : HostOp} {s : State} (hi : hostOpOf i = some op) (hw : s.cfg.wf = true) :
    (∃ t, exec i s = .next t ∧ HostAnswer i op s t) ∨
    (∃ pre d p, (op = .init ∨ p = s.ghost.pstate) ∧
      exec i s = hostEnd i op d p s (.stuck (emit pre (startOp op s))) ∧ HostStuck i op s pre) := by
  obtain ⟨d, p, hp0, h⟩ := exec_host hi hw
  have hend := played_ending (eventsOf (hostItems s.cfg i)) (waitsAtEnd op) (startOp op s) hw
    (eventsOf_planned _ (hostItems_planned _ _))
  generalize played (eventsOf (hostItems s.cfg i)) (waitsAtEnd op) (startOp op s) = r at h hend
  cases hend with
  | done w hwait ha => exact .inl ⟨_, h, .ok w d hwait ha⟩
  | writeFails pre l v post he ha hf => exact .inl ⟨_, h, .writeFails pre l v post d he ha hf⟩
  | writeNever pre l v post he ha hf => exact .inr ⟨pre, d, p, hp0, h, .write pre l v post he ha hf⟩
  | timeout hop hpol hwait ha => exact .inl ⟨_, h, .timeout d hop hpol hwait ha⟩
  | readFails k hop hpol hk hb ha hf => exact .inl ⟨_, h, .readFails k d hop hpol hk hb ha hf⟩
  | readNever k hop hpol hk hb ha hf => exact .inr ⟨_, d, p, hp0, h, .read k hop hpol hk hb ha hf⟩

theorem hostAnswer {i : Instr} {op : HostOp} {s t : State} (hi : hostOpOf i = some op) (h : exec i s = .next t) :
    HostAnswer i op s t := by
  rcases host_outcome hi (wf_of_exec (.inl h)) with ⟨t', h', ha⟩ | ⟨pre, d, p, _, h', _⟩
  · rw [h] at h'; cases h'; exact ha
  · rw [h] at h'; cases h'

/-- The state in which a host operation waits for ever: its events are those before the access, and it has written its
scratch registers and, in INIT, PSTATE and LUT_OK (10_state.md R47, R52; log entry 2). -/
theorem hostWaits {i : Instr} {op : HostOp} {s b : State} (hi : hostOpOf i = some op)
    (h : exec i s = .fault (.gpioNeverReturns b)) :
    ∃ pre d p, (op = .init ∨ p = s.ghost.pstate) ∧ HostStuck i op s pre ∧
      b = { emit pre (startOp op s) with
        dp := d
        ghost := { (startOp op s).ghost with pstate := p, lutOk := lutOkOnErr i s.ghost.lutOk } } := by
  rcases host_outcome hi (wf_of_exec (.inr h)) with ⟨t', h', _⟩ | ⟨pre, d, p, hp0, h', hs⟩
  · rw [h] at h'; cases h'
  · rw [h] at h'
    cases h'
    exact ⟨pre, d, p, hp0, hs, rfl⟩

/-! ### What holds of every instruction -/

/-- The events of an instruction before its busy wait, or all of them where it has none. -/
def plannedEvents (c : Cfg) (i : Instr) : List Event :=
  match hostOpOf i with
  | some _ => eventsOf (hostItems c i)
  | none => innerEvents c i

theorem plannedEvents_host {i : Instr} {op : HostOp} (c : Cfg) (h : hostOpOf i = some op) :
    plannedEvents c i = eventsOf (hostItems c i) := by rw [plannedEvents, h]

theorem plannedEvents_inner {i : Instr} (c : Cfg) (h : hostOpOf i = none) : plannedEvents c i = innerEvents c i := by
  rw [plannedEvents, h]

/-- An event of a busy wait. -/
def isWaitEvent : Event → Bool
  | .rd _ | .dly _ => true
  | .w .. | .f .. | .warn _ => false

/-- The events performed out of the planned ones: all of them and then a wait, or those up to a write that fails or
never returns. -/
inductive Performed (planned : List Event) : List Event → Prop
  | all (wait : List Event) (h : wait.all isWaitEvent = true) : Performed planned (planned ++ wait)
  | failed (pre : List Event) (l : OutLine) (v : Level) (post : List Event) (h : planned = pre ++ .w l v :: post) :
      Performed planned (pre ++ [.f l v])
  | stuck (pre : List Event) (l : OutLine) (v : Level) (post : List Event) (h : planned = pre ++ .w l v :: post) :
      Performed planned pre

theorem eventsOf_busyTurns_wait (c : Cfg) (k : Nat) : (eventsOf (busyTurns c k)).all isWaitEvent = true := by
  induction k with
  | zero => rfl
  | succ k ih =>
    rw [busyTurns_succ, eventsOf_cons, eventsOf_cons, List.all_append, List.all_append, ih]
    rfl

theorem waitTail_wait {c : Cfg} {busy : Draws Level} {waits : Bool} {w : List WireItem}
    (h : waitTail c busy waits = some w) : (eventsOf w).all isWaitEvent = true := by
  cases waits with
  | false =>
    obtain rfl : [] = w := by simpa [waitTail] using h
    rfl
  | true =>
    simp only [waitTail, if_true, waitItems] at h
    split at h
    · obtain rfl : fixedWaitItems c = w := by simpa using h
      rfl
    · obtain ⟨⟨k, b⟩, _, rfl⟩ := Option.map_eq_some_iff.mp h
      rw [pollWaitItems_eq, eventsOf_append, List.all_append, eventsOf_busyTurns_wait]
      rfl

theorem timeoutItems_wait (c : Cfg) : (eventsOf (timeoutItems c)).all isWaitEvent = true := by
  rw [timeoutItems, pollWaitItems_eq, eventsOf_append, List.all_append, eventsOf_busyTurns_wait]
  rfl

/-- What changes along the events `es`: nothing of the configuration, of the program or of the host's position. -/
structure Follows (s t : State) (es : List Event) : Prop where
  trace : t.trace = s.trace ++ es
  lines : t.lines = linesAfter s.lines es
  cfg : t.cfg = s.cfg
  blockedMs : t.blockedMs = s.blockedMs + delayedMs s.env.late es
  program : t.host.program = s.host.program
  index : t.host.index = s.host.index

theorem follows_of_fields {s t u : State} {es : List Event} (h : Follows s u es) (h1 : t.revTrace = u.revTrace)
    (h2 : t.lines = u.lines) (h3 : t.cfg = u.cfg) (h4 : t.blockedMs = u.blockedMs)
    (h5 : t.host.program = u.host.program) (h6 : t.host.index = u.host.index) : Follows s t es :=
  ⟨by rw [State.trace, h1]; exact h.trace, h2.trans h.lines, h3.trans h.cfg, h4.trans h.blockedMs,
    h5.trans h.program, h6.trans h.index⟩

theorem follows_emit (es : List Event) (s : State) : Follows s (emit es s) es :=
  ⟨emit_trace es s, rfl, rfl, rfl, rfl, rfl⟩

/-- Whatever an instruction does, its state follows the events it performed. -/
theorem exec_follows {i : Instr} {s t : State}
    (h : exec i s = .next t ∨ exec i s = .fault (.gpioNeverReturns t)) :
    ∃ es, Performed (plannedEvents s.cfg i) es ∧ Follows s t es := by
  have hw := wf_of_exec h
  have hf : ∀ {u : State} {es : List Event}, u = emit es s → t.revTrace = u.revTrace → t.lines = u.lines →
      t.cfg = u.cfg → t.blockedMs = u.blockedMs → t.host.program = u.host.program → t.host.index = u.host.index →
      Follows s t es := by
    intro u es hu
    subst hu
    exact follows_of_fields (follows_emit es s)
  cases hi : hostOpOf i with
  | some op =>
    rw [plannedEvents_host _ hi]
    rcases host_outcome hi hw with ⟨t', h', ha⟩ | ⟨pre, d, p, _, h', hpre⟩
    · rw [h'] at h
      rcases h with h | h <;> cases h
      cases ha with
      | ok w d hwait ha => exact ⟨_, .all _ (waitTail_wait hwait), hf rfl rfl rfl rfl rfl rfl rfl⟩
      | writeFails pre l v post d he ha hf' => exact ⟨_, .failed pre l v post he, hf rfl rfl rfl rfl rfl rfl rfl⟩
      | timeout d hop hpol hwait ha => exact ⟨_, .all _ (timeoutItems_wait _), hf rfl rfl rfl rfl rfl rfl rfl⟩
      | readFails k d hop hpol hk hb ha hf' =>
        exact ⟨_, .all _ (eventsOf_busyTurns_wait _ _), hf rfl rfl rfl rfl rfl rfl rfl⟩
    · rw [h'] at h
      rcases h with h | h <;> cases h
      cases hpre with
      | write _ l v post he ha hf' => exact ⟨_, .stuck pre l v post he, hf rfl rfl rfl rfl rfl rfl rfl⟩
      | read k hop hpol hk hb ha hf' =>
        exact ⟨_, .all _ (eventsOf_busyTurns_wait _ _), hf rfl rfl rfl rfl rfl rfl rfl⟩
  | none =>
    rw [plannedEvents_inner _ hi]
    obtain ⟨d, h'⟩ := exec_inner hi hw
    have hend := played_ending (innerEvents s.cfg i) (innerWaits i) s hw (innerEvents_planned _ _)
    generalize played (innerEvents s.cfg i) (innerWaits i) s = r at h' hend
    rw [h'] at h
    cases hend with
    | done w hwait ha =>
      rcases h with h | h <;> cases h
      exact ⟨_, .all _ (waitTail_wait hwait), hf rfl rfl rfl rfl rfl rfl rfl⟩
    | writeFails pre l v post he ha hf' =>
      rcases h with h | h <;> cases h
      exact ⟨_, .failed pre l v post he, hf rfl rfl rfl rfl rfl rfl rfl⟩
    | writeNever pre l v post he ha hf' =>
      rcases h with h | h <;> cases h
      exact ⟨_, .stuck pre l v post he, hf rfl rfl rfl rfl rfl rfl rfl⟩
    | timeout hop hpol hwait ha =>
      rcases h with h | h <;> cases h
      exact ⟨_, .all _ (timeoutItems_wait _), hf rfl rfl rfl rfl rfl rfl rfl⟩
    | readFails k hop hpol hk hb ha hf' =>
      rcases h with h | h <;> cases h
      exact ⟨_, .all _ (eventsOf_busyTurns_wait _ _), hf rfl rfl rfl rfl rfl rfl rfl⟩
    | readNever k hop hpol hk hb ha hf' =>
      rcases h with h | h <;> cases h
      exact ⟨_, .all _ (eventsOf_busyTurns_wait _ _), hf rfl rfl rfl rfl rfl rfl rfl⟩

/-- The list of events performed is the list by which the trace grew. -/
theorem trace_unique {s t : State} {es fs : List Event} (h1 : t.trace = s.trace ++ es) (h2 : t.trace = s.trace ++ fs) :
    es = fs := List.append_cancel_left (h1.symm.trans h2)

end Sys2Proof.Machine
end

