-- ==== Sys2Proof/Laws/Assembler.lean ====
section
/-! SUPPORT. What the assembler reads (30_encoding.md R130): one lemma for each function of Machine/Assembler.lean, saying
when it gives what. -/

namespace Sys2Proof.Machine

/-- The digits among the characters below 128. -/
theorem digitValue_small : ∀ n, n < 128 → ∀ d, d < 16 →
    (digitValue (Char.ofNat n) = some d ↔ digitChars[d]? = some (Char.ofNat n).toLower) := by
  decide +kernel

/-- A digit's value is below 16, and the digit is one of the characters below 128. -/
theorem digitValue_lt {ch : Char} {d : Nat} (h : digitValue ch = some d) : d < 16 ∧ ch.toNat < 128 := by
  simp only [digitValue] at h
  split at h
  · cases h; omega
  · split at h
    · cases h; omega
    · split at h
      · cases h; omega
      · cases h

/-- A character has the value of its place among the digits, in either case. -/
theorem digitValue_iff (ch : Char) (d : Nat) : digitValue ch = some d ↔ digitChars[d]? = some ch.toLower := by
  have hofn : Char.ofNat ch.toNat = ch := Char.ofNat_toNat ch
  by_cases hs : ch.toNat < 128
  · by_cases hd : d < 16
    · rw [← hofn]; exact digitValue_small _ hs _ hd
    · refine ⟨fun h => absurd (digitValue_lt h).1 hd, fun h => ?_⟩
      have := (List.getElem?_eq_some_iff.mp h).1
      exact absurd this hd
  · refine ⟨fun h => absurd (digitValue_lt h).2 hs, fun h => ?_⟩
    have hu : ch.toLower = ch := by
      unfold Char.toLower
      rw [dif_neg]
      intro h
      have h90 : ch.toNat ≤ 90 := UInt32.le_iff_toNat_le.mp h.2
      omega
    rw [hu] at h
    have := List.mem_of_getElem? h
    simp [digitChars] at this
    rcases this with rfl | rfl | rfl | rfl | rfl | rfl | rfl | rfl | rfl | rfl | rfl | rfl | rfl | rfl | rfl | rfl <;>
      exact absurd (by decide) hs

/-- The place of a digit, said with its index. -/
theorem digitValue_idxOf (ch : Char) (d : Nat) :
    digitValue ch = some d ↔ ch.toLower ∈ digitChars ∧ d = digitChars.idxOf ch.toLower := by
  rw [digitValue_iff]
  have hn : digitChars.Nodup := by decide
  refine ⟨fun h => ?_, fun ⟨hm, h⟩ => ?_⟩
  · obtain ⟨hl, he⟩ := List.getElem?_eq_some_iff.mp h
    exact ⟨List.mem_of_getElem? h, by rw [← he, hn.idxOf_getElem]⟩
  · subst h; exact List.getElem?_idxOf hm

/-- The digits of a base are those of a value below it. -/
theorem mem_take_digits {base : Nat} (ch : Char) :
    ch ∈ digitChars.take base ↔ ch ∈ digitChars ∧ digitChars.idxOf ch < base := by
  have hn : digitChars.Nodup := by decide
  refine ⟨fun h => ⟨List.mem_of_mem_take h, ?_⟩, fun ⟨hm, h⟩ => ?_⟩
  · obtain ⟨k, hk, rfl⟩ := List.mem_iff_getElem.mp h
    rw [List.getElem_take, hn.idxOf_getElem]
    exact (List.length_take_le base digitChars).trans_lt' hk
  · exact List.mem_iff_getElem?.mpr
      ⟨digitChars.idxOf ch, (List.getElem?_take_of_lt h).trans (List.getElem?_idxOf hm)⟩

/-- What a sequence of digits is read as. -/
theorem readDigits_iff (base : Nat) (t : List Char) (value n : Nat) : readDigits base value t = some n ↔
    (∀ ch ∈ t, ch.toLower ∈ digitChars.take base) ∧
      n = t.foldl (fun m ch => base * m + digitChars.idxOf ch.toLower) value := by
  induction t generalizing value with
  | nil => simp [readDigits, eq_comm]
  | cons ch rest ih =>
    simp only [readDigits, List.forall_mem_cons, List.foldl_cons]
    cases hd : digitValue ch with
    | none =>
      refine ⟨fun h => by simp at h, fun ⟨⟨h, _⟩, _⟩ => ?_⟩
      have := (digitValue_idxOf ch _).mpr ⟨List.mem_of_mem_take h, rfl⟩
      rw [hd] at this; cases this
    | some d =>
      obtain ⟨hm, rfl⟩ := (digitValue_idxOf ch d).mp hd
      dsimp only
      rw [mem_take_digits ch.toLower]
      by_cases hb : digitChars.idxOf ch.toLower < base
      · simp [hb, hm, ih, Nat.mul_comm]
      · simp [hb]

/-- What a number is read as. -/
theorem readNumber_iff (t : List Char) (n : Nat) : readNumber t = some n ↔ NumberText t n := by
  unfold NumberText DigitsText readNumber
  split
  · simp
  · rename_i d ds
    rw [readDigits_iff]
    constructor
    · intro h; exact .inr ⟨_, rfl, by simp, h⟩
    · rintro (⟨_, h, _⟩ | ⟨ds', h1, _, h2⟩)
      · exact absurd (h 'x' (by simp)) (by decide)
      · cases h1; exact h2
  · rename_i d ds hne
    rw [readDigits_iff]
    constructor
    · intro h; exact .inl ⟨by simp, h⟩
    · rintro (⟨_, h⟩ | ⟨ds', h1, h2, h3⟩)
      · exact h
      · cases ds' with
        | nil => exact absurd rfl h2
        | cons a as => cases h1; exact absurd rfl (hne a as rfl)

/-- What a coordinate is read as. -/
theorem readCoord_iff (t : List Char) (v : Coord) : readCoord t = some v ↔ NumberText t v.toNat := by
  rw [← readNumber_iff]
  unfold readCoord
  cases h : readNumber t with
  | none => simp
  | some n =>
    dsimp only
    split
    · rename_i hn
      rw [Option.some_inj, Option.some_inj, ← BitVec.toNat_inj, BitVec.toNat_ofNat, Nat.mod_eq_of_lt hn]
    · rename_i hn
      have := v.isLt
      simp only [reduceCtorEq, false_iff, Option.some_inj]
      omega

/-- A mode is read from a text that writes it. -/
theorem modeText_of_readMode {c : Cfg} {t : List Char} {mode : Byte} (h : readMode c t = some mode) :
    ModeText c t mode := by
  unfold readMode at h
  split at h
  · cases h; exact .inl ⟨‹_›, rfl⟩
  · split at h
    · cases h; exact .inr (.inl ⟨‹_›, rfl⟩)
    · cases hn : readNumber t with
      | none => rw [hn] at h; cases h
      | some n =>
        rw [hn] at h
        dsimp only at h
        split at h
        · cases h
          refine .inr (.inr ((readNumber_iff _ _).mp ?_))
          rw [hn, BitVec.toNat_ofNat, Nat.mod_eq_of_lt ‹_›]
        · cases h

/-- A text that writes a mode is read as some mode. -/
theorem readMode_of_modeText {c : Cfg} {t : List Char} {mode : Byte} (h : ModeText c t mode) :
    ∃ m, readMode c t = some m := by
  unfold readMode
  split
  · exact ⟨_, rfl⟩
  · split
    · exact ⟨_, rfl⟩
    · rcases h with ⟨rfl, _⟩ | ⟨rfl, _⟩ | h
      · exact absurd rfl ‹_›
      · exact absurd rfl ‹_›
      · rw [(readNumber_iff _ _).mpr h]
        exact ⟨_, if_pos mode.isLt⟩

/-- The name of an operation is read as it. -/
theorem readMnemonic_iff (name : List Char) (m : Mnemonic) : readMnemonic name = some m ↔ name = mnemonicText m := by
  constructor
  · intro h
    have := List.find?_some h
    exact (beq_iff_eq.mp this).symm
  · rintro rfl; cases m <;> decide

/-- The instruction read from a line is one that the line names. -/
theorem lineNames_of_readLine {c : Cfg} {buffers : List NamedBuffer} {line : List Char} {i : Instr}
    (h : readLine c buffers line = some i) : LineNames c buffers line i := by
  unfold readLine at h
  rcases hl : lineParts line with ⟨name, operands⟩
  rw [hl] at h
  dsimp only at h
  split at h
  · rename_i m hm
    obtain rfl := (readMnemonic_iff _ _).mp hm
    unfold readOperation at h
    split at h
    · obtain ⟨x, hx, rfl⟩ := Option.map_eq_some_iff.mp h; exact .init _ x hl (modeText_of_readMode hx)
    · obtain ⟨x, hx, rfl⟩ := Option.map_eq_some_iff.mp h; exact .reinit _ x hl (modeText_of_readMode hx)
    · cases h; exact .clear hl
    · cases h; exact .turnonDisplay hl
    · cases h; exact .sleep hl
    · cases h; exact .fullWindow hl
    · obtain ⟨x, hx, rfl⟩ := Option.map_eq_some_iff.mp h
      have hn := List.find?_some hx
      exact .display x (by rw [beq_iff_eq.mp hn]; exact hl) (List.mem_of_find?_eq_some hx)
    · split at h
      · cases h
        exact .setWindow _ _ _ _ _ _ _ _ hl ((readCoord_iff _ _).mp ‹_›) ((readCoord_iff _ _).mp ‹_›)
          ((readCoord_iff _ _).mp ‹_›) ((readCoord_iff _ _).mp ‹_›)
      · cases h
    · split at h
      · cases h; exact .setCursor _ _ _ _ hl ((readCoord_iff _ _).mp ‹_›) ((readCoord_iff _ _).mp ‹_›)
      · cases h
    · cases h
  · cases h

/-- A line that names an operation is read as one. -/
theorem readLine_of_lineNames {c : Cfg} {buffers : List NamedBuffer} {line : List Char} {i : Instr}
    (h : LineNames c buffers line i) : ∃ i', readLine c buffers line = some i' := by
  have go : ∀ (m : Mnemonic) ops, lineParts line = (mnemonicText m, ops) →
      readLine c buffers line = readOperation c buffers m ops := by
    intro m ops h
    unfold readLine
    rw [h]
    dsimp only
    rw [(readMnemonic_iff _ m).mpr rfl]
  cases h with
  | init t mode h hm =>
    obtain ⟨m, h'⟩ := readMode_of_modeText hm
    exact ⟨_, (go .init _ h).trans (by rw [readOperation, h']; rfl)⟩
  | reinit t mode h hm =>
    obtain ⟨m, h'⟩ := readMode_of_modeText hm
    exact ⟨_, (go .reinit _ h).trans (by rw [readOperation, h']; rfl)⟩
  | clear h => exact ⟨_, go .clear _ h⟩
  | display b h hb =>
    obtain ⟨x, hx⟩ := Option.isSome_iff_exists.mp
      (List.find?_isSome (p := fun x : NamedBuffer => x.name == b.name) |>.mpr ⟨b, hb, beq_self_eq_true _⟩)
    exact ⟨_, (go .display _ h).trans (by rw [readOperation, hx]; rfl)⟩
  | setWindow t1 t2 t3 t4 xs ys xe ye h h1 h2 h3 h4 =>
    exact ⟨_, (go .setWindow _ h).trans (by
      rw [readOperation, (readCoord_iff _ _).mpr h1, (readCoord_iff _ _).mpr h2, (readCoord_iff _ _).mpr h3,
        (readCoord_iff _ _).mpr h4])⟩
  | fullWindow h => exact ⟨_, go .fullWindow _ h⟩
  | setCursor t1 t2 x y h h1 h2 =>
    exact ⟨_, (go .setCursor _ h).trans (by
      rw [readOperation, (readCoord_iff _ _).mpr h1, (readCoord_iff _ _).mpr h2])⟩
  | turnonDisplay h => exact ⟨_, go .turnonDisplay _ h⟩
  | sleep h => exact ⟨_, go .sleep _ h⟩

/-- The instructions of a list of lines: one for each line that holds an operation, in order. -/
theorem readLines_iff (c : Cfg) (buffers : List NamedBuffer) (lines : List (List Char)) (is : List Instr) :
    readLines c buffers lines = some is ↔
      List.Forall₂ (fun line i => readLine c buffers line = some i)
        (lines.filter fun line => !isEmptyLine line) is := by
  induction lines generalizing is with
  | nil => simp [readLines, eq_comm]
  | cons line rest ih =>
    unfold readLines
    cases he : isEmptyLine line with
    | true =>
      rw [List.filter_cons_of_neg (by simp [he]), ← ih]
      cases readLines c buffers rest <;> simp
    | false =>
      rw [List.filter_cons_of_pos (by simp [he]), List.forall₂_cons_left_iff]
      simp only [← ih]
      cases hr : readLine c buffers line <;> cases hs : readLines c buffers rest <;> simp [eq_comm]

/-- The entries of a text: the words of the instructions of its operation lines, in order. -/
theorem assemble_iff (c : Cfg) (buffers : List NamedBuffer) (text : List Char) (program : List Issue) :
    assemble c buffers text = some program ↔
      ∃ is, List.Forall₂ (fun line i => readLine c buffers line = some i) (operationLines text) is ∧
        program = is.map fun i => { space := spaceOf i, word := encode i } := by
  rw [assemble, Option.map_eq_some_iff]
  exact exists_congr fun is => and_congr (readLines_iff c buffers _ is) eq_comm

/-- The instruction read from a line is a well-formed host operation where the named buffers fit the length field. -/
theorem readLine_wellFormed {c : Cfg} {buffers : List NamedBuffer} {line : List Char} {i : Instr}
    (hb : ∀ b ∈ buffers, fitsLength32 b.bytes = true) (h : readLine c buffers line = some i) :
    ∃ op, hostOpOf i = some op ∧ i.wellFormed c = true := by
  cases lineNames_of_readLine h with
  | display b _ hm => exact ⟨_, rfl, hb b hm⟩
  | _ => exact ⟨_, rfl, rfl⟩

end Sys2Proof.Machine
end

