-- ==== Sys2Proof/Laws/PerInstr.lean ====
section
/-! SUPPORT. Per-instruction lemmas: decoding the word of a well-formed instruction gives the instruction back (family
Codec). -/

namespace Sys2Proof.Laws

/-! ### The operand fields -/

theorem le16_bytes16 (v : Coord) : le16 (v.extractLsb' 0 8) (v.extractLsb' 8 8) = v := by
  rw [le16]
  apply BitVec.eq_of_getLsbD_eq
  intro k hk
  rw [BitVec.getLsbD_append]
  by_cases h : k < 8
  · simp [h]
  · have h8 : 8 + (k - 8) = k := by omega
    have hlt : k - 8 < 8 := by omega
    simp [h, hlt, h8]

theorem bytes16_le16 (l h : Byte) : bytes16 (le16 l h) = [l, h] := by
  have bit : ∀ k, (le16 l h).getLsbD k = if k < 8 then l.getLsbD k else h.getLsbD (k - 8) := by
    intro k
    exact (BitVec.getLsbD_append (x := h) (y := l) (i := k)).trans (by by_cases hk : k < 8 <;> simp [hk])
  have e0 : (le16 l h).extractLsb' 0 8 = l := by
    apply BitVec.eq_of_getLsbD_eq
    intro k hk
    rw [BitVec.getLsbD_extractLsb', bit, if_pos (by omega)]
    simp [hk]
  have e1 : (le16 l h).extractLsb' 8 8 = h := by
    apply BitVec.eq_of_getLsbD_eq
    intro k hk
    rw [BitVec.getLsbD_extractLsb', bit, if_neg (by omega)]
    simp [hk]
  rw [bytes16, e0, e1]

theorem le32_bytes32 (n : Nat) (h : n < 2 ^ 32) :
    le32 (BitVec.ofNat 8 n) (BitVec.ofNat 8 (n / 256)) (BitVec.ofNat 8 (n / 65536)) (BitVec.ofNat 8 (n / 16777216))
      = n := by
  simp only [le32, BitVec.toNat_ofNat]
  omega

theorem bytes32_le32 (b0 b1 b2 b3 : Byte) : bytes32 (le32 b0 b1 b2 b3) = [b0, b1, b2, b3] := by
  have h0 := b0.isLt
  have h1 := b1.isLt
  have h2 := b2.isLt
  have h3 := b3.isLt
  have e0 : BitVec.ofNat 8 (le32 b0 b1 b2 b3) = b0 := by
    apply BitVec.eq_of_toNat_eq; simp only [le32, BitVec.toNat_ofNat]; omega
  have e1 : BitVec.ofNat 8 (le32 b0 b1 b2 b3 / 256) = b1 := by
    apply BitVec.eq_of_toNat_eq; simp only [le32, BitVec.toNat_ofNat]; omega
  have e2 : BitVec.ofNat 8 (le32 b0 b1 b2 b3 / 65536) = b2 := by
    apply BitVec.eq_of_toNat_eq; simp only [le32, BitVec.toNat_ofNat]; omega
  have e3 : BitVec.ofNat 8 (le32 b0 b1 b2 b3 / 16777216) = b3 := by
    apply BitVec.eq_of_toNat_eq; simp only [le32, BitVec.toNat_ofNat]; omega
  rw [bytes32, e0, e1, e2, e3]

theorem decodeBytes_bytesWithLength (f : List Byte → Instr) (s : List Byte) (h : fitsLength32 s = true) :
    decodeBytes f (bytesWithLength s) = .ok (f s) := by
  have hl : s.length < 2 ^ 32 := of_decide_eq_true h
  simp only [bytesWithLength, bytes32, List.cons_append, List.nil_append, decodeBytes, le32_bytes32 _ hl, if_true]

/-! ### What a decoding of operand bytes tells -/

theorem decode0_ok {i j : Instr} {ops : List Byte} (h : decode0 i ops = .ok j) : j = i ∧ ops = [] := by
  cases ops with
  | nil => cases h; exact ⟨rfl, rfl⟩
  | cons a as => simp [decode0] at h

theorem decode8_ok {f : Byte → Except Reject Instr} {ops : List Byte} {j : Instr} (h : decode8 f ops = .ok j) :
    ∃ b, ops = [b] ∧ f b = .ok j := by
  unfold decode8 at h
  split at h
  · exact ⟨_, rfl, h⟩
  · cases h

theorem decode8x2_ok {f : Byte → Byte → Except Reject Instr} {ops : List Byte} {j : Instr}
    (h : decode8x2 f ops = .ok j) : ∃ a b, ops = [a, b] ∧ f a b = .ok j := by
  unfold decode8x2 at h
  split at h
  · exact ⟨_, _, rfl, h⟩
  · cases h

theorem decode16_ok {f : Coord → Instr} {ops : List Byte} {j : Instr} (h : decode16 f ops = .ok j) :
    ∃ x, ops = bytes16 x ∧ f x = j := by
  unfold decode16 at h
  split at h
  · cases h; exact ⟨_, (bytes16_le16 _ _).symm, rfl⟩
  · cases h

theorem decode16x2_ok {f : Coord → Coord → Instr} {ops : List Byte} {j : Instr} (h : decode16x2 f ops = .ok j) :
    ∃ x y, ops = bytes16 x ++ bytes16 y ∧ f x y = j := by
  unfold decode16x2 at h
  split at h
  · cases h; exact ⟨_, _, by rw [bytes16_le16, bytes16_le16]; rfl, rfl⟩
  · cases h

theorem decode16x4_ok {f : Coord → Coord → Coord → Coord → Instr} {ops : List Byte} {j : Instr}
    (h : decode16x4 f ops = .ok j) :
    ∃ x y z w, ops = bytes16 x ++ bytes16 y ++ bytes16 z ++ bytes16 w ∧ f x y z w = j := by
  unfold decode16x4 at h
  split at h
  · cases h; exact ⟨_, _, _, _, by simp only [bytes16_le16]; rfl, rfl⟩
  · cases h

theorem decodeBytes_ok {f : List Byte → Instr} {ops : List Byte} {j : Instr} (h : decodeBytes f ops = .ok j) :
    ∃ s, ops = bytesWithLength s ∧ f s = j := by
  unfold decodeBytes at h
  split at h
  · split at h
    · rename_i hl
      cases h
      exact ⟨_, by rw [bytesWithLength, hl, bytes32_le32]; rfl, rfl⟩
    · cases h
  · cases h

/-- A code of known value. -/
theorem code_eq {code : Byte} (n : Nat) (hn : n < 256) (h : code.toNat = n) : code = BitVec.ofNat 8 n := by
  apply BitVec.eq_of_toNat_eq
  rw [h, BitVec.toNat_ofNat, Nat.mod_eq_of_lt hn]

/-! ### The family -/

/-- Decoding the word of a well-formed instruction gives the instruction back. -/
def Codec.Statement (i : Instr) : Prop :=
  ∀ c : Cfg, i.wellFormed c = true → decode (spaceOf i) (encode i) = .ok i

theorem Codec.init (mode : Byte) : Codec.Statement (.init mode) := fun _ _ => rfl
theorem Codec.clear : Codec.Statement .clear := fun _ _ => rfl
theorem Codec.display (buf : List Byte) : Codec.Statement (.display buf) :=
  fun _ h => decodeBytes_bytesWithLength .display buf h
theorem Codec.sleep : Codec.Statement .sleep := fun _ _ => rfl
theorem Codec.setWindow (xs ys xe ye : Coord) : Codec.Statement (.setWindow xs ys xe ye) := by
  intro _ _
  show Except.ok (Instr.setWindow (le16 _ _) (le16 _ _) (le16 _ _) (le16 _ _)) = _
  rw [le16_bytes16, le16_bytes16, le16_bytes16, le16_bytes16]
theorem Codec.setCursor (x y : Coord) : Codec.Statement (.setCursor x y) := by
  intro _ _
  show Except.ok (Instr.setCursor (le16 _ _) (le16 _ _)) = _
  rw [le16_bytes16, le16_bytes16]
theorem Codec.turnonDisplay : Codec.Statement .turnonDisplay := fun _ _ => rfl
theorem Codec.writeByte (v : Byte) : Codec.Statement (.writeByte v) := fun _ _ => rfl
theorem Codec.writeBytes (s : List Byte) : Codec.Statement (.writeBytes s) :=
  fun _ h => decodeBytes_bytesWithLength .writeBytes s h
theorem Codec.sendDataInternal (v : Byte) (isCommand : Bool) : Codec.Statement (.sendDataInternal v isCommand) := by
  intro _ _; cases isCommand <;> rfl
theorem Codec.sendCmd (v : Byte) : Codec.Statement (.sendCmd v) := fun _ _ => rfl
theorem Codec.sendData (v : Byte) : Codec.Statement (.sendData v) := fun _ _ => rfl
theorem Codec.configure : Codec.Statement .configure := fun _ _ => rfl
theorem Codec.reset : Codec.Statement .reset := fun _ _ => rfl
theorem Codec.registerLoad : Codec.Statement .registerLoad := fun _ _ => rfl
theorem Codec.lutLoad (mode : Byte) : Codec.Statement (.lutLoad mode) := fun _ _ => rfl
theorem Codec.busyWait : Codec.Statement .busyWait := fun _ _ => rfl
theorem Codec.streamFrame (src : Source) : Codec.Statement (.streamFrame src) := by
  intro c h
  cases src with
  | const => rfl
  | buffer buf => exact decodeBytes_bytesWithLength (fun b => .streamFrame (.buffer b)) buf h
theorem Codec.driverOutputControl : Codec.Statement .driverOutputControl := fun _ _ => rfl
theorem Codec.boosterSoftStart : Codec.Statement .boosterSoftStart := fun _ _ => rfl
theorem Codec.writeVcom : Codec.Statement .writeVcom := fun _ _ => rfl
theorem Codec.dummyLinePeriod : Codec.Statement .dummyLinePeriod := fun _ _ => rfl
theorem Codec.gateTime : Codec.Statement .gateTime := fun _ _ => rfl
theorem Codec.borderWaveform : Codec.Statement .borderWaveform := fun _ _ => rfl
theorem Codec.dataEntryMode : Codec.Statement .dataEntryMode := fun _ _ => rfl
theorem Codec.writeLut (m : RefreshMode) : Codec.Statement (.writeLut m) := by intro _ _; cases m <;> rfl
theorem Codec.ramXWindow (xs xe : Coord) : Codec.Statement (.ramXWindow xs xe) := by
  intro _ _
  show Except.ok (Instr.ramXWindow (le16 _ _) (le16 _ _)) = _
  rw [le16_bytes16, le16_bytes16]
theorem Codec.ramYWindow (ys ye : Coord) : Codec.Statement (.ramYWindow ys ye) := by
  intro _ _
  show Except.ok (Instr.ramYWindow (le16 _ _) (le16 _ _)) = _
  rw [le16_bytes16, le16_bytes16]
theorem Codec.ramXCounter (x : Coord) : Codec.Statement (.ramXCounter x) := by
  intro _ _
  show Except.ok (Instr.ramXCounter (le16 _ _)) = _
  rw [le16_bytes16]
theorem Codec.ramYCounter (y : Coord) : Codec.Statement (.ramYCounter y) := by
  intro _ _
  show Except.ok (Instr.ramYCounter (le16 _ _)) = _
  rw [le16_bytes16]
theorem Codec.writeRam (bytes : List Byte) : Codec.Statement (.writeRam bytes) := by
  intro _ h
  simp only [Instr.wellFormed, Bool.and_eq_true] at h
  exact decodeBytes_bytesWithLength .writeRam bytes h.2
theorem Codec.displayUpdateCtrl2 : Codec.Statement .displayUpdateCtrl2 := fun _ _ => rfl
theorem Codec.masterActivation : Codec.Statement .masterActivation := fun _ _ => rfl
theorem Codec.terminateFrameRw : Codec.Statement .terminateFrameRw := fun _ _ => rfl
theorem Codec.deepSleep : Codec.Statement .deepSleep := fun _ _ => rfl

end Sys2Proof.Laws
end

