-- ==== Sys2Proof/Laws/Lines.lean ====
section
/-! SUPPORT. What events do to the lines: framed bytes leave the bus at rest, keep the line order and find DC Low at every
clock; the same for all the items of every operation, up to a failure anywhere. -/

namespace Sys2Proof.Machine

/-! ### Events of a wait touch no line -/

theorem linesAfter_wait (es : List Event) : ∀ ls : Lines, es.all isWaitEvent = true → linesAfter ls es = ls := by
  induction es with
  | nil => intro ls _; rfl
  | cons e es ih =>
    intro ls h
    simp only [List.all_cons, Bool.and_eq_true] at h
    rw [linesAfter_cons, ih _ h.2]
    cases e <;> first | rfl | simp [isWaitEvent] at h

/-! ### Checks that run along events -/

theorem lineOrderOk_append (as bs : List Event) : ∀ ls : Lines,
    lineOrderOk ls (as ++ bs) = (lineOrderOk ls as && lineOrderOk (linesAfter ls as) bs) := by
  induction as with
  | nil => intro ls; rfl
  | cons a as ih => intro ls; simp only [List.cons_append, lineOrderOk, ih, linesAfter_cons, Bool.and_assoc]

theorem dcLowAtClocks_append (as bs : List Event) : ∀ ls : Lines,
    dcLowAtClocks ls (as ++ bs) = (dcLowAtClocks ls as && dcLowAtClocks (linesAfter ls as) bs) := by
  induction as with
  | nil => intro ls; rfl
  | cons a as ih => intro ls; simp only [List.cons_append, dcLowAtClocks, ih, linesAfter_cons, Bool.and_assoc]

theorem lineOrderOk_wait (es : List Event) : ∀ ls : Lines, es.all isWaitEvent = true → lineOrderOk ls es = true := by
  induction es with
  | nil => intro ls _; rfl
  | cons e es ih =>
    intro ls h
    simp only [List.all_cons, Bool.and_eq_true] at h
    rw [lineOrderOk, ih _ h.2, Bool.and_true]
    cases e <;> first | rfl | simp [isWaitEvent] at h

theorem dcLowAtClocks_wait (es : List Event) : ∀ ls : Lines, es.all isWaitEvent = true →
    dcLowAtClocks ls es = true := by
  induction es with
  | nil => intro ls _; rfl
  | cons e es ih =>
    intro ls h
    simp only [List.all_cons, Bool.and_eq_true] at h
    cases e with
    | dly n => exact ih _ h.2
    | rd b => exact ih _ h.2
    | w l v => exact absurd h.1 (by simp [isWaitEvent])
    | f l v => exact absurd h.1 (by simp [isWaitEvent])
    | warn n => exact absurd h.1 (by simp [isWaitEvent])

/-- A check of the planned events holds of the performed ones. -/
theorem lineOrderOk_performed {planned es : List Event} {ls : Lines} (h : lineOrderOk ls planned = true)
    (hp : Performed planned es) : lineOrderOk ls es = true := by
  cases hp with
  | all wait hw => rw [lineOrderOk_append, h, lineOrderOk_wait _ _ hw]; rfl
  | failed pre l v post he =>
    rw [he, lineOrderOk_append, Bool.and_eq_true, lineOrderOk, Bool.and_eq_true] at h
    rw [lineOrderOk_append, h.1, Bool.true_and, lineOrderOk, lineOrderOk, Bool.and_true]
    have h2 := h.2.1
    cases l <;> exact h2
  | stuck pre l v post he =>
    rw [he, lineOrderOk_append, Bool.and_eq_true] at h
    exact h.1

theorem dcLowAtClocks_performed {planned es : List Event} {ls : Lines} (h : dcLowAtClocks ls planned = true)
    (hp : Performed planned es) : dcLowAtClocks ls es = true := by
  cases hp with
  | all wait hw => rw [dcLowAtClocks_append, h, dcLowAtClocks_wait _ _ hw]; rfl
  | failed pre l v post he =>
    rw [he, dcLowAtClocks_append, Bool.and_eq_true] at h
    rw [dcLowAtClocks_append, h.1]
    rfl
  | stuck pre l v post he =>
    rw [he, dcLowAtClocks_append, Bool.and_eq_true] at h
    exact h.1

/-! ### One framed byte -/

theorem framedByte_eq (r : Role) (v : Byte) : framedByte r v =
    [.w .dc (roleLevel r), .w .dc .low, .w .cs .low, .w .cs .low,
      .w .din (bitLevel (v.getLsbD 7)), .w .clk .high, .w .clk .low,
      .w .din (bitLevel (v.getLsbD 6)), .w .clk .high, .w .clk .low,
      .w .din (bitLevel (v.getLsbD 5)), .w .clk .high, .w .clk .low,
      .w .din (bitLevel (v.getLsbD 4)), .w .clk .high, .w .clk .low,
      .w .din (bitLevel (v.getLsbD 3)), .w .clk .high, .w .clk .low,
      .w .din (bitLevel (v.getLsbD 2)), .w .clk .high, .w .clk .low,
      .w .din (bitLevel (v.getLsbD 1)), .w .clk .high, .w .clk .low,
      .w .din (bitLevel (v.getLsbD 0)), .w .clk .high, .w .clk .low,
      .w .cs .high, .w .cs .high] := rfl

/-- A framed byte leaves the bus at rest and RST alone (41_framer.md R166). -/
theorem linesAfter_framedByte (r : Role) (v : Byte) (ls : Lines) : linesAfter ls (framedByte r v)
    = { ls with clk := .low, din := (bitLevel (v.getLsbD 0)).toLine, cs := .high, dc := .low } := by
  cases r <;> rfl

theorem lineOrderOk_framedByte (r : Role) (v : Byte) (ls : Lines) (h1 : ls.clk ≠ .high) (h2 : ls.cs ≠ .low) :
    lineOrderOk ls (framedByte r v) = true := by
  cases r <;>
    simp [framedByte_eq, lineOrderOk, lineOrderAt, lineEffect, setLine, roleLevel, Level.toLine, h1, h2]

theorem dcLowAtClocks_framedByte (r : Role) (v : Byte) (ls : Lines) : dcLowAtClocks ls (framedByte r v) = true := by
  cases r <;> rfl

/-! ### The items of the operations -/

/-- A single event that a host operation sends outside a busy wait, and that leaves DC alone and CLK not High. -/
def plainSingle : Event → Bool
  | .w .cs .high | .w .clk .low | .w .rst _ | .dly _ | .warn _ => true
  | .w .cs .low | .w .clk .high | .w .din _ | .w .dc _ | .f .. | .rd _ => false

/-- An item that a host operation sends. -/
def plainItem : WireItem → Bool
  | .framed .. => true
  | .single e => plainSingle e

theorem cmdItems_plain (op : Byte) (ds : List Byte) : (cmdItems op ds).all plainItem = true := by
  simp only [cmdItems, List.all_cons, plainItem, Bool.true_and, List.all_eq_true, List.mem_map]
  rintro _ ⟨d, _, rfl⟩
  rfl

theorem writeLutItems_plain (c : Cfg) (m : RefreshMode) : (writeLutItems c m).all plainItem = true := by
  cases m with
  | full => exact cmdItems_plain _ _
  | partialRefresh => exact cmdItems_plain _ _
  | unrecognised =>
    show (if c.invalidModeSendsLutCmd then cmdItems c.opWriteLut [] else []).all plainItem = true
    cases c.invalidModeSendsLutCmd <;> rfl

theorem lutLoadItems_plain (c : Cfg) (mode : Byte) : (lutLoadItems c mode).all plainItem = true := by
  unfold lutLoadItems
  cases decodeMode c mode with
  | full => exact writeLutItems_plain c _
  | partialRefresh => exact writeLutItems_plain c _
  | unrecognised => rw [List.all_append, writeLutItems_plain]; rfl

theorem frameItems_plain (c : Cfg) (src : Source) : (frameItems c src).all plainItem = true := by
  have hrows : ((List.range c.height).flatMap (rowItems c src)).all plainItem = true := by
    rw [List.all_flatMap, List.all_eq_true]
    intro y _
    simp only [rowItems, setCursorItems, List.all_append, cmdItems_plain, Bool.and_self]
  have ha : (activationItems c).all plainItem = true := rfl
  simp only [frameItems, setWindowItems, List.all_append, cmdItems_plain, hrows, ha, Bool.and_self]

theorem initItems_plain (c : Cfg) (mode : Byte) : (initItems c mode).all plainItem = true := by
  simp only [initItems, registerLoadItems, List.all_append, cmdItems_plain, lutLoadItems_plain, Bool.and_true]
  rfl

theorem hostItems_plain (c : Cfg) (i : Instr) : (hostItems c i).all plainItem = true := by
  cases i <;> first
    | rfl
    | exact initItems_plain c _
    | exact frameItems_plain c _

/-- What every micro-operation and frame but the two transport operations sends is such a list of items. -/
theorem plannedEvents_items (c : Cfg) (i : Instr) (h1 : ∀ v, i ≠ .writeByte v) (h2 : ∀ bytes, i ≠ .writeBytes bytes) :
    ∃ items, plannedEvents c i = eventsOf items ∧ items.all plainItem = true := by
  cases i with
  | writeByte v => exact absurd rfl (h1 v)
  | writeBytes bytes => exact absurd rfl (h2 bytes)
  | init mode => exact ⟨_, rfl, hostItems_plain c (.init mode)⟩
  | clear => exact ⟨_, rfl, hostItems_plain c .clear⟩
  | display buf => exact ⟨_, rfl, hostItems_plain c (.display buf)⟩
  | sleep => exact ⟨_, rfl, hostItems_plain c .sleep⟩
  | setWindow xs ys xe ye => exact ⟨_, rfl, hostItems_plain c (.setWindow xs ys xe ye)⟩
  | setCursor x y => exact ⟨_, rfl, hostItems_plain c (.setCursor x y)⟩
  | turnonDisplay => exact ⟨_, rfl, hostItems_plain c .turnonDisplay⟩
  | sendDataInternal v b => exact ⟨[.framed (if b then .cmd else .data) v], (List.append_nil _).symm, rfl⟩
  | sendCmd v => exact ⟨[.framed .cmd v], (List.append_nil _).symm, rfl⟩
  | sendData v => exact ⟨[.framed .data v], (List.append_nil _).symm, rfl⟩
  | configure => exact ⟨configureItems, rfl, rfl⟩
  | reset => exact ⟨resetItems c, rfl, rfl⟩
  | registerLoad =>
    exact ⟨registerLoadItems c, rfl, by simp only [registerLoadItems, List.all_append, cmdItems_plain, Bool.and_self]⟩
  | lutLoad mode => exact ⟨lutLoadItems c mode, rfl, lutLoadItems_plain c mode⟩
  | busyWait => exact ⟨[], rfl, rfl⟩
  | streamFrame src => exact ⟨frameItems c src, rfl, frameItems_plain c src⟩
  | driverOutputControl => exact ⟨_, rfl, cmdItems_plain _ _⟩
  | boosterSoftStart => exact ⟨_, rfl, cmdItems_plain _ _⟩
  | writeVcom => exact ⟨_, rfl, cmdItems_plain _ _⟩
  | dummyLinePeriod => exact ⟨_, rfl, cmdItems_plain _ _⟩
  | gateTime => exact ⟨_, rfl, cmdItems_plain _ _⟩
  | borderWaveform => exact ⟨_, rfl, cmdItems_plain _ _⟩
  | dataEntryMode => exact ⟨_, rfl, cmdItems_plain _ _⟩
  | writeLut m => exact ⟨_, rfl, writeLutItems_plain c m⟩
  | ramXWindow xs xe => exact ⟨_, rfl, cmdItems_plain _ _⟩
  | ramYWindow ys ye => exact ⟨_, rfl, cmdItems_plain _ _⟩
  | ramXCounter x => exact ⟨_, rfl, cmdItems_plain _ _⟩
  | ramYCounter y => exact ⟨_, rfl, cmdItems_plain _ _⟩
  | writeRam bytes => exact ⟨_, rfl, cmdItems_plain _ _⟩
  | displayUpdateCtrl2 => exact ⟨_, rfl, cmdItems_plain _ _⟩
  | masterActivation => exact ⟨_, rfl, cmdItems_plain _ _⟩
  | terminateFrameRw => exact ⟨[.framed c.terminateKind c.opTerminateFrameRw], (List.append_nil _).symm, rfl⟩
  | deepSleep => exact ⟨_, rfl, cmdItems_plain _ _⟩

/-- Items keep the line order, and leave CLK not High and CS not Low. -/
theorem items_keep_order (items : List WireItem) : ∀ ls : Lines, items.all plainItem = true → ls.clk ≠ .high →
    ls.cs ≠ .low → lineOrderOk ls (eventsOf items) = true ∧ (linesAfter ls (eventsOf items)).clk ≠ .high ∧
      (linesAfter ls (eventsOf items)).cs ≠ .low := by
  induction items with
  | nil => intro ls _ h1 h2; exact ⟨rfl, h1, h2⟩
  | cons i is ih =>
    intro ls h h1 h2
    simp only [List.all_cons, Bool.and_eq_true] at h
    rw [eventsOf_cons, lineOrderOk_append, linesAfter_append]
    have hi : lineOrderOk ls (itemEvents i) = true ∧ (linesAfter ls (itemEvents i)).clk ≠ .high ∧
        (linesAfter ls (itemEvents i)).cs ≠ .low := by
      cases i with
      | framed r v =>
        refine ⟨lineOrderOk_framedByte r v ls h1 h2, ?_, ?_⟩ <;> simp [itemEvents, linesAfter_framedByte]
      | single e =>
        cases e with
        | w l v =>
          cases l <;> cases v <;> first
            | (have := h.1; simp [plainItem, plainSingle] at this; done)
            | simp [itemEvents, lineOrderOk, lineOrderAt, lineEffect, setLine, Level.toLine, h1, h2]
        | f l v => have := h.1; simp [plainItem, plainSingle] at this
        | dly n => exact ⟨rfl, h1, h2⟩
        | rd b => exact ⟨rfl, h1, h2⟩
        | warn n => exact ⟨rfl, h1, h2⟩
    obtain ⟨ha, hb, hc⟩ := hi
    obtain ⟨ha', hb', hc'⟩ := ih _ h.2 hb hc
    exact ⟨by rw [ha, ha']; rfl, hb', hc'⟩

/-- Items find DC Low at every clock. -/
theorem items_dcLow (items : List WireItem) : ∀ ls : Lines, items.all plainItem = true →
    dcLowAtClocks ls (eventsOf items) = true := by
  induction items with
  | nil => intro ls _; rfl
  | cons i is ih =>
    intro ls h
    simp only [List.all_cons, Bool.and_eq_true] at h
    rw [eventsOf_cons, dcLowAtClocks_append, ih _ h.2, Bool.and_true]
    cases i with
    | framed r v => exact dcLowAtClocks_framedByte r v ls
    | single e =>
      cases e with
      | w l v =>
        cases l <;> cases v <;> first
          | rfl
          | (have := h.1; simp [plainItem, plainSingle] at this)
      | f l v => rfl
      | dly n => rfl
      | rd b => rfl
      | warn n => rfl

/-! ### Lines after an abort -/

/-- CLK and DC are not High. -/
def Quiet (ls : Lines) : Prop := ls.clk ≠ .high ∧ ls.dc ≠ .high

/-- From `ls`, the events leave CLK and DC not High, at their end and at every write that fails. -/
def QuietStops (ls : Lines) (es : List Event) : Prop :=
  Quiet (linesAfter ls es) ∧ ∀ pre l v post, es = pre ++ .w l v :: post → Quiet (linesAfter ls (pre ++ [.f l v]))

/-- The same as a check that runs along the events. -/
def quietStopsB : Lines → List Event → Bool
  | _, [] => true
  | ls, e :: es =>
    (match e with
      | .w l _ => decide ((setLine ls l .unknown).clk ≠ .high) && decide ((setLine ls l .unknown).dc ≠ .high)
      | _ => true) && quietStopsB (lineEffect ls e) es

theorem quietStops_of_check (es : List Event) : ∀ ls : Lines, quietStopsB ls es = true →
    ∀ pre l v post, es = pre ++ .w l v :: post → Quiet (linesAfter ls (pre ++ [.f l v])) := by
  induction es with
  | nil => intro ls _ pre l v post h; simp at h
  | cons e es ih =>
    intro ls h pre l v post he
    simp only [quietStopsB, Bool.and_eq_true] at h
    cases pre with
    | nil =>
      simp only [List.nil_append, List.cons.injEq] at he
      obtain ⟨rfl, rfl⟩ := he
      have h1 := h.1
      simp only [Bool.and_eq_true, decide_eq_true_eq] at h1
      exact h1
    | cons p pre =>
      simp only [List.cons_append, List.cons.injEq] at he
      obtain ⟨rfl, rfl⟩ := he
      exact ih _ h.2 pre l v post rfl

theorem quietStops_append {as bs : List Event} {ls : Lines} (ha : QuietStops ls as)
    (hb : QuietStops (linesAfter ls as) bs) : QuietStops ls (as ++ bs) := by
  refine ⟨by rw [linesAfter_append]; exact hb.1, ?_⟩
  intro pre l v post he
  rcases List.append_eq_append_iff.mp he with ⟨m, h1, h2⟩ | ⟨m, h1, h2⟩
  · subst h1
    have := hb.2 m l v post h2
    rwa [← linesAfter_append, ← List.append_assoc] at this
  · cases m with
    | nil =>
      rw [List.append_nil] at h1
      subst h1
      have := hb.2 [] l v post h2.symm
      rwa [← linesAfter_append] at this
    | cons x m =>
      simp only [List.cons_append, List.cons.injEq] at h2
      obtain ⟨rfl, rfl⟩ := h2
      exact ha.2 pre l v m h1

theorem quietStops_framedByte (r : Role) (v : Byte) (ls : Lines) (h : Quiet ls) : QuietStops ls (framedByte r v) := by
  refine ⟨?_, quietStops_of_check _ _ ?_⟩
  · rw [linesAfter_framedByte]; exact ⟨by simp, by simp⟩
  · obtain ⟨h1, h2⟩ := h
    cases r <;>
      simp [framedByte_eq, quietStopsB, lineEffect, setLine, roleLevel, Level.toLine, h1]

theorem quietStops_items (items : List WireItem) : ∀ ls : Lines, items.all plainItem = true → Quiet ls →
    QuietStops ls (eventsOf items) := by
  induction items with
  | nil => intro ls _ h; exact ⟨h, by intro pre l v post he; simp at he⟩
  | cons i is ih =>
    intro ls hp h
    simp only [List.all_cons, Bool.and_eq_true] at hp
    rw [eventsOf_cons]
    have hi : QuietStops ls (itemEvents i) := by
      cases i with
      | framed r v => exact quietStops_framedByte r v ls h
      | single e =>
        obtain ⟨h1, h2⟩ := h
        refine ⟨?_, quietStops_of_check _ _ ?_⟩
        · cases e with
          | w l v =>
            cases l <;> cases v <;> first
              | (have := hp.1; simp [plainItem, plainSingle] at this; done)
              | simp [itemEvents, Quiet, lineEffect, setLine, Level.toLine, h1, h2]
          | f l v => have := hp.1; simp [plainItem, plainSingle] at this
          | dly n => exact ⟨h1, h2⟩
          | rd b => exact ⟨h1, h2⟩
          | warn n => exact ⟨h1, h2⟩
        · cases e with
          | w l v => cases l <;> simp [itemEvents, quietStopsB, setLine, h1, h2]
          | f l v => rfl
          | dly n => rfl
          | rd b => rfl
          | warn n => rfl
    exact quietStops_append hi (ih _ hp.2 hi.1)

/-- CLK and DC are not High after whatever a host operation performed, if it did not stop for ever. -/
theorem quiet_performed {planned es : List Event} {ls : Lines} (h : QuietStops ls planned) (hp : Performed planned es)
    (hstuck : ∀ pre l v post, planned = pre ++ .w l v :: post → es ≠ pre) : Quiet (linesAfter ls es) := by
  cases hp with
  | all wait hw => rw [linesAfter_append, linesAfter_wait _ _ hw]; exact h.1
  | failed pre l v post he => exact h.2 pre l v post he
  | stuck pre l v post he => exact absurd rfl (hstuck _ l v post he)

/-! ### The bus at rest, the reset line, the last level written -/

/-- Whether an event writes RST. -/
def writesRst : Event → Bool
  | .w .rst _ | .f .rst _ => true
  | .w .clk _ | .w .din _ | .w .cs _ | .w .dc _ | .f .clk _ | .f .din _ | .f .cs _ | .f .dc _ => false
  | .dly _ | .rd _ | .warn _ => false

theorem linesAfter_rst (es : List Event) : ∀ ls : Lines, es.all (fun e => !writesRst e) = true →
    (linesAfter ls es).rst = ls.rst := by
  induction es with
  | nil => intro ls _; rfl
  | cons e es ih =>
    intro ls h
    simp only [List.all_cons, Bool.and_eq_true] at h
    rw [linesAfter_cons, ih _ h.2]
    cases e with
    | w l v => cases l <;> first | rfl | (have := h.1; simp [writesRst] at this)
    | f l v => cases l <;> first | rfl | (have := h.1; simp [writesRst] at this)
    | dly n => rfl
    | rd b => rfl
    | warn n => rfl

/-- Framed bytes one after another leave the bus at rest. -/
theorem linesAfter_framedItems (items : List WireItem) (hf : items.all isFramed = true) (hne : items ≠ []) :
    ∀ ls : Lines, ∃ b, linesAfter ls (eventsOf items) = { ls with clk := .low, din := b, cs := .high, dc := .low } := by
  induction items with
  | nil => exact absurd rfl hne
  | cons i is ih =>
    intro ls
    simp only [List.all_cons, Bool.and_eq_true] at hf
    cases i with
    | single e => have := hf.1; simp [isFramed] at this
    | framed r v =>
      rw [eventsOf_cons, linesAfter_append, show itemEvents (.framed r v) = framedByte r v from rfl,
        linesAfter_framedByte]
      cases is with
      | nil => exact ⟨_, rfl⟩
      | cons j js => exact ih hf.2 (by simp) _

/-- Every line holds what the trace last wrote to it, along any events (10_state.md R38; 20_memory.md R80). -/
theorem linesFollow_events (es : List Event) : ∀ (ls : Lines) (rev : List Event),
    (∀ l, getLine ls l = lastLevel l rev) → ∀ l, getLine (linesAfter ls es) l = lastLevel l (es.reverse ++ rev) := by
  induction es with
  | nil => intro ls rev h; exact h
  | cons e es ih =>
    intro ls rev h l
    rw [linesAfter_cons, List.reverse_cons, List.append_assoc]
    refine ih (lineEffect ls e) ([e] ++ rev) ?_ l
    intro l'
    cases e with
    | w m v =>
      by_cases hm : m = l'
      · subst hm; simp [lineEffect, lastLevel]
      · simp [lineEffect, lastLevel, hm, getLine_setLine_other _ _ _ _ hm, h]
    | f m v =>
      by_cases hm : m = l'
      · subst hm; simp [lineEffect, lastLevel]
      · simp [lineEffect, lastLevel, hm, getLine_setLine_other _ _ _ _ hm, h]
    | dly n => exact h l'
    | rd b => exact h l'
    | warn n => exact h l'

end Sys2Proof.Machine
end

