-- ==== Sys2Proof/Laws/Traces.lean ====
section
/-! SUPPORT. Reading traces back: the decoder of 30_encoding.md R126 undoes the expansion of items into events, the frames
of every operation, the counts of framed bytes and writes. -/

namespace Sys2Proof.Machine

/-! ### Decoding (30_encoding.md R126) -/

theorem groupByte_framedByte (r : Role) (v : Byte) : groupByte (framedByte r v) = v := by
  have h : ∀ v : Byte, groupByte (framedByte .cmd v) = v ∧ groupByte (framedByte .data v) = v := by decide +kernel
  cases r
  · exact (h v).1
  · exact (h v).2

theorem groupRole_framedByte (r : Role) (v : Byte) : groupRole (framedByte r v) = r := by cases r <;> rfl

theorem readGroup_framedByte (r : Role) (v : Byte) : readGroup (framedByte r v) = some (r, v) := by
  rw [readGroup, groupRole_framedByte, groupByte_framedByte, if_pos rfl]

theorem decodeFrom_drop (as : List Event) : ∀ rest : List Event,
    decodeFrom as.length true (as ++ rest) = decodeFrom 0 true rest := by
  induction as with
  | nil => intro rest; rfl
  | cons a as ih => intro rest; rw [List.length_cons, List.cons_append, decodeFrom]; exact ih rest

theorem decodeFrom_framed (r : Role) (v : Byte) (rest : List Event) :
    decodeFrom 0 true (framedByte r v ++ rest) = .framed r v :: decodeFrom 0 true rest := by
  have htake : (framedByte r v ++ rest).take 30 = framedByte r v := by
    rw [List.take_append_of_le_length (by rfl)]; rfl
  have hcons : framedByte r v = .w .dc (roleLevel r) :: (framedByte r v).tail := rfl
  have htail : (framedByte r v).tail.length = 29 := rfl
  rw [hcons, List.cons_append] at htake ⊢
  rw [decodeFrom, htake, ← hcons]
  simp only [if_true, readGroup_framedByte]
  rw [← htail, decodeFrom_drop]

/-- Whether an event writes DC. -/
def writesDc : Event → Bool
  | .w .dc _ | .f .dc _ => true
  | .w .clk _ | .w .din _ | .w .cs _ | .w .rst _ | .f .clk _ | .f .din _ | .f .cs _ | .f .rst _ => false
  | .dly _ | .rd _ | .warn _ => false

theorem readGroup_single (e : Event) (rest : List Event) (h : writesDc e = false) :
    readGroup ((e :: rest).take 30) = none := by
  rw [readGroup, if_neg]
  intro hc
  have h0 := congrArg List.head? hc
  simp only [List.take_succ_cons, List.head?_cons] at h0
  rw [framedByte_eq, List.head?_cons, Option.some.injEq] at h0
  rw [h0] at h
  simp [writesDc] at h

theorem decodeFrom_single (e : Event) (rest : List Event) (opens : Bool) (h : writesDc e = false) :
    decodeFrom 0 opens (e :: rest) = .single e :: decodeFrom 0 (opensGroup e) rest := by
  rw [decodeFrom]
  cases opens with
  | false => rfl
  | true => simp only [if_true, readGroup_single e rest h]

/-- Items that the decoder gives back: a framed byte stands where a group may start, a single event writes no DC. -/
def readable : Bool → List WireItem → Bool
  | _, [] => true
  | opens, .framed _ _ :: is => opens && readable true is
  | _, .single e :: is => !writesDc e && readable (opensGroup e) is

theorem decodeFrom_items (items : List WireItem) : ∀ opens : Bool, readable opens items = true →
    decodeFrom 0 opens (eventsOf items) = items := by
  induction items with
  | nil => intro opens _; rfl
  | cons i is ih =>
    intro opens h
    rw [eventsOf_cons]
    cases i with
    | framed r v =>
      simp only [readable, Bool.and_eq_true] at h
      rw [h.1, show itemEvents (.framed r v) = framedByte r v from rfl, decodeFrom_framed, ih true h.2]
    | single e =>
      simp only [readable, Bool.and_eq_true, Bool.not_eq_true'] at h
      rw [show itemEvents (.single e) ++ eventsOf is = e :: eventsOf is from rfl, decodeFrom_single _ _ _ h.1, ih _ h.2]

theorem readable_append_framed (as bs : List WireItem) (h : as.all isFramed = true) :
    readable true (as ++ bs) = readable true bs := by
  induction as with
  | nil => rfl
  | cons a as ih =>
    simp only [List.all_cons, Bool.and_eq_true] at h
    cases a with
    | framed r v => rw [List.cons_append, readable, ih h.2]; rfl
    | single e => exact absurd h.1 (by simp [isFramed])

theorem readable_wait (items : List WireItem) : ∀ opens : Bool,
    items.all (fun i => match i with
      | .single e => isWaitEvent e
      | .framed .. => false) = true → readable opens items = true := by
  induction items with
  | nil => intro opens _; rfl
  | cons i is ih =>
    intro opens h
    simp only [List.all_cons, Bool.and_eq_true] at h
    cases i with
    | framed r v => exact absurd h.1 (by simp)
    | single e =>
      rw [readable, ih _ h.2, Bool.and_true]
      have := h.1
      cases e <;> first | rfl | exact absurd this (by simp [isWaitEvent])

/-- The items of a wait. -/
def isWaitItem : WireItem → Bool
  | .single e => isWaitEvent e
  | .framed .. => false

theorem busyTurns_waitItems (c : Cfg) (k : Nat) : (busyTurns c k).all isWaitItem = true := by
  induction k with
  | zero => rfl
  | succ k ih => rw [busyTurns_succ, List.all_cons, List.all_cons, ih]; rfl

theorem waitTail_waitItems {c : Cfg} {busy : Draws Level} {waits : Bool} {w : List WireItem}
    (h : waitTail c busy waits = some w) : w.all isWaitItem = true := by
  cases waits with
  | false =>
    obtain rfl : [] = w := by simpa [waitTail] using h
    rfl
  | true =>
    simp only [waitTail, if_true, waitItems] at h
    split at h
    · obtain rfl : fixedWaitItems c = w := by simpa using h
      rfl
    · obtain ⟨⟨k, b⟩, _, rfl⟩ := Option.map_eq_some_iff.mp h
      rw [pollWaitItems_eq, List.all_append, busyTurns_waitItems]
      rfl

theorem readable_waitItems {items : List WireItem} (opens : Bool) (h : items.all isWaitItem = true) :
    readable opens items = true := readable_wait items opens h

/-! ### Which items are framed bytes -/

theorem cmdItems_framed (op : Byte) (ds : List Byte) : (cmdItems op ds).all isFramed = true := by
  simp only [cmdItems, List.all_cons, isFramed, Bool.true_and, List.all_eq_true, List.mem_map]
  rintro _ ⟨d, _, rfl⟩
  rfl

theorem rowItems_framed (c : Cfg) (src : Source) (y : Nat) : (rowItems c src y).all isFramed = true := by
  simp only [rowItems, setCursorItems, List.all_append, cmdItems_framed, Bool.and_self]

theorem rows_framed (c : Cfg) (src : Source) (n : Nat) :
    ((List.range n).flatMap (rowItems c src)).all isFramed = true := by
  rw [List.all_flatMap, List.all_eq_true]
  intro y _
  exact rowItems_framed c src y

theorem frameItems_framed (c : Cfg) (src : Source) : (frameItems c src).all isFramed = true := by
  have ha : (activationItems c).all isFramed = true := rfl
  simp only [frameItems, setWindowItems, List.all_append, cmdItems_framed, rows_framed, ha, Bool.and_self]

theorem registerLoadItems_framed (c : Cfg) : (registerLoadItems c).all isFramed = true := by
  simp only [registerLoadItems, List.all_append, cmdItems_framed, Bool.and_self]

theorem writeLutItems_framed (c : Cfg) (m : RefreshMode) : (writeLutItems c m).all isFramed = true := by
  cases m with
  | full => exact cmdItems_framed _ _
  | partialRefresh => exact cmdItems_framed _ _
  | unrecognised =>
    show (if c.invalidModeSendsLutCmd then cmdItems c.opWriteLut [] else []).all isFramed = true
    cases c.invalidModeSendsLutCmd <;> rfl

/-- Every host operation but INIT sends framed bytes only. -/
theorem hostItems_framed (c : Cfg) (i : Instr) (h : initMode i = none) : (hostItems c i).all isFramed = true := by
  cases i with
  | init m => simp [initMode] at h
  | clear => exact frameItems_framed c _
  | display buf => exact frameItems_framed c _
  | setWindow xs ys xe ye => rfl
  | setCursor x y => rfl
  | turnonDisplay => rfl
  | sleep => rfl
  | writeByte _ | writeBytes _ | sendDataInternal _ _ | sendCmd _ | sendData _ | configure | reset | registerLoad
  | lutLoad _ | busyWait | streamFrame _ | driverOutputControl | boosterSoftStart | writeVcom | dummyLinePeriod
  | gateTime | borderWaveform | dataEntryMode | writeLut _ | ramXWindow _ _ | ramYWindow _ _ | ramXCounter _
  | ramYCounter _ | writeRam _ | displayUpdateCtrl2 | masterActivation | terminateFrameRw | deepSleep => rfl

/-- The items of a host operation and of its wait are given back by the decoder. -/
theorem hostItems_readable (c : Cfg) (i : Instr) (w : List WireItem) (hw : w.all isWaitItem = true) :
    readable true (hostItems c i ++ w) = true := by
  cases hi : initMode i with
  | none => rw [readable_append_framed _ _ (hostItems_framed c i hi)]; exact readable_waitItems _ hw
  | some mode =>
    cases i with
    | init m =>
      show readable true (configureItems ++ resetItems c ++ registerLoadItems c ++ lutLoadItems c m ++ w) = true
      have hreset : ∀ rest, readable true (configureItems ++ (resetItems c ++ rest)) = readable true rest := by
        intro rest; simp [configureItems, resetItems, readable, writesDc, opensGroup]
      simp only [List.append_assoc]
      rw [hreset, readable_append_framed _ _ (registerLoadItems_framed c)]
      unfold lutLoadItems
      cases decodeMode c m with
      | full => rw [readable_append_framed _ _ (writeLutItems_framed c _)]; exact readable_waitItems _ hw
      | partialRefresh => rw [readable_append_framed _ _ (writeLutItems_framed c _)]; exact readable_waitItems _ hw
      | unrecognised =>
        rw [List.append_assoc, readable_append_framed _ _ (writeLutItems_framed c _)]
        simp [readable, writesDc, readable_waitItems _ hw]
    | clear | display _ | sleep | setWindow _ _ _ _ | setCursor _ _ | turnonDisplay | writeByte _ | writeBytes _
    | sendDataInternal _ _ | sendCmd _ | sendData _ | configure | reset | registerLoad
    | lutLoad _ | busyWait | streamFrame _ | driverOutputControl | boosterSoftStart | writeVcom | dummyLinePeriod
    | gateTime | borderWaveform | dataEntryMode | writeLut _ | ramXWindow _ _ | ramYWindow _ _ | ramXCounter _
    | ramYCounter _ | writeRam _ | displayUpdateCtrl2 | masterActivation | terminateFrameRw | deepSleep =>
      simp [initMode] at hi

theorem decodeTrace_host (c : Cfg) (i : Instr) (w : List WireItem) (hw : w.all isWaitItem = true) :
    decodeTrace (eventsOf (hostItems c i ++ w)) = hostItems c i ++ w :=
  decodeFrom_items _ true (hostItems_readable c i w hw)

/-! ### Frames (30_encoding.md R102, R125) -/

theorem leadingData_map (ds : List Byte) (rest : List WireItem) :
    leadingData (ds.map (WireItem.framed .data) ++ rest) = ds ++ leadingData rest := by
  induction ds with
  | nil => rfl
  | cons d ds ih => rw [List.map_cons, List.cons_append, leadingData, ih]; rfl

theorem splitFrames_map (ds : List Byte) (rest : List WireItem) :
    splitFrames (ds.map (WireItem.framed .data) ++ rest) = splitFrames rest := by
  induction ds with
  | nil => rfl
  | cons d ds ih => rw [List.map_cons, List.cons_append, splitFrames, ih]

theorem splitFrames_cmdItems (op : Byte) (ds : List Byte) (rest : List WireItem) :
    splitFrames (cmdItems op ds ++ rest) = { op, data := ds ++ leadingData rest } :: splitFrames rest := by
  rw [cmdItems, List.cons_append, splitFrames, leadingData_map, splitFrames_map]

@[simp] theorem leadingData_cmdItems (op : Byte) (ds : List Byte) (rest : List WireItem) :
    leadingData (cmdItems op ds ++ rest) = [] := rfl

theorem leadingData_wait {w : List WireItem} (h : w.all isWaitItem = true) : leadingData w = [] := by
  cases w with
  | nil => rfl
  | cons i is =>
    cases i with
    | framed r v => simp [isWaitItem] at h
    | single e => rfl

theorem splitFrames_wait {w : List WireItem} (h : w.all isWaitItem = true) : splitFrames w = [] := by
  induction w with
  | nil => rfl
  | cons i is ih =>
    simp only [List.all_cons, Bool.and_eq_true] at h
    cases i with
    | framed r v => exact absurd h.1 (by simp [isWaitItem])
    | single e => rw [splitFrames]; exact ih h.2

/-- The frames of an activation: the terminate byte is a command of its own or the data byte of MASTER_ACTIVATION
(30_encoding.md R103). -/
def activationFrames (c : Cfg) : List CommandFrame :=
  { op := c.opDisplayUpdateCtrl2, data := [c.dDuc2Mode] } ::
    (match c.terminateKind with
      | .cmd => [{ op := c.opMasterActivation, data := [] }, { op := c.opTerminateFrameRw, data := [] }]
      | .data => [{ op := c.opMasterActivation, data := [c.opTerminateFrameRw] }])

theorem splitFrames_activation (c : Cfg) {w : List WireItem} (h : w.all isWaitItem = true) :
    splitFrames (activationItems c ++ w) = activationFrames c := by
  rw [activationItems, List.append_assoc, List.append_assoc, splitFrames_cmdItems, splitFrames_cmdItems]
  cases hk : c.terminateKind with
  | cmd =>
    simp [activationFrames, hk, leadingData, splitFrames, leadingData_wait h, splitFrames_wait h]
  | data =>
    simp [activationFrames, hk, leadingData, splitFrames, leadingData_wait h, splitFrames_wait h]

/-- The frames of row y. -/
def rowFrames (c : Cfg) (src : Source) (y : Nat) : List CommandFrame :=
  [{ op := c.opRamXCounter, data := [0] }, { op := c.opRamYCounter, data := [lo y, hi y] },
    { op := c.opWriteRam, data := rowBytes c src y }]

theorem splitFrames_row (c : Cfg) (src : Source) (y : Nat) (rest : List WireItem) (h : leadingData rest = []) :
    splitFrames (rowItems c src y ++ rest) = rowFrames c src y ++ splitFrames rest := by
  rw [rowItems, setCursorItems]
  simp only [List.append_assoc]
  rw [splitFrames_cmdItems, splitFrames_cmdItems, splitFrames_cmdItems, h]
  simp only [leadingData_cmdItems, List.append_nil]
  rfl

theorem leadingData_rows (c : Cfg) (src : Source) (ys : List Nat) (rest : List WireItem) (h : leadingData rest = []) :
    leadingData (ys.flatMap (rowItems c src) ++ rest) = [] := by
  cases ys with
  | nil => exact h
  | cons y ys => rfl

theorem splitFrames_rows (c : Cfg) (src : Source) (ys : List Nat) (rest : List WireItem) (h : leadingData rest = []) :
    splitFrames (ys.flatMap (rowItems c src) ++ rest) = ys.flatMap (rowFrames c src) ++ splitFrames rest := by
  induction ys with
  | nil => rfl
  | cons y ys ih =>
    rw [List.flatMap_cons, List.append_assoc, splitFrames_row c src y _ (leadingData_rows c src ys rest h), ih,
      List.flatMap_cons, List.append_assoc]

/-- The two window frames of a frame. -/
def windowFrames (c : Cfg) : List CommandFrame :=
  [{ op := c.opRamXWindow, data := [xb 0, xb c.width] },
    { op := c.opRamYWindow, data := [lo 0, hi 0, lo c.height, hi c.height] }]

theorem splitFrames_frame (c : Cfg) (src : Source) {w : List WireItem} (h : w.all isWaitItem = true) :
    splitFrames (frameItems c src ++ w)
      = windowFrames c ++ (List.range c.height).flatMap (rowFrames c src) ++ activationFrames c := by
  rw [frameItems, setWindowItems]
  simp only [List.append_assoc]
  have hl : leadingData (activationItems c ++ w) = [] := rfl
  rw [splitFrames_cmdItems, splitFrames_cmdItems, splitFrames_rows c src _ _ hl, splitFrames_activation c h,
    leadingData_rows c src _ _ hl]
  rfl

/-! ### Traces that were cut off: an access failed or never returned (30_encoding.md R126; log entry 18) -/

/-- Fewer than 30 events hold no framed byte. -/
theorem decodeFrom_short (es : List Event) : ∀ opens : Bool, es.length < 30 →
    (decodeFrom 0 opens es).all (fun i => !isFramed i) = true := by
  induction es with
  | nil => intro opens _; rfl
  | cons e es ih =>
    intro opens h
    have hnone : (if opens then readGroup ((e :: es).take 30) else none) = none := by
      cases opens with
      | false => rfl
      | true =>
        rw [if_pos rfl, readGroup, if_neg]
        intro hc
        have hl := congrArg List.length hc
        rw [List.length_take, show (framedByte _ _).length = 30 from rfl] at hl
        omega
    rw [decodeFrom, hnone]
    simp only [List.all_cons, isFramed, Bool.not_false, Bool.true_and]
    exact ih _ (by simp only [List.length_cons] at h; omega)

/-- A framed byte that was cut off before its last write, and then at most one failed write: no framed byte. -/
theorem decodeFrom_cutByte (r : Role) (v : Byte) (n : Nat) (tail : List Event) (hn : n < 30)
    (ht : tail = [] ∨ ∃ l w, tail = [.f l w]) :
    (decodeFrom 0 true ((framedByte r v).take n ++ tail)).all (fun i => !isFramed i) = true := by
  have hlen : ((framedByte r v).take n).length ≤ n := by simp
  rcases ht with rfl | ⟨l, w, rfl⟩
  · exact decodeFrom_short _ _ (by simpa using Or.inl hn)
  · cases hl : (framedByte r v).take n ++ [Event.f l w] with
    | nil => rfl
    | cons e es =>
      have hes : es.length < 30 := by
        have := congrArg List.length hl
        simp only [List.length_append, List.length_cons, List.length_nil] at this
        omega
      have hnone : readGroup ((e :: es).take 30) = none := by
        rw [readGroup, if_neg]
        intro hc
        have hfull : (e :: es).take 30 = e :: es := List.take_of_length_le (by simp only [List.length_cons]; omega)
        have hmem : Event.f l w ∈ (e :: es).take 30 := by rw [hfull, ← hl]; simp
        rw [hc] at hmem
        have hp := List.all_eq_true.mp (framedByte_planned _ _) _ hmem
        simp [isPlanned] at hp
      rw [decodeFrom, if_pos rfl, hnone]
      simp only [List.all_cons, isFramed, Bool.not_false, Bool.true_and]
      exact decodeFrom_short _ _ hes

/-- The decoder gives back the items that were sent whole, and then single events. -/
theorem decodeFrom_cut (items : List WireItem) : ∀ (opens : Bool) (pre rest tail : List Event),
    readable opens items = true → eventsOf items = pre ++ rest → (tail = [] ∨ ∃ l w, tail = [.f l w]) →
    ∃ k cut, decodeFrom 0 opens (pre ++ tail) = items.take k ++ cut ∧ cut.all (fun i => !isFramed i) = true := by
  induction items with
  | nil =>
    intro opens pre rest tail _ he ht
    obtain ⟨rfl, -⟩ := List.append_eq_nil_iff.mp he.symm
    refine ⟨0, _, rfl, decodeFrom_short _ _ ?_⟩
    rcases ht with rfl | ⟨l, w, rfl⟩ <;> simp
  | cons i is ih =>
    intro opens pre rest tail hr he ht
    cases i with
    | framed r v =>
      simp only [readable, Bool.and_eq_true] at hr
      rw [eventsOf_cons, show itemEvents (.framed r v) = framedByte r v from rfl] at he
      rw [hr.1]
      by_cases hlt : pre.length < 30
      · have hpre : pre = (framedByte r v).take pre.length := by
          have h1 := congrArg (List.take pre.length) he
          rw [List.take_append_of_le_length (by show pre.length ≤ 30; omega), List.take_left] at h1
          exact h1.symm
        refine ⟨0, _, rfl, ?_⟩
        rw [hpre]
        exact decodeFrom_cutByte r v _ tail hlt ht
      · obtain ⟨pre', rfl⟩ : ∃ pre', pre = framedByte r v ++ pre' := by
          refine ⟨pre.drop 30, ?_⟩
          have h1 := congrArg (List.take 30) he
          rw [List.take_append_of_le_length (by show 30 ≤ 30; omega), List.take_append_of_le_length (by omega)] at h1
          rw [show framedByte r v = pre.take 30 from h1, List.take_append_drop]
        rw [List.append_assoc] at he
        obtain ⟨k, cut, h1, h2⟩ := ih true pre' rest tail hr.2 (List.append_cancel_left he) ht
        exact ⟨k + 1, cut, by rw [List.append_assoc, decodeFrom_framed, h1]; rfl, h2⟩
    | single e =>
      simp only [readable, Bool.and_eq_true, Bool.not_eq_true'] at hr
      rw [eventsOf_cons, show itemEvents (.single e) = [e] from rfl] at he
      cases pre with
      | nil =>
        refine ⟨0, _, rfl, decodeFrom_short _ _ ?_⟩
        rcases ht with rfl | ⟨l, w, rfl⟩ <;> simp
      | cons e' pre =>
        simp only [List.cons_append, List.nil_append, List.cons.injEq] at he
        obtain ⟨rfl, he⟩ := he
        obtain ⟨k, cut, h1, h2⟩ := ih (opensGroup e) pre rest tail hr.2 he ht
        exact ⟨k + 1, cut, by rw [List.cons_append, decodeFrom_single _ _ _ hr.1, h1]; rfl, h2⟩

/-! ### Frames of a list of items that was cut off -/

theorem leadingData_singles (as : List WireItem) {cut : List WireItem} (h : cut.all (fun i => !isFramed i) = true) :
    leadingData (as ++ cut) = leadingData as := by
  induction as with
  | nil =>
    cases cut with
    | nil => rfl
    | cons i is =>
      cases i with
      | framed r v => simp [isFramed] at h
      | single e => rfl
  | cons a as ih =>
    cases a with
    | framed r v =>
      cases r with
      | cmd => rfl
      | data => rw [List.cons_append, leadingData, leadingData, ih]
    | single e => rfl

theorem splitFrames_singles (as : List WireItem) {cut : List WireItem} (h : cut.all (fun i => !isFramed i) = true) :
    splitFrames (as ++ cut) = splitFrames as := by
  induction as with
  | nil =>
    rw [List.nil_append]
    induction cut with
    | nil => rfl
    | cons i is ih =>
      simp only [List.all_cons, Bool.and_eq_true] at h
      cases i with
      | framed r v => exact absurd h.1 (by simp [isFramed])
      | single e => rw [splitFrames]; exact ih h.2
  | cons a as ih =>
    cases a with
    | framed r v =>
      cases r with
      | cmd => rw [List.cons_append, splitFrames, splitFrames, leadingData_singles as h, ih]
      | data => rw [List.cons_append, splitFrames, splitFrames, ih]
    | single e => rw [List.cons_append, splitFrames, splitFrames, ih]

/-- Where a further frame follows, a frame's data bytes do not depend on what comes after. -/
theorem leadingData_of_splitFrames (as bs : List WireItem) (h : splitFrames as ≠ []) :
    leadingData (as ++ bs) = leadingData as := by
  induction as with
  | nil => exact absurd rfl h
  | cons a as ih =>
    cases a with
    | framed r v =>
      cases r with
      | cmd => rfl
      | data => rw [List.cons_append, leadingData, leadingData, ih (by simpa [splitFrames] using h)]
    | single e => rfl

/-- The frames of the beginning of a list of items: all but the last are frames of the whole list. -/
theorem splitFrames_dropLast (as bs : List WireItem) :
    ∀ f ∈ (splitFrames as).dropLast, f ∈ splitFrames (as ++ bs) := by
  induction as with
  | nil => intro f hf; cases hf
  | cons a as ih =>
    intro f hf
    cases a with
    | framed r v =>
      cases r with
      | cmd =>
        rw [splitFrames] at hf
        rw [List.cons_append, splitFrames]
        by_cases hne : splitFrames as = []
        · rw [hne] at hf; cases hf
        · rw [List.dropLast_cons_of_ne_nil hne] at hf
          rcases List.mem_cons.mp hf with rfl | hf
          · rw [leadingData_of_splitFrames as bs hne]
            exact List.mem_cons_self
          · exact List.mem_cons_of_mem _ (ih f hf)
      | data => exact ih f hf
    | single e => exact ih f hf

/-- A frame's command byte is a command byte among the items. -/
theorem splitFrames_op {items : List WireItem} {f : CommandFrame} (h : f ∈ splitFrames items) :
    .framed .cmd f.op ∈ items := by
  induction items with
  | nil => cases h
  | cons i is ih =>
    cases i with
    | framed r v =>
      cases r with
      | cmd =>
        rw [splitFrames] at h
        rcases List.mem_cons.mp h with rfl | h
        · exact List.mem_cons_self
        · exact List.mem_cons_of_mem _ (ih h)
      | data => exact List.mem_cons_of_mem _ (ih h)
    | single e => exact List.mem_cons_of_mem _ (ih h)

/-! ### Command bytes (30_encoding.md R116) -/

/-- With distinct command bytes, a command byte names its command. -/
theorem commandOf_opByte {c : Cfg} (h : c.opsDistinct = true) (cmd : WireCommand) :
    commandOf c (opByte c cmd) = some cmd := by
  have hnd : (allCommands.map (opByte c)).Nodup := of_decide_eq_true h
  have hmem : ∀ x : WireCommand, x ∈ allCommands := by intro x; cases x <;> decide
  have hinj : ∀ x, opByte c x = opByte c cmd → x = cmd := fun x hx =>
    List.inj_on_of_nodup_map hnd (hmem x) (hmem cmd) hx
  have hfun : (fun x => opByte c x == opByte c cmd) = fun x => decide (x = cmd) := by
    funext x
    by_cases hx : x = cmd
    · subst hx; simp
    · have hne : ¬opByte c x = opByte c cmd := fun he => hx (hinj x he)
      simp [hx, hne]
  rw [commandOf, hfun]
  cases cmd <;> rfl

theorem frameConforms_of {c : Cfg} (h : c.opsDistinct = true) (cmd : WireCommand) (ds : List Byte)
    (hn : dataCountAllowed c cmd ds.length = true) : frameConforms c { op := opByte c cmd, data := ds } = true := by
  rw [frameConforms]
  simp only [commandOf_opByte h]
  exact hn

theorem rowBytes_le (c : Cfg) (src : Source) (y : Nat) : (rowBytes c src y).length ≤ byteWidth c := by
  cases src <;> simp [rowBytes]

theorem rowFrames_conform {c : Cfg} (h : c.opsDistinct = true) (src : Source) (y : Nat) :
    ∀ f ∈ rowFrames c src y, frameConforms c f = true := by
  intro f hf
  simp only [rowFrames, List.mem_cons, List.not_mem_nil, or_false] at hf
  rcases hf with rfl | rfl | rfl
  · exact frameConforms_of h .ramXCounter _ rfl
  · exact frameConforms_of h .ramYCounter _ rfl
  · exact frameConforms_of h .writeRam _ (by simp [dataCountAllowed, rowBytes_le])

theorem activationFrames_conform {c : Cfg} (h : c.opsDistinct = true) :
    ∀ f ∈ activationFrames c, frameConforms c f = true := by
  intro f hf
  cases hk : c.terminateKind with
  | cmd =>
    simp only [activationFrames, hk, List.mem_cons, List.not_mem_nil, or_false] at hf
    rcases hf with rfl | rfl | rfl
    · exact frameConforms_of h .displayUpdateCtrl2 _ rfl
    · exact frameConforms_of h .masterActivation _ (by simp [dataCountAllowed, hk])
    · exact frameConforms_of h .terminateFrameRw _ rfl
  | data =>
    simp only [activationFrames, hk, List.mem_cons, List.not_mem_nil, or_false] at hf
    rcases hf with rfl | rfl
    · exact frameConforms_of h .displayUpdateCtrl2 _ rfl
    · exact frameConforms_of h .masterActivation _ (by simp [dataCountAllowed, hk])

/-! ### Counts (44_streamer.md R272 to R274) -/

theorem framedBytes_append (as bs : List WireItem) : framedBytes (as ++ bs) = framedBytes as + framedBytes bs := by
  simp [framedBytes]

theorem framedBytes_cmdItems (op : Byte) (ds : List Byte) : framedBytes (cmdItems op ds) = 1 + ds.length := by
  have h := List.countP_eq_length.mpr (List.all_eq_true.mp (cmdItems_framed op ds))
  rw [framedBytes, h, cmdItems, List.length_cons, List.length_map, Nat.add_comm]

theorem framedBytes_wait {w : List WireItem} (h : w.all isWaitItem = true) : framedBytes w = 0 := by
  rw [framedBytes, List.countP_eq_zero]
  intro i hi
  have := List.all_eq_true.mp h i hi
  cases i with
  | framed r v => simp [isWaitItem] at this
  | single e => simp [isFramed]

theorem gpioWrites_append (as bs : List Event) : gpioWrites (as ++ bs) = gpioWrites as + gpioWrites bs := by
  simp [gpioWrites]

theorem gpioWrites_framed (items : List WireItem) (h : items.all isFramed = true) :
    gpioWrites (eventsOf items) = 30 * framedBytes items := by
  induction items with
  | nil => rfl
  | cons i is ih =>
    simp only [List.all_cons, Bool.and_eq_true] at h
    cases i with
    | single e => exact absurd h.1 (by simp [isFramed])
    | framed r v =>
      rw [eventsOf_cons, gpioWrites_append, ih h.2, show gpioWrites (itemEvents (.framed r v)) = 30 from rfl,
        show framedBytes (.framed r v :: is) = framedBytes is + 1 from List.countP_cons_of_pos rfl]
      omega

theorem gpioWrites_wait (w : List WireItem) (h : w.all isWaitItem = true) : gpioWrites (eventsOf w) = 0 := by
  induction w with
  | nil => rfl
  | cons i is ih =>
    simp only [List.all_cons, Bool.and_eq_true] at h
    rw [eventsOf_cons, gpioWrites_append, ih h.2]
    cases i with
    | framed r v => exact absurd h.1 (by simp [isWaitItem])
    | single e => cases e <;> first | rfl | exact absurd h.1 (by simp [isWaitItem, isWaitEvent])

/-- The rows of a buffer, one after another, are its first bytes (44_streamer.md R272). -/
theorem rows_buffer (buf : List Byte) (bw n : Nat) :
    (List.range n).flatMap (fun y => (buf.drop (y * bw)).take bw) = buf.take (bw * n) := by
  induction n with
  | zero => simp
  | succ n ih =>
    rw [List.range_succ, List.flatMap_append, ih, List.flatMap_cons, List.flatMap_nil, List.append_nil, Nat.mul_succ,
      List.take_add, Nat.mul_comm n bw]

theorem rows_const (bw n : Nat) (v : Byte) :
    (List.range n).flatMap (fun _ => List.replicate bw v) = List.replicate (bw * n) v := by
  induction n with
  | zero => simp
  | succ n ih =>
    rw [List.range_succ, List.flatMap_append, ih, List.flatMap_cons, List.flatMap_nil, List.append_nil, Nat.mul_succ,
      List.replicate_append_replicate]

theorem rowBytes_length (c : Cfg) (buf : List Byte) (y : Nat) :
    (rowBytes c (.buffer buf) y).length = min (byteWidth c) (buf.length - y * byteWidth c) := by
  simp [rowBytes]

theorem rows_length (c : Cfg) (src : Source) :
    ((List.range c.height).flatMap (rowBytes c src)).length = frameDataBytes c src := by
  cases src with
  | const =>
    rw [show rowBytes c .const = fun _ => List.replicate (byteWidth c) clearPattern from rfl, rows_const]
    simp [frameDataBytes]
  | buffer buf =>
    rw [show rowBytes c (.buffer buf) = fun y => (buf.drop (y * byteWidth c)).take (byteWidth c) from rfl, rows_buffer]
    simp [frameDataBytes, Nat.min_comm]

theorem framedBytes_row (c : Cfg) (src : Source) (y : Nat) :
    framedBytes (rowItems c src y) = 6 + (rowBytes c src y).length := by
  rw [rowItems, setCursorItems]
  simp only [framedBytes_append, framedBytes_cmdItems, List.length_cons, List.length_nil]
  omega

theorem framedBytes_rows (c : Cfg) (src : Source) (n : Nat) :
    framedBytes ((List.range n).flatMap (rowItems c src))
      = 6 * n + ((List.range n).flatMap (rowBytes c src)).length := by
  induction n with
  | zero => rfl
  | succ n ih =>
    simp only [List.range_succ, List.flatMap_append, framedBytes_append, ih, List.flatMap_cons, List.flatMap_nil,
      List.append_nil, framedBytes_row, List.length_append]
    omega

/-- The framed bytes of a frame (44_streamer.md R274). -/
theorem framedBytes_frame (c : Cfg) (src : Source) :
    framedBytes (frameItems c src) = 12 + 6 * c.height + frameDataBytes c src := by
  rw [frameItems, setWindowItems]
  simp only [framedBytes_append, framedBytes_cmdItems, framedBytes_rows, rows_length,
    show framedBytes (activationItems c) = 4 from rfl, List.length_cons, List.length_nil]
  omega

/-! ### Two frames of the same shape (44_streamer.md R277) -/

/-- Two lists of items that are the same but for the values of framed bytes. -/
inductive SameShape : List WireItem → List WireItem → Prop
  | nil : SameShape [] []
  | framed (r : Role) (v w : Byte) {as bs} (h : SameShape as bs) : SameShape (.framed r v :: as) (.framed r w :: bs)
  | single (e : Event) {as bs} (h : SameShape as bs) : SameShape (.single e :: as) (.single e :: bs)

theorem SameShape.refl : ∀ as, SameShape as as
  | [] => .nil
  | .framed r v :: as => .framed r v v (SameShape.refl as)
  | .single e :: as => .single e (SameShape.refl as)

theorem SameShape.append {as bs cs ds} (h : SameShape as bs) (h' : SameShape cs ds) :
    SameShape (as ++ cs) (bs ++ ds) := by
  induction h with
  | nil => exact h'
  | framed r v w _ ih => exact .framed r v w ih
  | single e _ ih => exact .single e ih

theorem sameShape_data (as : List Byte) : ∀ bs : List Byte, as.length = bs.length →
    SameShape (as.map (WireItem.framed .data)) (bs.map (WireItem.framed .data)) := by
  induction as with
  | nil => intro bs h; cases bs with
    | nil => exact .nil
    | cons b bs => simp at h
  | cons a as ih =>
    intro bs h
    cases bs with
    | nil => simp at h
    | cons b bs => exact .framed _ _ _ (ih bs (by simpa using h))

theorem sameButDin_refl (e : Event) : sameButDin e e = true := by
  unfold sameButDin
  split <;> simp

theorem sameShape_events {as bs : List WireItem} (h : SameShape as bs) :
    (eventsOf as).length = (eventsOf bs).length ∧
      ∀ p ∈ (eventsOf as).zip (eventsOf bs), sameButDin p.1 p.2 = true := by
  induction h with
  | nil => exact ⟨rfl, by simp⟩
  | framed r v w _ ih =>
    rw [eventsOf_cons, eventsOf_cons]
    have hl : (itemEvents (.framed r v)).length = (itemEvents (.framed r w)).length := rfl
    refine ⟨by rw [List.length_append, List.length_append, hl, ih.1], ?_⟩
    rw [List.zip_append hl]
    intro p hp
    rcases List.mem_append.mp hp with hp | hp
    · have hall : ((framedByte r v).zip (framedByte r w)).all (fun p => sameButDin p.1 p.2) = true := by
        cases r <;> rfl
      exact List.all_eq_true.mp hall p hp
    · exact ih.2 p hp
  | single e _ ih =>
    rw [eventsOf_cons, eventsOf_cons]
    refine ⟨by rw [List.length_append, List.length_append, ih.1], ?_⟩
    intro p hp
    simp only [itemEvents, List.cons_append, List.nil_append, List.zip_cons_cons, List.mem_cons] at hp
    rcases hp with rfl | hp
    · exact sameButDin_refl e
    · exact ih.2 p hp

theorem sameShape_frames (c : Cfg) (b1 b2 : List Byte) (h : b1.length = b2.length) :
    SameShape (frameItems c (.buffer b1)) (frameItems c (.buffer b2)) := by
  have hrow : ∀ y, SameShape (rowItems c (.buffer b1) y) (rowItems c (.buffer b2) y) := by
    intro y
    rw [rowItems, rowItems]
    refine (SameShape.refl _).append (.framed _ _ _ (sameShape_data _ _ ?_))
    rw [rowBytes_length, rowBytes_length, h]
  have hrows : ∀ n, SameShape ((List.range n).flatMap (rowItems c (.buffer b1)))
      ((List.range n).flatMap (rowItems c (.buffer b2))) := by
    intro n
    induction n with
    | zero => exact .nil
    | succ n ih =>
      rw [List.range_succ, List.flatMap_append, List.flatMap_append]
      exact ih.append (by simpa using hrow n)
  rw [frameItems, frameItems]
  exact ((SameShape.refl _).append (hrows _)).append (SameShape.refl _)

/-- A buffer of exactly BW HEIGHT bytes of 0xFF gives CLEAR's items (30_encoding.md R131(a)). -/
theorem frameItems_ones (c : Cfg) :
    frameItems c (.buffer (List.replicate (byteWidth c * c.height) 0xFF)) = frameItems c .const := by
  have hrow : ∀ y, y < c.height →
      rowItems c (.buffer (List.replicate (byteWidth c * c.height) 0xFF)) y = rowItems c .const y := by
    intro y hy
    have hb : rowBytes c (.buffer (List.replicate (byteWidth c * c.height) 0xFF)) y = rowBytes c .const y := by
      simp only [rowBytes, List.drop_replicate, List.take_replicate, clearPattern]
      congr 1
      have h1 : (y + 1) * byteWidth c ≤ c.height * byteWidth c := Nat.mul_le_mul_right _ hy
      rw [Nat.add_mul, Nat.one_mul, Nat.mul_comm c.height] at h1
      omega
    rw [rowItems, rowItems, hb]
  have hrows : (List.range c.height).flatMap (rowItems c (.buffer (List.replicate (byteWidth c * c.height) 0xFF)))
      = (List.range c.height).flatMap (rowItems c .const) := by
    apply List.flatMap_congr
    intro y hy
    exact hrow y (List.mem_range.mp hy)
  rw [frameItems, frameItems, hrows]

end Sys2Proof.Machine
end

