-- ==== Sys2Proof/Laws/Steps.lean ====
section
/-! SUPPORT. What a step can do: the inversion of `step`, the host's position after it, the result of a host operation. -/

namespace Sys2Proof.Machine

/-- A step that answers a next state, or waits for ever, runs the decoded instruction. -/
theorem step_inversion {s t : State} (h : step s = .next t ∨ step s = .fault (.gpioNeverReturns t)) :
    s.host.runEnded = false ∧ ∃ is i, nextIssue s.host = some is ∧ decode is.space is.word = .ok i ∧
      i.wellFormed s.cfg = true ∧
      ((∃ u, exec i s = .next u ∧ t = advanceHost u ∧ step s = .next t) ∨
        (exec i s = .fault (.gpioNeverReturns t) ∧ step s = .fault (.gpioNeverReturns t))) := by
  have h0 := h
  unfold step at h
  cases hr : s.host.runEnded with
  | true => simp [hr] at h
  | false =>
    simp only [hr, Bool.false_eq_true, if_false] at h
    refine ⟨rfl, ?_⟩
    cases hn : nextIssue s.host with
    | none => simp [hn] at h
    | some is =>
      simp only [hn] at h
      cases hd : readIssue s.cfg is with
      | error r => simp [hd] at h
      | ok i =>
        simp only [hd] at h
        have hdec : decode is.space is.word = .ok i ∧ i.wellFormed s.cfg = true := by
          unfold readIssue at hd
          cases hdd : decode is.space is.word with
          | error w => simp [hdd] at hd
          | ok j =>
            simp only [hdd] at hd
            split at hd
            · cases hd; exact ⟨rfl, ‹_›⟩
            · cases hd
        refine ⟨is, i, rfl, hdec.1, hdec.2, ?_⟩
        cases he : exec i s with
        | next u =>
          simp only [he] at h
          rcases h with h | h
          · cases h
            refine .inl ⟨u, rfl, rfl, ?_⟩
            rcases h0 with h0 | h0
            · exact h0
            · unfold step at h0; simp [hr, hn, hd, he] at h0
          · cases h
        | fault f =>
          simp only [he] at h
          rcases h with h | h
          · cases h
          · cases h
            refine .inr ⟨rfl, ?_⟩
            unfold step; simp [hr, hn, hd, he]
        | refused r => simp [he] at h

@[simp] theorem advanceHost_cfg (s : State) : (advanceHost s).cfg = s.cfg := by unfold advanceHost; split <;> rfl
@[simp] theorem advanceHost_lines (s : State) : (advanceHost s).lines = s.lines := by
  unfold advanceHost; split <;> rfl
@[simp] theorem advanceHost_status (s : State) : (advanceHost s).status = s.status := by
  unfold advanceHost; split <;> rfl
@[simp] theorem advanceHost_ghost (s : State) : (advanceHost s).ghost = s.ghost := by
  unfold advanceHost; split <;> rfl
@[simp] theorem advanceHost_pos (s : State) : (advanceHost s).pos = s.pos := by unfold advanceHost; split <;> rfl
@[simp] theorem advanceHost_revTrace (s : State) : (advanceHost s).revTrace = s.revTrace := by
  unfold advanceHost; split <;> rfl
@[simp] theorem advanceHost_program (s : State) : (advanceHost s).host.program = s.host.program := by
  unfold advanceHost; split <;> rfl
@[simp] theorem advanceHost_revResults (s : State) : (advanceHost s).host.revResults = s.host.revResults := by
  unfold advanceHost; split <;> rfl
@[simp] theorem advanceHost_runEnded (s : State) : (advanceHost s).host.runEnded = s.host.runEnded := by
  unfold advanceHost; split <;> simp_all
theorem advanceHost_index (s : State) :
    (advanceHost s).host.index = if s.host.runEnded then s.host.index else s.host.index + 1 := by
  unfold advanceHost; split <;> rfl

/-- An entry that does not decode is refused (30_encoding.md R121, R124). -/
theorem step_undecodable {s : State} {is : Issue} {why : Reject} (hr : s.host.runEnded = false)
    (hn : nextIssue s.host = some is) (h : decode is.space is.word = .error why) :
    step s = .refused (.undecodable why) := by
  unfold step
  simp [hr, hn, readIssue, h]

/-- A host operation that answers a next state has given the host one result (10_state.md R40). -/
theorem host_result {i : Instr} {op : HostOp} {s t : State} (hi : hostOpOf i = some op) (h : exec i s = .next t) :
    ∃ r, t.host.revResults = r :: s.host.revResults ∧ r.status = t.status ∧
      t.host.runEnded = r.raised.isSome := by
  cases hostAnswer hi h <;> exact ⟨_, rfl, rfl, rfl⟩

end Sys2Proof.Machine
end

