-- ==== Sys2Proof/Laws/Completions.lean ====
section
/-! SUPPORT. What the statements of completion need: how many accesses a list of items makes, what a well-formed
configuration gives, and what a byte on the wire looks like, position by position. -/

namespace Sys2Proof.Machine

/-! ### The fields of the state a host operation leaves -/

@[simp] theorem hostOk_lines (i : Instr) (op : HostOp) (es : List Event) (d : Datapath) (s : State) :
    (hostOk i op es d s).lines = linesAfter s.lines es := rfl
@[simp] theorem hostOk_status (i : Instr) (op : HostOp) (es : List Event) (d : Datapath) (s : State) :
    (hostOk i op es d s).status = okStatus i s := rfl
@[simp] theorem hostOk_pstate (i : Instr) (op : HostOp) (es : List Event) (d : Datapath) (s : State) :
    (hostOk i op es d s).ghost.pstate = pstateOnOk op s.ghost.pstate := rfl
@[simp] theorem hostOk_env (i : Instr) (op : HostOp) (es : List Event) (d : Datapath) (s : State) :
    (hostOk i op es d s).env = envAfter s.env es := rfl
@[simp] theorem hostOk_blockedMs (i : Instr) (op : HostOp) (es : List Event) (d : Datapath) (s : State) :
    (hostOk i op es d s).blockedMs = s.blockedMs + delayedMs s.env.late es := rfl
@[simp] theorem hostOk_runEnded (i : Instr) (op : HostOp) (es : List Event) (d : Datapath) (s : State) :
    (hostOk i op es d s).host.runEnded = false := rfl
@[simp] theorem hostOk_trace (i : Instr) (op : HostOp) (es : List Event) (d : Datapath) (s : State) :
    (hostOk i op es d s).trace = s.trace ++ es := emit_trace es s
@[simp] theorem hostErr_lines (i : Instr) (op : HostOp) (e : Raise) (d : Datapath) (t s : State) :
    (hostErr i op e d t s).lines = t.lines := rfl
@[simp] theorem hostErr_status (i : Instr) (op : HostOp) (e : Raise) (d : Datapath) (t s : State) :
    (hostErr i op e d t s).status = errStatus e s := rfl
@[simp] theorem hostErr_pstate (i : Instr) (op : HostOp) (e : Raise) (d : Datapath) (t s : State) :
    (hostErr i op e d t s).ghost.pstate = pstateOnErr op s.ghost.pstate := rfl
@[simp] theorem hostErr_env (i : Instr) (op : HostOp) (e : Raise) (d : Datapath) (t s : State) :
    (hostErr i op e d t s).env = t.env := rfl
@[simp] theorem hostErr_blockedMs (i : Instr) (op : HostOp) (e : Raise) (d : Datapath) (t s : State) :
    (hostErr i op e d t s).blockedMs = t.blockedMs := rfl
@[simp] theorem hostErr_runEnded (i : Instr) (op : HostOp) (e : Raise) (d : Datapath) (t s : State) :
    (hostErr i op e d t s).host.runEnded = true := rfl
@[simp] theorem hostErr_trace (i : Instr) (op : HostOp) (e : Raise) (d : Datapath) (t s : State) :
    (hostErr i op e d t s).trace = t.trace := rfl

theorem hostItems_init (c : Cfg) (mode : Byte) : hostItems c (.init mode) = initItems c mode := rfl
theorem hostItems_display (c : Cfg) (buf : List Byte) : hostItems c (.display buf) = frameItems c (.buffer buf) := rfl
theorem hostItems_clear (c : Cfg) : hostItems c .clear = frameItems c .const := rfl

/-! ### Accesses -/

/-- If the next `n` answers are successes, so are the next `m ≤ n`. -/
theorem answersOk_mono : ∀ {n m : Nat} (d : Draws GpioAnswer), m ≤ n → answersOk n d = true → answersOk m d = true := by
  intro n
  induction n with
  | zero =>
    intro m d h _
    obtain rfl : m = 0 := by omega
    rfl
  | succ n ih =>
    intro m d h ha
    cases m with
    | zero => rfl
    | succ m =>
      simp only [answersOk, Bool.and_eq_true] at ha ⊢
      exact ⟨ha.1, ih _ (by omega) ha.2⟩

theorem accesses_transportBytes (l : List Byte) : accesses (l.flatMap transportByte) = 26 * l.length := by
  induction l with
  | nil => rfl
  | cons a as ih =>
    rw [List.flatMap_cons, accesses_append, ih, accesses_transportByte, List.length_cons]
    omega

theorem accesses_framedItems (items : List WireItem) (h : items.all isFramed = true) :
    accesses (eventsOf items) = 30 * items.length := by
  induction items with
  | nil => rfl
  | cons i is ih =>
    simp only [List.all_cons, Bool.and_eq_true] at h
    rw [eventsOf_cons, accesses_append, ih h.2, List.length_cons]
    cases i with
    | framed r v =>
      rw [show accesses (itemEvents (.framed r v)) = 30 from rfl]
      omega
    | single e => have := h.1; simp [isFramed] at this

theorem accesses_cmdItems (op : Byte) (ds : List Byte) : accesses (eventsOf (cmdItems op ds)) = 30 * (1 + ds.length) := by
  rw [accesses_framedItems _ (cmdItems_framed op ds)]
  simp only [cmdItems, List.length_cons, List.length_map]
  omega

/-! ### A well-formed configuration (00_scope.md R12) -/

theorem lutFull_length {c : Cfg} (h : c.wf = true) : c.lutFull.length = 30 := by
  simp [Cfg.wf] at h
  omega

theorem lutPartial_length {c : Cfg} (h : c.wf = true) : c.lutPartial.length = 30 := by
  simp [Cfg.wf] at h
  omega

theorem tResetMs_ge {c : Cfg} (h : c.wf = true) : 200 ≤ c.tResetMs := by
  simp [Cfg.wf] at h
  omega

/-! ### Micro-operations and frames without a busy wait -/

/-- One that waits for nothing, and whose accesses all succeed. -/
theorem inner_plain {i : Instr} {s : State} (hi : hostOpOf i = none) (hwt : innerWaits i = false)
    (hw : s.cfg.wf = true) (ha : answersOk (accesses (innerEvents s.cfg i)) s.env.gpio = true) :
    ∃ d, exec i s = .next { emit (innerEvents s.cfg i) s with
      dp := d, ghost := innerGhost s.cfg i s.ghost, status := innerStatus s.cfg i s.status } := by
  have := inner_ok (w := []) hi hw (by rw [hwt]; rfl) (by simpa using ha)
  simpa using this

/-- A host operation that waits for nothing, and whose accesses all succeed. -/
theorem host_plain {i : Instr} {op : HostOp} {s : State} (hi : hostOpOf i = some op) (hop : waitsAtEnd op = false)
    (hw : s.cfg.wf = true) (ha : answersOk (accesses (eventsOf (hostItems s.cfg i))) s.env.gpio = true) :
    ∃ d, exec i s = .next (hostOk i op (eventsOf (hostItems s.cfg i)) d s) := by
  have := host_ok (w := []) hi hw (by rw [hop]; rfl) (by simpa using ha)
  simpa using this

/-- A state whose trace is that of `emit es s`. -/
theorem trace_of_emit {es : List Event} {s t : State} (h : t.revTrace = (emit es s).revTrace) :
    t.trace = s.trace ++ es := by
  rw [State.trace, h]
  exact emit_trace es s

/-! ### The first read that is not busy -/

theorem firstIdle_eq {active : Level} : ∀ {n k : Nat} {d : Draws Level}, k ≤ n → busyFor active k d = true →
    nextDraw (drawsAfter k d) ≠ active → firstIdle active n d = some (k, nextDraw (drawsAfter k d)) := by
  intro n
  induction n with
  | zero =>
    intro k d hk _ hne
    obtain rfl : k = 0 := by omega
    simpa [firstIdle, drawsAfter] using hne
  | succ n ih =>
    intro k d hk hb hne
    cases k with
    | zero =>
      have hne' : nextDraw d ≠ active := hne
      simp [firstIdle, drawsAfter, hne']
    | succ k =>
      simp only [busyFor, Bool.and_eq_true, decide_eq_true_eq] at hb
      rw [firstIdle, if_neg (by simpa using hb.1), ih (by omega) hb.2 hne]
      rfl

theorem firstIdle_none {active : Level} : ∀ {n : Nat} {d : Draws Level}, busyFor active (n + 1) d = true →
    firstIdle active n d = none := by
  intro n
  induction n with
  | zero =>
    intro d hb
    simp only [busyFor, Bool.and_true, decide_eq_true_eq] at hb
    simp [firstIdle, hb]
  | succ n ih =>
    intro d hb
    rw [busyFor, Bool.and_eq_true, decide_eq_true_eq] at hb
    rw [firstIdle, if_neg (by simpa using hb.1), ih hb.2]
    rfl

/-! ### A byte on the wire -/

theorem framedByte_cons (r : Role) (v : Byte) :
    framedByte r v = .w .dc (roleLevel r) :: .w .dc .low :: .w .cs .low :: (transportByte v ++ [.w .cs .high]) := rfl

/-- The 26 writes of a WRITE_BYTE (40_transport.md R146). -/
theorem transportByte_eq (v : Byte) : transportByte v = [.w .cs .low,
      .w .din (bitLevel (v.getLsbD 7)), .w .clk .high, .w .clk .low,
      .w .din (bitLevel (v.getLsbD 6)), .w .clk .high, .w .clk .low,
      .w .din (bitLevel (v.getLsbD 5)), .w .clk .high, .w .clk .low,
      .w .din (bitLevel (v.getLsbD 4)), .w .clk .high, .w .clk .low,
      .w .din (bitLevel (v.getLsbD 3)), .w .clk .high, .w .clk .low,
      .w .din (bitLevel (v.getLsbD 2)), .w .clk .high, .w .clk .low,
      .w .din (bitLevel (v.getLsbD 1)), .w .clk .high, .w .clk .low,
      .w .din (bitLevel (v.getLsbD 0)), .w .clk .high, .w .clk .low, .w .cs .high] := rfl

theorem bitLevel_toLine (b : Bool) : (bitLevel b).toLine = if b then .high else .low := by cases b <;> rfl

/-- Whether an event drives DC. -/
def drivesDc : Event → Bool
  | .w .dc _ | .f .dc _ => true
  | .w .clk _ | .w .din _ | .w .cs _ | .w .rst _ | .f .clk _ | .f .din _ | .f .cs _ | .f .rst _ => false
  | .dly _ | .rd _ | .warn _ => false

theorem linesAfter_dc (es : List Event) : ∀ ls : Lines, es.all (fun e => !drivesDc e) = true →
    (linesAfter ls es).dc = ls.dc := by
  induction es with
  | nil => intro ls _; rfl
  | cons e es ih =>
    intro ls h
    simp only [List.all_cons, Bool.and_eq_true] at h
    rw [linesAfter_cons, ih _ h.2]
    cases e with
    | w l v => cases l <;> first | rfl | (have := h.1; simp [drivesDc] at this)
    | f l v => cases l <;> first | rfl | (have := h.1; simp [drivesDc] at this)
    | dly n => rfl
    | rd b => rfl
    | warn n => rfl

/-- DC is Low from the fourth write of a framed byte on (30_encoding.md R101). -/
theorem linesAfter_take_framedByte_dc (r : Role) (v : Byte) (ls : Lines) (n : Nat) (h1 : 3 ≤ n) :
    (linesAfter ls ((framedByte r v).take n)).dc = .low := by
  obtain ⟨m, rfl⟩ : ∃ m, n = m + 2 := ⟨n - 2, by omega⟩
  have hall : ((framedByte r v).drop 2).all (fun e => !drivesDc e) = true := rfl
  have hcons : framedByte r v = .w .dc (roleLevel r) :: .w .dc .low :: (framedByte r v).drop 2 := rfl
  rw [hcons, List.take_succ_cons, List.take_succ_cons, linesAfter_cons, linesAfter_cons, linesAfter_dc]
  · rfl
  · exact List.all_eq_true.mpr fun e he => List.all_eq_true.mp hall e (List.mem_of_mem_take he)

/-- How CS moves during a framed byte (41_framer.md R165). -/
theorem csChanges_framedByte (r : Role) (v : Byte) (ls : Lines) :
    csChanges ls (framedByte r v) = if ls.cs = .low then [.high] else [.low, .high] := by
  rw [framedByte_eq]
  cases hc : ls.cs <;>
    simp [csChanges, lineEffect, setLine, Level.toLine, hc]

theorem csAtRises_framedByte (r : Role) (v : Byte) (ls : Lines) (h : ls.clk ≠ .high) :
    csAtRises ls (framedByte r v) = List.replicate 8 .low := by
  rw [framedByte_eq]
  simp [csAtRises, lineEffect, setLine, Level.toLine, h, List.replicate]

/-- The bit slots of a framed byte (30_encoding.md R101). -/
theorem framedByte_slots (r : Role) (v : Byte) (j : Nat) (h : j < 8) :
    (framedByte r v)[4 + 3 * j]? = some (.w .din (bitLevel (v.getLsbD (7 - j)))) ∧
    (framedByte r v)[5 + 3 * j]? = some (.w .clk .high) ∧ (framedByte r v)[6 + 3 * j]? = some (.w .clk .low) := by
  have : j = 0 ∨ j = 1 ∨ j = 2 ∨ j = 3 ∨ j = 4 ∨ j = 5 ∨ j = 6 ∨ j = 7 := by omega
  rcases this with rfl|rfl|rfl|rfl|rfl|rfl|rfl|rfl <;> rw [framedByte_eq] <;> exact ⟨rfl, rfl, rfl⟩


end Sys2Proof.Machine
end

