-- ==== Sys2Proof/Tests/Slice0.lean ====
section
/-! SUPPORT. Tests of the model, each expected result taken from 95_test_vectors.md or computed by hand from the rule it
names; and for each statement with hypotheses a witness that meets them together. -/

namespace Sys2Proof.Tests

open Sys2Proof.Machine

-- One theorem at a time: many evaluations at once ask for more threads than the memory limit allows.
set_option Elab.async false

/-! ### A small bench -/

/-- A panel of 8 by 1 pixels, Poll with the times of T16 (timeout 10 ms, poll 3 ms), LUTs of known bytes. -/
def benchCfg : Cfg :=
  { Cfg.reference with
    width := 8
    height := 1
    busyPolicy := .poll
    tBusyMs := 5
    tBusyTimeoutMs := 10
    tPollMs := 3
    pixelBitOrder := 7
    lutFull := List.replicate 30 0x11
    lutPartial := List.replicate 30 0x22 }

/-- The reference geometry under FixedDelay, LUTs of known bytes. -/
def refCfg : Cfg := { benchCfg with width := 212, height := 104, busyPolicy := .fixedDelay }

/-- The state at power-on, in a configuration and with draws given. -/
def bench (c : Cfg) (gpio : List GpioAnswer) (busy : List Level) (alwaysBusy : Level) : State :=
  { State.reset with cfg := c, env := { gpio := ⟨gpio, .ok⟩, busy := ⟨busy, alwaysBusy⟩, late := ⟨[], 0⟩ } }

/-- The bench where every access succeeds and BUSY reads Low. -/
def calm : State := bench benchCfg [] [] .low

/-- The reference geometry, every access succeeding. -/
def calmRef : State := bench refCfg [] [] .low

/-- A state in the protocol state Ready. -/
def ready (s : State) : State := { s with ghost := { s.ghost with pstate := .ready } }

/-- A state whose host runs a program. -/
def running (s : State) (program : List Issue) : State := { s with host := { s.host with program := program } }

/-- The next state of an outcome; power-on where there is none. -/
def landed : Host.Outcome State Fault Refusal → State
  | .next t => t
  | .fault _ => State.reset
  | .refused _ => State.reset

/-- Whether an outcome is a next state. -/
def completes : Host.Outcome State Fault Refusal → Bool
  | .next _ => true
  | .fault _ => false
  | .refused _ => false

theorem next_of_completes {o : Host.Outcome State Fault Refusal} (h : completes o = true) : o = .next (landed o) := by
  cases o with
  | next t => rfl
  | fault f => cases h
  | refused r => cases h

/-- The state in which an access never returns; power-on where the outcome is another one. -/
def stuckAt : Host.Outcome State Fault Refusal → State
  | .fault (.gpioNeverReturns b) => b
  | .fault .programExhausted => State.reset
  | .fault .runAborted => State.reset
  | .next _ => State.reset
  | .refused _ => State.reset

/-- Whether an outcome is an access that never returns. -/
def isStuck : Host.Outcome State Fault Refusal → Bool
  | .fault (.gpioNeverReturns _) => true
  | .fault .programExhausted => false
  | .fault .runAborted => false
  | .next _ => false
  | .refused _ => false

theorem fault_of_isStuck {o : Host.Outcome State Fault Refusal} (h : isStuck o = true) :
    o = .fault (.gpioNeverReturns (stuckAt o)) := by
  cases o with
  | next t => cases h
  | fault f => cases f <;> first | rfl | cases h
  | refused r => cases h

/-- The reason of a refusal. -/
def refusal : Host.Outcome State Fault Refusal → Option Refusal
  | .refused r => some r
  | .next _ => none
  | .fault _ => none

/-- The events of an instruction run from a state with an empty trace. -/
def events (i : Instr) (s : State) : List Event := (landed (exec i s)).trace

/-- What the last operation returned. -/
def lastRaise (s : State) : Option Raise :=
  match s.host.revResults with
  | [] => none
  | r :: _ => r.raised

/-- The answers that make access number n (from 1) the first one that does not succeed. -/
def failsAt (n : Nat) (a : GpioAnswer) : List GpioAnswer := List.replicate (n - 1) .ok ++ [a]

/-! ### Well-formed configurations and instructions (00_scope.md R12; 30_encoding.md R104, R125) -/

theorem test_wf_bench : benchCfg.wf = true ∧ refCfg.wf = true ∧ Cfg.reference.wf = true := by decide
theorem test_wf_widthZero : { benchCfg with width := 0 }.wf = false := by decide
theorem test_wf_widthTooLarge : { benchCfg with width := 2048 }.wf = false := by decide
theorem test_wf_heightZero : { benchCfg with height := 0 }.wf = false := by decide
theorem test_wf_heightTooLarge : { benchCfg with height := 65537 }.wf = false := by decide
theorem test_wf_lutLen : { benchCfg with
    lutLen := 31, lutFull := List.replicate 31 0, lutPartial := List.replicate 31 0 }.wf = false := by decide
theorem test_wf_lutFullShort : { benchCfg with lutFull := List.replicate 29 0 }.wf = false := by decide
theorem test_wf_lutPartialLong : { benchCfg with lutPartial := List.replicate 31 0 }.wf = false := by decide
/-- T9: a reset time of 150 ms is ill formed. -/
theorem test_wf_resetTooShort : { benchCfg with tResetMs := 150 }.wf = false := by decide
theorem test_wf_pollZero : { benchCfg with tPollMs := 0 }.wf = false := by decide
theorem test_wf_opsCollide : { benchCfg with opWriteVcom := 0x24 }.opsDistinct = false := by decide
theorem test_wf_opsDistinct : benchCfg.opsDistinct = true := by decide

theorem test_wf_displayTooLong (buf : List Byte) (h : buf.length = 2 ^ 32) :
    (Instr.display buf).wellFormed benchCfg = false := by simp [Instr.wellFormed, fitsLength32, h]
theorem test_wf_writeBytesTooLong (bytes : List Byte) (h : bytes.length = 2 ^ 32) :
    (Instr.writeBytes bytes).wellFormed benchCfg = false := by simp [Instr.wellFormed, fitsLength32, h]
theorem test_wf_streamFrameTooLong (buf : List Byte) (h : buf.length = 2 ^ 32) :
    (Instr.streamFrame (.buffer buf)).wellFormed benchCfg = false := by simp [Instr.wellFormed, fitsLength32, h]
/-- A row of the bench's panel has one byte. -/
theorem test_wf_writeRamTooLong : (Instr.writeRam [1, 2]).wellFormed benchCfg = false := by decide
theorem test_wf_writeRamRow : (Instr.writeRam [1]).wellFormed benchCfg = true := by decide

theorem test_step_illFormedInstruction :
    refusal (step (running calm [⟨.wire, [0x24, 2, 0, 0, 0, 1, 2]⟩])) = some .illFormedInstruction := by decide
theorem test_exec_illFormedConfig :
    refusal (exec .sleep (bench { benchCfg with width := 0 } [] [] .low)) = some .illFormedConfig := by decide

/-! ### Words written out from 30_encoding.md R104, R106 and the table -/

theorem test_decode_init : decode .host [0b00000001, 0b00000111] = .ok (.init 7) := by decide
theorem test_decode_clear : decode .host [0b00000010] = .ok .clear := by decide
theorem test_decode_display :
    decode .host [0b00000011, 4, 0, 0, 0, 1, 2, 3, 4] = .ok (.display [1, 2, 3, 4]) := by decide
theorem test_decode_sleep : decode .host [0b00000100] = .ok .sleep := by decide
/-- P3: set_window 0, 0, 8, 16. -/
theorem test_decode_setWindow :
    decode .host [0b00000101, 0x00, 0x00, 0x00, 0x00, 0x08, 0x00, 0x10, 0x00] = .ok (.setWindow 0 0 8 16) := by decide
theorem test_decode_setCursor : decode .host [0b00000110, 0x07, 0x00, 0x00, 0x01] = .ok (.setCursor 7 256) := by decide
theorem test_decode_turnonDisplay : decode .host [0b00000111] = .ok .turnonDisplay := by decide
theorem test_decode_writeByte : decode .micro [0b10000000, 0xA5] = .ok (.writeByte 0xA5) := by decide
theorem test_decode_writeBytes :
    decode .micro [0b10000001, 2, 0, 0, 0, 0x01, 0x80] = .ok (.writeBytes [0x01, 0x80]) := by decide
theorem test_decode_sendDataInternal :
    decode .micro [0b10000010, 0x24, 1] = .ok (.sendDataInternal 0x24 true) := by decide
theorem test_decode_sendCmd : decode .micro [0b10000011, 0x24] = .ok (.sendCmd 0x24) := by decide
theorem test_decode_sendData : decode .micro [0b10000100, 0xFF] = .ok (.sendData 0xFF) := by decide
theorem test_decode_configure : decode .micro [0b10000101] = .ok .configure := by decide
theorem test_decode_reset : decode .micro [0b10000110] = .ok .reset := by decide
theorem test_decode_registerLoad : decode .micro [0b10000111] = .ok .registerLoad := by decide
theorem test_decode_lutLoad : decode .micro [0b10001000, 1] = .ok (.lutLoad 1) := by decide
theorem test_decode_busyWait : decode .micro [0b10001001] = .ok .busyWait := by decide
theorem test_decode_streamFrame : decode .micro [0b10001010, 0] = .ok (.streamFrame .const) ∧
    decode .micro [0b10001010, 1, 1, 0, 0, 0, 0x55] = .ok (.streamFrame (.buffer [0x55])) := by decide
theorem test_decode_driverOutputControl : decode .wire [0b00000001] = .ok .driverOutputControl := by decide
theorem test_decode_boosterSoftStart : decode .wire [0b00001100] = .ok .boosterSoftStart := by decide
theorem test_decode_writeVcom : decode .wire [0b00101100] = .ok .writeVcom := by decide
theorem test_decode_dummyLinePeriod : decode .wire [0b00111010] = .ok .dummyLinePeriod := by decide
theorem test_decode_gateTime : decode .wire [0b00111011] = .ok .gateTime := by decide
theorem test_decode_borderWaveform : decode .wire [0b00111100] = .ok .borderWaveform := by decide
theorem test_decode_dataEntryMode : decode .wire [0b00010001] = .ok .dataEntryMode := by decide
theorem test_decode_writeLut : decode .wire [0b00110010, 2] = .ok (.writeLut .unrecognised) := by decide
theorem test_decode_ramXWindow : decode .wire [0b01000100, 0, 0, 0xD4, 0] = .ok (.ramXWindow 0 212) := by decide
theorem test_decode_ramYWindow : decode .wire [0b01000101, 0, 0, 0x68, 0] = .ok (.ramYWindow 0 104) := by decide
theorem test_decode_ramXCounter : decode .wire [0b01001110, 0x2C, 0x01] = .ok (.ramXCounter 300) := by decide
theorem test_decode_ramYCounter : decode .wire [0b01001111, 0x51, 0] = .ok (.ramYCounter 81) := by decide
theorem test_decode_writeRam : decode .wire [0b00100100, 1, 0, 0, 0, 0xFF] = .ok (.writeRam [0xFF]) := by decide
theorem test_decode_displayUpdateCtrl2 : decode .wire [0b00100010] = .ok .displayUpdateCtrl2 := by decide
theorem test_decode_masterActivation : decode .wire [0b00100000] = .ok .masterActivation := by decide
theorem test_decode_terminateFrameRw : decode .wire [0b11111111] = .ok .terminateFrameRw := by decide
theorem test_decode_deepSleep : decode .wire [0b00010000] = .ok .deepSleep := by decide

/-- 30_encoding.md R121: no host code 0x00, 0x08, 0x80 or 0xFF. -/
theorem test_decode_foreignCodes : decode .host [0x00] = .error (.unknownCode .host 0x00) ∧
    decode .host [0x08] = .error (.unknownCode .host 0x08) ∧
    decode .host [0x80, 0xA5] = .error (.unknownCode .host 0x80) ∧
    decode .host [0xFF] = .error (.unknownCode .host 0xFF) := by decide
/-- 30_encoding.md R124: words one byte too short and one too long. -/
theorem test_decode_wrongLength : decode .host [0x01] = .error .tooFewBytes ∧
    decode .host [0x02, 0] = .error .trailingBytes ∧ decode .host [0x06, 0, 0, 0] = .error .tooFewBytes ∧
    decode .host [0x03, 2, 0, 0, 0, 1] = .error .tooFewBytes ∧
    decode .host [0x03, 1, 0, 0, 0, 1, 2] = .error .trailingBytes := by decide
/-- The table's words, bit 0 the least significant bit of the first byte. -/
theorem test_decodeTableWord : decodeTableWord 8 0x03 = some (.display []) ∧
    decodeTableWord 16 0x0701 = some (.init 7) ∧ decodeTableWord 8 0x8A = some (.streamFrame .const) ∧
    decodeTableWord 8 0x4F = some (.ramYCounter 0) ∧ decodeTableWord 8 0xC0 = none := by decide

/-- P3, its first two lines, in the textual syntax of R130. -/
theorem test_assemble : assemble benchCfg [] "init 7 ; unrecognised\nset_window 0, 0, 8, 0x10".toList
    = some [⟨.host, [0x01, 0x07]⟩, ⟨.host, [0x05, 0, 0, 0, 0, 8, 0, 0x10, 0]⟩] := by decide +kernel
/-- A line that is no operation. -/
theorem test_assemble_unknown : assemble benchCfg [] "wake".toList = none := by decide +kernel

/-! ### Operands (T6) -/

theorem test_operand_xb :
    [0, 7, 8, 16, 104, 211, 212, 256, 300, 2047, 2048, 65535].map xb
      = [0x00, 0x00, 0x01, 0x02, 0x0D, 0x1A, 0x1A, 0x20, 0x25, 0xFF, 0x00, 0xFF] := by decide
theorem test_operand_le : lo 300 = 0x2C ∧ hi 300 = 0x01 ∧ lo 2047 = 0xFF ∧ hi 2047 = 0x07 ∧ hi 65535 = 0xFF := by decide
/-- HEIGHT - 1: 104 gives 0x67, 0x00; 257 gives 0x00, 0x01; 65536 gives 0xFF, 0xFF. -/
theorem test_operand_height :
    [104, 1, 256, 257, 65536].map (fun h => (lo (heightOperand { benchCfg with height := h }),
      hi (heightOperand { benchCfg with height := h })))
      = [(0x67, 0x00), (0x00, 0x00), (0xFF, 0x00), (0x00, 0x01), (0xFF, 0xFF)] := by decide
/-- S1 and S11: 27 bytes a row, and a reference buffer of 2204 bytes. -/
theorem test_operand_byteWidth : byteWidth refCfg = 27 ∧ 212 * 104 / 10 = 2204 := by decide
theorem test_operand_mode : [0, 1, 2, 255].map (decodeMode benchCfg)
    = [.full, .partialRefresh, .unrecognised, .unrecognised] := by decide

/-! ### Transport and framer -/

/-- T1. -/
theorem test_writeByte_A5 : events (.writeByte 0xA5) calm = [.w .cs .low,
    .w .din .high, .w .clk .high, .w .clk .low, .w .din .low, .w .clk .high, .w .clk .low,
    .w .din .high, .w .clk .high, .w .clk .low, .w .din .low, .w .clk .high, .w .clk .low,
    .w .din .low, .w .clk .high, .w .clk .low, .w .din .high, .w .clk .high, .w .clk .low,
    .w .din .low, .w .clk .high, .w .clk .low, .w .din .high, .w .clk .high, .w .clk .low,
    .w .cs .high] := by decide
/-- T2, the row of 0x01. -/
theorem test_writeByte_01 : dinAtRises calm.lines (events (.writeByte 0x01) calm)
    = [.low, .low, .low, .low, .low, .low, .low, .high] := by decide
/-- T2: 52 writes, CS back High between the bytes; no event for no byte. -/
theorem test_writeBytes : csWrites (events (.writeBytes [0x01, 0x80]) calm) = [.low, .high, .low, .high] ∧
    (events (.writeBytes [0x01, 0x80]) calm).length = 52 ∧ events (.writeBytes []) calm = [] := by decide
/-- T3. -/
theorem test_sendCmd_24 : events (.sendCmd 0x24) calm = [.w .dc .low, .w .dc .low, .w .cs .low, .w .cs .low,
    .w .din .low, .w .clk .high, .w .clk .low, .w .din .low, .w .clk .high, .w .clk .low,
    .w .din .high, .w .clk .high, .w .clk .low, .w .din .low, .w .clk .high, .w .clk .low,
    .w .din .low, .w .clk .high, .w .clk .low, .w .din .high, .w .clk .high, .w .clk .low,
    .w .din .low, .w .clk .high, .w .clk .low, .w .din .low, .w .clk .high, .w .clk .low,
    .w .cs .high, .w .cs .high] := by decide
/-- T4. -/
theorem test_sendData_FF : events (.sendData 0xFF) calm = [.w .dc .high, .w .dc .low, .w .cs .low, .w .cs .low,
    .w .din .high, .w .clk .high, .w .clk .low, .w .din .high, .w .clk .high, .w .clk .low,
    .w .din .high, .w .clk .high, .w .clk .low, .w .din .high, .w .clk .high, .w .clk .low,
    .w .din .high, .w .clk .high, .w .clk .low, .w .din .high, .w .clk .high, .w .clk .low,
    .w .din .high, .w .clk .high, .w .clk .low, .w .din .high, .w .clk .high, .w .clk .low,
    .w .cs .high, .w .cs .high] := by decide
/-- T5: write 29 fails. -/
theorem test_sendData_fails29 :
    let t := landed (exec (.sendData 0xFF) (bench benchCfg (failsAt 29 .fails) [] .low))
    t.trace.length = 29 ∧ t.trace.getLast? = some (.f .cs .high) ∧ t.lines.cs = .unknown ∧ t.lines.clk = .low ∧
      t.lines.din = .high ∧ t.lines.dc = .low ∧ t.status.result = 1 ∧ t.status.errLine = 2 ∧ t.status.errLevel = 1 := by
  decide
theorem test_sendDataInternal : (events (.sendDataInternal 0x24 true) calm).head? = some (.w .dc .low) ∧
    (events (.sendDataInternal 0x24 false) calm).head? = some (.w .dc .high) := by decide

/-! ### Command frames (T7, the reference configuration) -/

theorem test_driverOutputControl : decodeTrace (events .driverOutputControl calmRef)
    = [.framed .cmd 0x01, .framed .data 0x67, .framed .data 0x00, .framed .data 0x00] := by decide +kernel
theorem test_boosterSoftStart : decodeTrace (events .boosterSoftStart calmRef)
    = [.framed .cmd 0x0C, .framed .data 0xD7, .framed .data 0xD6, .framed .data 0x9D] := by decide +kernel
theorem test_writeVcom : decodeTrace (events .writeVcom calmRef)
    = [.framed .cmd 0x2C, .framed .data 0xA8] := by decide +kernel
theorem test_dummyLinePeriod : decodeTrace (events .dummyLinePeriod calmRef)
    = [.framed .cmd 0x3A, .framed .data 0x1A] := by decide +kernel
theorem test_gateTime : decodeTrace (events .gateTime calmRef)
    = [.framed .cmd 0x3B, .framed .data 0x08] := by decide +kernel
theorem test_borderWaveform : decodeTrace (events .borderWaveform calmRef)
    = [.framed .cmd 0x3C, .framed .data 0x03] := by decide +kernel
theorem test_dataEntryMode : decodeTrace (events .dataEntryMode calmRef)
    = [.framed .cmd 0x11, .framed .data 0x03] := by decide +kernel
theorem test_writeLut_full : decodeTrace (events (.writeLut .full) calmRef)
    = .framed .cmd 0x32 :: List.replicate 30 (.framed .data 0x11) := by decide +kernel
/-- The command alone, or nothing where INVALID_MODE_SENDS_LUT_CMD is false. -/
theorem test_writeLut_unrecognised :
    decodeTrace (events (.writeLut .unrecognised) calmRef) = [.framed .cmd 0x32] ∧
    events (.writeLut .unrecognised) (bench { refCfg with invalidModeSendsLutCmd := false } [] [] .low) = [] := by
  decide +kernel
theorem test_ramXWindow : decodeTrace (events (.ramXWindow 0 212) calmRef)
    = [.framed .cmd 0x44, .framed .data 0x00, .framed .data 0x1A] := by decide +kernel
theorem test_ramYWindow : decodeTrace (events (.ramYWindow 0 104) calmRef)
    = [.framed .cmd 0x45, .framed .data 0x00, .framed .data 0x00, .framed .data 0x68, .framed .data 0x00] := by
  decide +kernel
theorem test_ramXCounter : decodeTrace (events (.ramXCounter 300) calmRef)
    = [.framed .cmd 0x4E, .framed .data 0x25] := by decide +kernel
theorem test_ramYCounter : decodeTrace (events (.ramYCounter 81) calmRef)
    = [.framed .cmd 0x4F, .framed .data 0x51, .framed .data 0x00] := by decide +kernel
theorem test_writeRam : decodeTrace (events (.writeRam [0x01, 0x80]) calmRef)
    = [.framed .cmd 0x24, .framed .data 0x01, .framed .data 0x80] := by decide +kernel
theorem test_displayUpdateCtrl2 : decodeTrace (events .displayUpdateCtrl2 calmRef)
    = [.framed .cmd 0x22, .framed .data 0xC4] := by decide +kernel
theorem test_masterActivation : decodeTrace (events .masterActivation calmRef) = [.framed .cmd 0x20] := by
  decide +kernel
theorem test_terminateFrameRw : decodeTrace (events .terminateFrameRw calmRef) = [.framed .cmd 0xFF] ∧
    decodeTrace (events .terminateFrameRw (bench { refCfg with terminateKind := .data } [] [] .low))
      = [.framed .data 0xFF] := by decide +kernel
theorem test_deepSleep : decodeTrace (events .deepSleep calmRef)
    = [.framed .cmd 0x10, .framed .data 0x01] := by decide +kernel

/-! ### Micro-operations of the sequencer -/

/-- T8. -/
theorem test_configure :
    let t := landed (exec .configure calm)
    t.trace = [.w .cs .high, .w .clk .low] ∧ t.ghost.pstate = .configured ∧ t.lines.cs = .high ∧
      t.lines.clk = .low ∧ t.lines.dc = .unknown ∧ t.lines.rst = .unknown := by decide
/-- T9, with T_RESET_MS = 250. -/
theorem test_reset : events .reset (bench { benchCfg with tResetMs := 250 } [] [] .low)
    = [.w .rst .high, .dly 250, .w .rst .low, .dly 250, .w .rst .high, .dly 250] := by decide
/-- T10. -/
theorem test_registerLoad : decodeTrace (events .registerLoad calmRef)
    = [.framed .cmd 0x01, .framed .data 0x67, .framed .data 0x00, .framed .data 0x00,
       .framed .cmd 0x0C, .framed .data 0xD7, .framed .data 0xD6, .framed .data 0x9D,
       .framed .cmd 0x2C, .framed .data 0xA8, .framed .cmd 0x3A, .framed .data 0x1A,
       .framed .cmd 0x3B, .framed .data 0x08, .framed .cmd 0x3C, .framed .data 0x03,
       .framed .cmd 0x11, .framed .data 0x03] := by decide +kernel
/-- T11: modes 1 and 2. -/
theorem test_lutLoad_partial : decodeTrace (events (.lutLoad 1) calmRef)
    = .framed .cmd 0x32 :: List.replicate 30 (.framed .data 0x22) := by decide +kernel
theorem test_lutLoad_invalid :
    let t := landed (exec (.lutLoad 2) calmRef)
    decodeTrace t.trace = [.framed .cmd 0x32, .single (.warn 1)] ∧ t.status.warn = 1 ∧ t.ghost.pstate = .lutLoaded ∧
      t.ghost.lutOk = false := by decide +kernel
/-- T16: busy once, and busy always. -/
theorem test_busyWait_once : events .busyWait (bench benchCfg [] [.high] .low)
    = [.rd .high, .dly 3, .rd .low] := by decide
theorem test_busyWait_timeout :
    let t := landed (exec .busyWait (bench benchCfg [] [] .high))
    t.trace = [.rd .high, .dly 3, .rd .high, .dly 3, .rd .high, .dly 3, .rd .high, .dly 3, .rd .high] ∧
      lastRaise t = some (.busyTimeout 12) := by decide
/-- T16: the first read fails; and a timeout of 0 ms. -/
theorem test_busyWait_readFails :
    let t := landed (exec .busyWait (bench benchCfg [.fails] [] .low))
    t.trace = [] ∧ lastRaise t = some .ioReadBusy ∧ t.status.errLine = 5 ∧ t.status.errLevel = 0 := by decide
theorem test_busyWait_zeroTimeout :
    let t := landed (exec .busyWait (bench { benchCfg with tBusyTimeoutMs := 0 } [] [] .high))
    t.trace = [.rd .high] ∧ lastRaise t = some (.busyTimeout 0) := by decide
/-- R270 on a panel of one row of one byte. -/
theorem test_streamFrame : decodeTrace (events (.streamFrame .const) calm)
    = [.framed .cmd 0x44, .framed .data 0x00, .framed .data 0x01,
       .framed .cmd 0x45, .framed .data 0x00, .framed .data 0x00, .framed .data 0x01, .framed .data 0x00,
       .framed .cmd 0x4E, .framed .data 0x00, .framed .cmd 0x4F, .framed .data 0x00, .framed .data 0x00,
       .framed .cmd 0x24, .framed .data 0xFF, .framed .cmd 0x22, .framed .data 0xC4, .framed .cmd 0x20,
       .framed .cmd 0xFF, .single (.rd .low)] := by decide +kernel

/-! ### Host operations -/

/-- T11 and S5: `init 7` sends no LUT byte, warns and returns Ok, with 575 writes and 3 delays. -/
theorem test_init_7 :
    let t := landed (exec (.init 7) calmRef)
    gpioWrites t.trace = 575 ∧ t.trace.getLast? = some (.warn 1) ∧ t.status.result = 0 ∧ t.status.warn = 1 ∧
      t.ghost.pstate = .ready ∧ t.ghost.lutOk = false ∧ t.blockedMs = 600 := by decide +kernel
/-- T21: the 4th write of INIT fails. -/
theorem test_init_fails4 :
    let t := landed (exec (.init 0) (bench refCfg (failsAt 4 .fails) [] .low))
    t.trace = [.w .cs .high, .w .clk .low, .w .rst .high, .dly 200, .f .rst .low] ∧
      t.status = { result := 1, warn := 0, errLine := 4, errLevel := 0 } ∧ t.ghost.pstate = .undefined ∧
      t.lines.rst = .unknown ∧ t.ghost.lutOk = false ∧ t.ghost.frameUndefined = true := by decide +kernel
/-- T18 on a panel of one byte, and T20: CLEAR from power-on is performed and is a violation. -/
theorem test_clear_ready :
    let t := landed (exec .clear (ready calm))
    t.trace = events (.streamFrame .const) calm ∧ t.ghost.frameUndefined = false ∧
      t.ghost.protocolViolation = false := by decide +kernel
theorem test_clear_uninitialized :
    let t := landed (exec .clear calm)
    t.ghost.pstate = .uninitialized ∧ t.ghost.protocolViolation = true ∧ t.ghost.frameUndefined = true := by
  decide +kernel
/-- T17: an empty buffer sends no data byte; of two bytes only the panel's one is sent. -/
theorem test_display_empty : framedBytes (decodeTrace (events (.display []) calm)) = 12 + 6 := by decide +kernel
theorem test_display_long : (splitFrames (decodeTrace (events (.display [0xAA, 0x55]) calm)))[4]?
    = some { op := 0x24, data := [0xAA] } := by decide +kernel
/-- T15: SLEEP in Ready, and in Sleeping. -/
theorem test_sleep_ready :
    let t := landed (exec .sleep (ready calm))
    decodeTrace t.trace = [.framed .cmd 0x10, .framed .data 0x01] ∧ t.ghost.pstate = .sleeping ∧
      t.ghost.protocolViolation = false ∧ t.lines.din = .high ∧ t.blockedMs = 0 := by decide +kernel
theorem test_sleep_twice :
    let t := landed (exec .sleep (landed (exec .sleep (ready calm))))
    t.ghost.pstate = .sleeping ∧ t.ghost.protocolViolation = true ∧ t.trace.length = 120 := by decide +kernel
/-- T12: 300, 5, 0, 3. -/
theorem test_setWindow : decodeTrace (events (.setWindow 300 5 0 3) calmRef)
    = [.framed .cmd 0x44, .framed .data 0x25, .framed .data 0x00, .framed .cmd 0x45, .framed .data 0x05,
       .framed .data 0x00, .framed .data 0x03, .framed .data 0x00] := by decide +kernel
/-- T13: 2048, 65535. -/
theorem test_setCursor : decodeTrace (events (.setCursor 2048 65535) calmRef)
    = [.framed .cmd 0x4E, .framed .data 0x00, .framed .cmd 0x4F, .framed .data 0xFF, .framed .data 0xFF] := by
  decide +kernel
/-- T14 with `TERMINATE_KIND = DATA`; T16: a timeout inside TURNON_DISPLAY. -/
theorem test_turnonDisplay :
    decodeTrace (events .turnonDisplay (bench { refCfg with terminateKind := .data } [] [] .low))
      = [.framed .cmd 0x22, .framed .data 0xC4, .framed .cmd 0x20, .framed .data 0xFF, .single (.dly 5)] := by
  decide +kernel
theorem test_turnonDisplay_timeout :
    let t := landed (exec .turnonDisplay (bench benchCfg [] [] .high))
    t.status.result = 2 ∧ t.ghost.frameUndefined = true ∧ t.host.runEnded = true := by decide +kernel
/-- 40_transport.md R145: an access that never returns leaves the block inside its operation. -/
theorem test_turnonDisplay_stuck :
    let b := stuckAt (exec .turnonDisplay (bench benchCfg (failsAt 31 .neverReturns) [] .low))
    b.trace.length = 30 ∧ b.pos = .running .turnonDisplay 30 ∧ b.host.revResults = [] := by decide +kernel

/-! ### Steps -/

/-- P1's last entry: `sleep` moves the host's position by one. -/
theorem test_step_sleep :
    let t := landed (step (running calm [⟨.host, [0x04]⟩]))
    t.host.index = 1 ∧ t.results.length = 1 ∧ t.trace.length = 60 := by decide +kernel
/-- P4: the first write fails, the position stays, and the next step is none. -/
theorem test_step_err :
    let t := landed (step (running (bench benchCfg [.fails] [] .low) [⟨.host, [0x04]⟩]))
    t.host.index = 0 ∧ t.trace = [.f .dc .low] ∧ t.status.errLine = 3 ∧ isStuck (step t) = false ∧
      completes (step t) = false := by decide +kernel
theorem test_step_fetchWord : (landed (step (calm.withFetchWord 8 0x04))).trace.length = 60 ∧
    (landed (step (calm.withFetchWord 8 0x85))).trace.length = 2 := by decide +kernel

/-! ### Witnesses: for each statement with hypotheses, a state and operands that meet them together -/

/-- Where every access succeeds, any number of them does. -/
theorem calm_answers (n : Nat) : answersOk n ⟨[], .ok⟩ = true := by
  induction n with
  | zero => rfl
  | succ n ih => rw [answersOk, Bool.and_eq_true]; exact ⟨rfl, ih⟩

/-- A host operation in a calm environment returns Ok. -/
theorem calm_returns {i : Instr} {op : HostOp} {s : State} (hi : hostOpOf i = some op) (hw : s.cfg.wf = true)
    (hg : s.env.gpio = ⟨[], .ok⟩) (hwait : (waitItems s.cfg s.env.busy).isSome = true) :
    ∃ t r, exec i s = .next t ∧ t.host.revResults = r :: s.host.revResults ∧ r.raised = none := by
  obtain ⟨w, hw'⟩ := Option.isSome_iff_exists.mp hwait
  cases hop : waitsAtEnd op with
  | true =>
    obtain ⟨d, h⟩ := host_ok (w := w) hi hw (by rw [hop]; exact hw') (by rw [hg]; exact calm_answers _)
    exact ⟨_, _, h, rfl, rfl⟩
  | false =>
    obtain ⟨d, h⟩ := host_plain hi hop hw (by rw [hg]; exact calm_answers _)
    exact ⟨_, _, h, rfl, rfl⟩

/-- A program of one SLEEP. -/
def oneSleep : State := running calm [⟨.host, [0x04]⟩]

theorem witness_HostRunInv : HostRunInv oneSleep where
  hostOnly := by decide
  idle := rfl
  linesFollowTrace := by intro l; cases l <;> rfl
  clkNotHigh := by decide
  dcNotHigh := by decide
  status := rfl
  endedByErr := rfl
  position := rfl
  frameAfterErr := by decide
  atRest := fun _ => .inl rfl

theorem witness_StepKeepsRunInvariant : HostRunInv oneSleep ∧ step oneSleep = .next (landed (step oneSleep)) :=
  ⟨witness_HostRunInv, next_of_completes (by decide +kernel)⟩

/-- A state whose first access never returns. -/
def silent : State := bench benchCfg [.neverReturns] [] .low

theorem witness_ConfigurationNeverChanges :
    exec .configure calm = .next (landed (exec .configure calm)) ∧
    exec .configure silent = .fault (.gpioNeverReturns (stuckAt (exec .configure silent))) ∧
    step oneSleep = .next (landed (step oneSleep)) ∧
    step (running silent [⟨.host, [0x04]⟩])
      = .fault (.gpioNeverReturns (stuckAt (step (running silent [⟨.host, [0x04]⟩])))) :=
  ⟨next_of_completes (by decide +kernel), fault_of_isStuck (by decide +kernel), next_of_completes (by decide +kernel),
    fault_of_isStuck (by decide +kernel)⟩

theorem witness_IllFormedConfigurationIsRefused : (bench { benchCfg with width := 0 } [] [] .low).cfg.wf = false := by
  decide

theorem witness_DecodeOfEncodeIsIdentity : (Instr.display [1, 2]).wellFormed benchCfg = true ∧
    (Instr.writeRam [7]).wellFormed benchCfg = true := by decide
theorem witness_DecodedWordsAreEncodings : decode .host [0x06, 0xFF, 0xFF, 0, 0] = .ok (.setCursor 65535 0) ∧
    decode .wire [0x32, 2] = .ok (.writeLut .unrecognised) := by decide

theorem witness_AssembledProgramsAreHostPrograms :
    (∀ b ∈ [({ name := ['b'], bytes := [0xAA] } : NamedBuffer)], fitsLength32 b.bytes = true) ∧
    assemble benchCfg [{ name := ['b'], bytes := [0xAA] }] "display b".toList
      = some [⟨.host, [0x03, 1, 0, 0, 0, 0xAA]⟩] ∧
    (operationLines "display b\n ; nothing\nset_cursor 0x0A, 65535".toList).length = 2 := by decide +kernel
/-- The second premise, with a comment, a hexadecimal number and the largest coordinate. -/
theorem witness_AssembledProgramsAreHostPrograms_lines :
    ∀ line ∈ operationLines "set_cursor 0x0A, 65535 ; row\n\nreinit FULL".toList, ∃ i, LineNames benchCfg [] line i := by
  have h : operationLines "set_cursor 0x0A, 65535 ; row\n\nreinit FULL".toList
      = ["set_cursor 0x0A, 65535 ; row".toList, "reinit FULL".toList] := by decide +kernel
  rw [h]
  intro line hl
  rcases List.mem_cons.mp hl with rfl | hl
  · exact ⟨_, .setCursor "0x0A".toList "65535".toList 10 65535 (by decide +kernel)
      ((readNumber_iff _ _).mp (by decide +kernel)) ((readNumber_iff _ _).mp (by decide +kernel))⟩
  · obtain rfl := List.mem_singleton.mp hl
    exact ⟨_, .reinit "FULL".toList 0 (by decide +kernel) (.inl (by decide))⟩

/-- The codes just outside 0x01..0x07. -/
theorem witness_ForeignHostCodesAreRefused :
    (running calm [⟨.host, [0x00]⟩]).host.runEnded = false ∧
    nextIssue (running calm [⟨.host, [0x00]⟩]).host = some { space := .host, word := [0x00] } ∧ (0x00 : Byte).toNat < 0x01 ∧
    nextIssue (running calm [⟨.host, [0x08]⟩]).host = some { space := .host, word := [0x08] } ∧
    0x07 < (0x08 : Byte).toNat := by decide

/-- One operand byte too few and one too many, for a fixed length, for DISPLAY's length field and for its buffer. -/
theorem witness_WrongLengthHostWordsAreRefused :
    (running calm [⟨.host, [0x05, 1, 2, 3, 4, 5, 6, 7]⟩]).host.runEnded = false ∧
    nextIssue (running calm [⟨.host, [0x05, 1, 2, 3, 4, 5, 6, 7]⟩]).host
      = some { space := .host, word := 0x05 :: [1, 2, 3, 4, 5, 6, 7] } ∧
    hostOperandBytes (0x05 : Byte).toNat = some 8 ∧ [1, 2, 3, 4, 5, 6, 7].length < 8 ∧
    nextIssue (running calm [⟨.host, [0x02, 0]⟩]).host = some { space := .host, word := 0x02 :: [0] } ∧
    hostOperandBytes (0x02 : Byte).toNat = some 0 ∧ 0 < [0].length ∧
    nextIssue (running calm [⟨.host, [0x03, 0, 0, 0]⟩]).host = some { space := .host, word := 0x03 :: [0, 0, 0] } ∧
    [0, 0, 0].length < 4 ∧
    nextIssue (running calm [⟨.host, [0x03, 1, 0, 0, 0]⟩]).host
      = some { space := .host, word := 0x03 :: 1 :: 0 :: 0 :: 0 :: [] } ∧ ([] : List Byte).length < le32 1 0 0 0 ∧
    nextIssue (running calm [⟨.host, [0x03, 0, 0, 0, 0, 9]⟩]).host
      = some { space := .host, word := 0x03 :: 0 :: 0 :: 0 :: 0 :: [9] } ∧ le32 0 0 0 0 < [9].length := by decide

theorem witness_StepRunsDecodedInstruction : oneSleep.host.runEnded = false ∧
    oneSleep.host.program[oneSleep.host.index]? = some { space := .host, word := [0x04] } ∧
    decode .host [0x04] = .ok .sleep ∧ Instr.sleep.wellFormed oneSleep.cfg = true := by decide

theorem witness_EndedRunsTakeNoStep :
    ({ calm with host := { calm.host with runEnded := true } } : State).host.runEnded = true ∧
    calm.host.runEnded = false ∧ calm.host.program.length ≤ calm.host.index := by decide

/-- An operation that returns Ok, and one that returns Err. -/
def oneSleepFails : State := running (bench benchCfg [.fails] [] .low) [⟨.host, [0x04]⟩]

theorem witness_ResultsMoveTheHostPosition :
    nextIssue oneSleep.host = some { space := .host, word := [0x04] } ∧
    step oneSleep = .next (landed (step oneSleep)) ∧ lastRaise (landed (step oneSleep)) = none ∧
    nextIssue oneSleepFails.host = some { space := .host, word := [0x04] } ∧
    step oneSleepFails = .next (landed (step oneSleepFails)) ∧
    lastRaise (landed (step oneSleepFails)) = some (.ioWrite .dc .low) :=
  ⟨by decide, next_of_completes (by decide +kernel), by decide +kernel, by decide,
    next_of_completes (by decide +kernel), by decide +kernel⟩

/-- TransportCompletes, WriteByteWaveform, FramedBytesComplete, FramedBytePositions, FramedByteContract and all the
completions of frames and micro-operations: any number of answers is a success, and CLK is not High. -/
theorem witness_completions : calm.cfg.wf = true ∧ calm.lines.clk ≠ .high ∧ calm.lines.cs ≠ .low ∧
    (∀ n, answersOk n calm.env.gpio = true) ∧ calmRef.cfg.wf = true ∧ (∀ n, answersOk n calmRef.env.gpio = true) :=
  ⟨by decide, by decide, by decide, calm_answers, by decide, calm_answers⟩

theorem witness_LutFrameCompletes : calm.cfg.invalidModeSendsLutCmd = true ∧
    (bench { benchCfg with invalidModeSendsLutCmd := false } [] [] .low).cfg.wf = true ∧
    (bench { benchCfg with invalidModeSendsLutCmd := false } [] [] .low).cfg.invalidModeSendsLutCmd = false := by decide

/-- The three cases of LUT_LOAD: modes 0, 1 and 2. -/
theorem witness_LutLoadCompletes : (0 : Byte) = calm.cfg.modeFull ∧
    ((1 : Byte) ≠ calm.cfg.modeFull ∧ (1 : Byte) = calm.cfg.modePartial) ∧
    ((2 : Byte) ≠ calm.cfg.modeFull ∧ (2 : Byte) ≠ calm.cfg.modePartial) := by decide

theorem witness_DcLowAtEveryClock :
    exec (.sendCmd 1) calm = .next (landed (exec (.sendCmd 1) calm)) ∧
    exec (.sendCmd 1) silent = .fault (.gpioNeverReturns (stuckAt (exec (.sendCmd 1) silent))) ∧
    (∀ v, Instr.sendCmd 1 ≠ .writeByte v) ∧ (∀ bytes, Instr.sendCmd 1 ≠ .writeBytes bytes) :=
  ⟨next_of_completes (by decide +kernel), fault_of_isStuck (by decide +kernel), fun _ h => (by cases h),
    fun _ h => (by cases h)⟩

theorem witness_LineOrderIsKept : hostOpOf .sleep = some .sleep ∧ calm.lines.clk ≠ .high ∧ calm.lines.cs ≠ .low ∧
    exec .sleep calm = .next (landed (exec .sleep calm)) ∧
    exec .sleep silent = .fault (.gpioNeverReturns (stuckAt (exec .sleep silent))) :=
  ⟨by decide, by decide, by decide, next_of_completes (by decide +kernel), fault_of_isStuck (by decide +kernel)⟩

/-- No busy read and the most busy reads that still end well: ceil(10 / 3) = 4. -/
theorem witness_BusyWaitCompletes : calmRef.cfg.wf = true ∧ calmRef.cfg.busyPolicy = .fixedDelay ∧
    calm.cfg.wf = true ∧ calm.cfg.busyPolicy = .poll ∧ 0 ≤ pollBound calm.cfg ∧
    busyFor calm.cfg.busyActiveLevel 0 calm.env.busy = true ∧
    nextDraw (drawsAfter 0 calm.env.busy) ≠ calm.cfg.busyActiveLevel ∧ answersOk 1 calm.env.gpio = true ∧
    pollBound calm.cfg = 4 ∧ busyFor .high 4 (⟨[.high, .high, .high, .high], .low⟩ : Draws Level) = true ∧
    nextDraw (drawsAfter 4 (⟨[.high, .high, .high, .high], .low⟩ : Draws Level)) ≠ .high ∧ answersOk 5 calm.env.gpio = true := by
  decide

/-- TurnonDisplayCompletes, StreamFrameCompletes, DisplayAndClearComplete: a wait that ends, under both policies. -/
theorem witness_waits : waitItems calm.cfg calm.env.busy = some (pollWaitItems calm.cfg 0 .low) ∧
    waitItems calmRef.cfg calmRef.env.busy = some (fixedWaitItems calmRef.cfg) := by decide

/-- The first write of SLEEP, and the fourth of INIT (T21). -/
theorem witness_FailedWriteAborts : hostOpOf .sleep = some .sleep ∧
    eventsOf (hostItems calm.cfg .sleep) = [] ++ .w .dc .low :: (eventsOf (hostItems calm.cfg .sleep)).tail ∧
    nextDraw (drawsAfter (accesses []) (bench benchCfg [.fails] [] .low).env.gpio) = .fails ∧
    hostOpOf (.init 0) = some .init ∧
    eventsOf (hostItems calm.cfg (.init 0)) = [.w .cs .high, .w .clk .low, .w .rst .high, .dly 200]
      ++ .w .rst .low :: (eventsOf (hostItems calm.cfg (.init 0))).drop 5 ∧
    answersOk (accesses [.w .cs .high, .w .clk .low, .w .rst .high, .dly 200])
      (bench benchCfg (failsAt 4 .fails) [] .low).env.gpio = true ∧
    nextDraw (drawsAfter (accesses [.w .cs .high, .w .clk .low, .w .rst .high, .dly 200])
      (bench benchCfg (failsAt 4 .fails) [] .low).env.gpio) = .fails := by decide +kernel

/-- TURNON_DISPLAY: the first read of BUSY fails, the last one does, and the wait times out. -/
theorem witness_BusyWaitAborts : hostOpOf .turnonDisplay = some .turnonDisplay ∧ waitsAtEnd .turnonDisplay = true ∧
    calm.cfg.wf = true ∧ calm.cfg.busyPolicy = .poll ∧
    accesses (eventsOf (hostItems calm.cfg .turnonDisplay)) = 120 ∧
    busyFor calm.cfg.busyActiveLevel 0 calm.env.busy = true ∧
    answersOk (120 + 0) (bench benchCfg (failsAt 121 .fails) [] .low).env.gpio = true ∧
    nextDraw (drawsAfter (120 + 0) (bench benchCfg (failsAt 121 .fails) [] .low).env.gpio) = .fails ∧
    4 ≤ pollBound calm.cfg ∧ busyFor calm.cfg.busyActiveLevel 4 (bench benchCfg [] [] .high).env.busy = true ∧
    answersOk (120 + 4) (bench benchCfg (failsAt 125 .fails) [] .high).env.gpio = true ∧
    nextDraw (drawsAfter (120 + 4) (bench benchCfg (failsAt 125 .fails) [] .high).env.gpio) = .fails ∧
    busyFor calm.cfg.busyActiveLevel (pollBound calm.cfg + 1) (bench benchCfg [] [] .high).env.busy = true ∧
    answersOk (120 + (pollBound calm.cfg + 1)) (bench benchCfg [] [] .high).env.gpio = true := by decide +kernel

/-- The first write of SLEEP never returns; the first read of BUSY of TURNON_DISPLAY never returns. -/
theorem witness_NeverReturningAccessIsStuck :
    eventsOf (hostItems silent.cfg .sleep) = [] ++ .w .dc .low :: (eventsOf (hostItems silent.cfg .sleep)).tail ∧
    answersOk (accesses []) silent.env.gpio = true ∧
    nextDraw (drawsAfter (accesses []) silent.env.gpio) = .neverReturns ∧
    busyFor calm.cfg.busyActiveLevel 0 calm.env.busy = true ∧ calm.cfg.busyPolicy = .poll ∧
    answersOk (accesses (eventsOf (hostItems calm.cfg .turnonDisplay)) + 0)
      (bench benchCfg (failsAt 121 .neverReturns) [] .low).env.gpio = true ∧
    nextDraw (drawsAfter (accesses (eventsOf (hostItems calm.cfg .turnonDisplay)) + 0)
      (bench benchCfg (failsAt 121 .neverReturns) [] .low).env.gpio) = .neverReturns := by decide +kernel

theorem witness_HostOperationOutcomes : hostOpOf .clear = some .clear ∧ calm.cfg.wf = true := by decide

/-- SEND_DATA whose write 29 fails (T5). -/
theorem witness_InnerFailureAborts : hostOpOf (.sendData 0xFF) = none ∧
    innerEvents calm.cfg (.sendData 0xFF) = (framedByte .data 0xFF).take 28 ++ .w .cs .high :: [.w .cs .high] ∧
    answersOk (accesses ((framedByte .data 0xFF).take 28)) (bench benchCfg (failsAt 29 .fails) [] .low).env.gpio = true ∧
    nextDraw (drawsAfter (accesses ((framedByte .data 0xFF).take 28))
      (bench benchCfg (failsAt 29 .fails) [] .low).env.gpio) = .fails ∧
    answersOk (accesses ((framedByte .data 0xFF).take 28))
      (bench benchCfg (failsAt 29 .neverReturns) [] .low).env.gpio = true ∧
    nextDraw (drawsAfter (accesses ((framedByte .data 0xFF).take 28))
      (bench benchCfg (failsAt 29 .neverReturns) [] .low).env.gpio) = .neverReturns := by decide
/-- BUSY_WAIT alone: its first read of BUSY fails or never returns, its last one does, and the wait times out. -/
theorem witness_InnerFailureAborts_reads : hostOpOf .busyWait = none ∧ innerWaits .busyWait = true ∧
    innerWaits (.streamFrame .const) = true ∧ innerEvents calm.cfg .busyWait = [] ∧ calm.cfg.busyPolicy = .poll ∧
    busyFor calm.cfg.busyActiveLevel 0 calm.env.busy = true ∧
    nextDraw (drawsAfter 0 (bench benchCfg [.fails] [] .low).env.gpio) = .fails ∧
    nextDraw (drawsAfter 0 silent.env.gpio) = .neverReturns ∧
    4 ≤ pollBound calm.cfg ∧ busyFor calm.cfg.busyActiveLevel 4 (bench benchCfg [] [] .high).env.busy = true ∧
    answersOk 4 (bench benchCfg (failsAt 5 .fails) [] .high).env.gpio = true ∧
    nextDraw (drawsAfter 4 (bench benchCfg (failsAt 5 .fails) [] .high).env.gpio) = .fails ∧
    busyFor calm.cfg.busyActiveLevel (pollBound calm.cfg + 1) (bench benchCfg [] [] .high).env.busy = true ∧
    answersOk (0 + (pollBound calm.cfg + 1)) (bench benchCfg [] [] .high).env.gpio = true := by decide +kernel

/-- One state for each way a host operation can end with a result: Ok, a failed write, a failed read of BUSY, a busy
timeout. They meet the hypotheses of ResultEncoding, ErrorFieldsNameTheFailure, LutOkRecordsTheUpload,
FrameUndefinedFollowsTheFrames, ViolationsAreRecordedNotRefused, ProtocolStateTable, PollReadsAreBounded. -/
def endings : List State :=
  [calm, bench benchCfg (failsAt 31 .fails) [] .low, bench benchCfg (failsAt 121 .fails) [] .low,
   bench benchCfg [] [] .high]

theorem witness_results : hostOpOf .turnonDisplay = some .turnonDisplay ∧
    (∀ s ∈ endings, exec .turnonDisplay s = .next (landed (exec .turnonDisplay s))) ∧
    endings.map (fun s => lastRaise (landed (exec .turnonDisplay s)))
      = [none, some (.ioWrite .dc .high), some .ioReadBusy, some (.busyTimeout 12)] :=
  ⟨by decide, fun s hs => next_of_completes (List.all_eq_true.mp
    (show endings.all (fun s => completes (exec .turnonDisplay s)) = true by decide +kernel) s hs), by decide +kernel⟩

/-- The clauses about INIT: a recognised mode, an unrecognised one, a failure, an access that never returns. -/
theorem witness_inits : hostOpOf (.init 2) = some .init ∧
    exec (.init 0) silent = .fault (.gpioNeverReturns (stuckAt (exec (.init 0) silent))) ∧
    exec (.init 0) calm = .next (landed (exec (.init 0) calm)) ∧
    exec (.init 2) calm = .next (landed (exec (.init 2) calm)) ∧
    exec (.init 2) (bench benchCfg (failsAt 4 .fails) [] .low)
      = .next (landed (exec (.init 2) (bench benchCfg (failsAt 4 .fails) [] .low))) ∧
    (2 : Byte) ≠ calm.cfg.modeFull ∧ (2 : Byte) ≠ calm.cfg.modePartial ∧
    lastRaise (landed (exec (.init 2) calm)) = none :=
  ⟨by decide, fault_of_isStuck (by decide +kernel), next_of_completes (by decide +kernel),
    next_of_completes (by decide +kernel), next_of_completes (by decide +kernel), by decide, by decide,
    by decide +kernel⟩

/-- The stuck clauses of ViolationsAreRecordedNotRefused (outside Ready and in it), ClearEqualsDisplayOnes and
FramesConformToTheTable: an access that never returns inside a frame of CLEAR and of the DISPLAY that equals it. -/
theorem witness_stuck : byteWidth silent.cfg * silent.cfg.height = 1 ∧ hostOpOf .clear = some .clear ∧
    exec .clear silent = .fault (.gpioNeverReturns (stuckAt (exec .clear silent))) ∧
    (stuckAt (exec .clear silent)).ghost.protocolViolation = true ∧
    exec .clear (ready silent) = .fault (.gpioNeverReturns (stuckAt (exec .clear (ready silent)))) ∧
    (stuckAt (exec .clear (ready silent))).ghost.protocolViolation = false ∧
    exec (.display [0xFF]) silent = .fault (.gpioNeverReturns (stuckAt (exec (.display [0xFF]) silent))) ∧
    exec .configure silent = .fault (.gpioNeverReturns (stuckAt (exec .configure silent))) :=
  ⟨by decide, by decide, fault_of_isStuck (by decide +kernel), by decide +kernel, fault_of_isStuck (by decide +kernel),
    by decide +kernel, fault_of_isStuck (by decide +kernel), fault_of_isStuck (by decide +kernel)⟩
/-- 30_encoding.md R120: SLEEP cut in its second framed byte, by a failure and by an access that never returns, and in its
first one: the frames that are read have the command byte. -/
theorem witness_FramesConformToTheTable :
    splitFrames (decodeTrace (events .sleep (bench benchCfg (failsAt 31 .fails) [] .low))) = [⟨0x10, []⟩] ∧
    splitFrames (decodeTrace (stuckAt (exec .sleep (bench benchCfg (failsAt 31 .neverReturns) [] .low))).trace)
      = [⟨0x10, []⟩] ∧
    splitFrames (decodeTrace (events .sleep (bench benchCfg (failsAt 30 .fails) [] .low))) = [] ∧
    frameConforms benchCfg ⟨0x10, []⟩ = false := by decide +kernel

/-- The clauses about SLEEP and CLEAR in Ready and outside it, and about a micro-operation. -/
theorem witness_flags : hostOpOf .sleep = some .sleep ∧ hostOpOf .clear = some .clear ∧ hostOpOf .configure = none ∧
    (ready calm).ghost.pstate = .ready ∧ calm.ghost.pstate ≠ .ready ∧
    exec .sleep (ready calm) = .next (landed (exec .sleep (ready calm))) ∧
    exec .clear (ready calm) = .next (landed (exec .clear (ready calm))) ∧
    exec .clear calm = .next (landed (exec .clear calm)) ∧
    exec .configure calm = .next (landed (exec .configure calm)) ∧
    lastRaise (landed (exec .clear (ready calm))) = none :=
  ⟨by decide, by decide, by decide, by decide, by decide, next_of_completes (by decide +kernel),
    next_of_completes (by decide +kernel), next_of_completes (by decide +kernel), next_of_completes (by decide +kernel),
    by decide +kernel⟩

theorem witness_EventsIgnoreTheHistory : hostOpOf .sleep = some .sleep ∧ calm.cfg = (ready calm).cfg ∧
    calm.env = (ready calm).env ∧ calm ≠ ready calm ∧ exec .sleep calm = .next (landed (exec .sleep calm)) ∧
    silent.cfg = (ready silent).cfg ∧ silent.env = (ready silent).env ∧
    exec .sleep silent = .fault (.gpioNeverReturns (stuckAt (exec .sleep silent))) :=
  ⟨by decide, rfl, rfl, by decide, next_of_completes (by decide +kernel), rfl, rfl, fault_of_isStuck (by decide +kernel)⟩

theorem witness_ResetLineIsResetsAlone : Instr.sleep ≠ .reset ∧ (∀ mode, Instr.sleep ≠ .init mode) ∧
    exec .sleep calm = .next (landed (exec .sleep calm)) ∧ calm.cfg.wf = true ∧ answersOk 3 calm.env.gpio = true ∧
    exec (.init 0) calm = .next (landed (exec (.init 0) calm)) ∧
    lastRaise (landed (exec (.init 0) calm)) = none :=
  ⟨by decide, fun _ h => (by cases h), next_of_completes (by decide +kernel), by decide, by decide,
    next_of_completes (by decide +kernel), by decide +kernel⟩

theorem witness_TraceGrowsAndLinesFollow : exec .reset calm = .next (landed (exec .reset calm)) ∧
    exec .reset silent = .fault (.gpioNeverReturns (stuckAt (exec .reset silent))) :=
  ⟨next_of_completes (by decide +kernel), fault_of_isStuck (by decide +kernel)⟩

/-- OperationsBlockTheCaller, TraceDecodesToItems, FramesConformToTheTable, ClearEqualsDisplayOnes: every host operation
returns Ok on the bench and at the reference geometry, which is under FixedDelay. -/
theorem witness_returns {i : Instr} {op : HostOp} (hi : hostOpOf i = some op) :
    (∃ t r, exec i calm = .next t ∧ t.host.revResults = r :: calm.host.revResults ∧ r.raised = none) ∧
    (∃ t r, exec i calmRef = .next t ∧ t.host.revResults = r :: calmRef.host.revResults ∧ r.raised = none) ∧
    calm.cfg.busyPolicy = .poll ∧ calmRef.cfg.busyPolicy = .fixedDelay ∧ calm.cfg.opsDistinct = true :=
  ⟨calm_returns hi (by decide) rfl (by decide), calm_returns hi (by decide) rfl (by decide), by decide, by decide,
    by decide⟩

/-- FrameByteCounts and DisplayRowsFollowTheBuffer at the reference geometry, with the reference buffer of 2204 bytes. -/
theorem witness_FrameByteCounts : calmRef.cfg.width = 212 ∧ calmRef.cfg.height = 104 ∧
    (List.replicate 2204 (0x55 : Byte)).length = 2204 ∧
    (∃ t r, exec .clear calmRef = .next t ∧ t.host.revResults = r :: calmRef.host.revResults ∧ r.raised = none) ∧
    (∃ t r, exec (.display (List.replicate 2204 0x55)) calmRef = .next t ∧
      t.host.revResults = r :: calmRef.host.revResults ∧ r.raised = none) :=
  ⟨by decide, by decide, List.length_replicate, calm_returns (op := .clear) rfl (by decide) rfl (by decide),
    calm_returns (op := .display) rfl (by decide) rfl (by decide)⟩

/-- P2: two frames of equal length and other bytes. -/
theorem witness_DisplaysDifferOnlyInDin : [(0x00 : Byte)].length = [(0xFF : Byte)].length ∧
    waitItems calm.cfg calm.env.busy = waitItems (ready calm).cfg (ready calm).env.busy ∧
    (∃ t r, exec (.display [0x00]) calm = .next t ∧ t.host.revResults = r :: calm.host.revResults ∧ r.raised = none) ∧
    (∃ t r, exec (.display [0xFF]) (ready calm) = .next t ∧
      t.host.revResults = r :: (ready calm).host.revResults ∧ r.raised = none) :=
  ⟨rfl, rfl, calm_returns (op := .display) rfl (by decide) rfl (by decide),
    calm_returns (op := .display) rfl (by decide) rfl (by decide)⟩

end Sys2Proof.Tests
end

section
/-! PROOFS. The scope of the model (00_scope.md). -/

namespace Sys2Proof.Machine

/-- Settles O5: every instruction runs inside `runHostOp` or `runInner`, and both refuse before their body is entered
(00_scope.md R12, log entry 5); `exec_illFormed` makes that split over the instructions. -/
theorem illFormedConfigurationIsRefused : Obligations.IllFormedConfigurationIsRefused := by
  intro i s hw
  exact exec_illFormed i hw

end Sys2Proof.Machine
end

section
/-! PROOFS. What the state holds (10_state.md): lemmas on a host operation that answers, by field of the state it leaves, and
on which events write RST or warn. -/

namespace Sys2Proof.Machine

/-! ### The mode of INIT -/

theorem decodeMode_eq_unrecognised_iff (c : Cfg) (mode : Byte) :
    decodeMode c mode = .unrecognised ↔ mode ≠ c.modeFull ∧ mode ≠ c.modePartial := by
  unfold decodeMode
  by_cases hf : mode = c.modeFull
  · simp [hf]
  · rw [if_neg hf]
    by_cases hp : mode = c.modePartial <;> simp [hf, hp]

theorem decodeMode_ne_unrecognised_iff (c : Cfg) (mode : Byte) :
    decodeMode c mode ≠ .unrecognised ↔ mode = c.modeFull ∨ mode = c.modePartial := by
  rw [ne_eq, decodeMode_eq_unrecognised_iff, not_and_or, not_not, not_not]

theorem initMode_eq_some {i : Instr} {mode : Byte} (h : initMode i = some mode) : i = .init mode := by
  cases i <;> cases h
  rfl

theorem initMode_eq_none {i : Instr} (h : ∀ mode, i ≠ .init mode) : initMode i = none := by
  cases hm : initMode i with
  | none => rfl
  | some mode => exact absurd (initMode_eq_some hm) (h mode)

/-- Only INIT has a mode. -/
theorem initMode_of_hostOp {i : Instr} {op : HostOp} (hi : hostOpOf i = some op) (hop : op ≠ .init) :
    initMode i = none :=
  initMode_eq_none fun mode hm => hop (by subst hm; cases hi; rfl)

theorem warnsInvalidMode_init (c : Cfg) (mode : Byte) :
    warnsInvalidMode c (.init mode) = decide (decodeMode c mode = .unrecognised) := rfl

theorem warnsInvalidMode_iff (c : Cfg) (i : Instr) :
    warnsInvalidMode c i = true ↔ ∃ mode, i = .init mode ∧ mode ≠ c.modeFull ∧ mode ≠ c.modePartial := by
  constructor
  · intro h
    cases hm : initMode i with
    | none => simp [warnsInvalidMode, hm] at h
    | some mode =>
      obtain rfl := initMode_eq_some hm
      exact ⟨mode, rfl, (decodeMode_eq_unrecognised_iff c mode).mp (of_decide_eq_true h)⟩
  · rintro ⟨mode, rfl, hmode⟩
    exact decide_eq_true ((decodeMode_eq_unrecognised_iff c mode).mpr hmode)

/-- A host word decodes to a host operation (30_encoding.md R104, R121). -/
theorem hostOpOf_of_decode_host {word : List Byte} {i : Instr} (h : decode .host word = .ok i) :
    ∃ op, hostOpOf i = some op := by
  have decodesTo0 : ∀ {j : Instr} {ops}, decode0 j ops = .ok i → (∃ op, hostOpOf j = some op) →
      ∃ op, hostOpOf i = some op := fun h0 hj => (Laws.decode0_ok h0).1 ▸ hj
  cases word with
  | nil => cases h
  | cons code ops =>
    change decodeHost code ops = .ok i at h
    unfold decodeHost at h
    split at h
    · obtain ⟨_, -, hb⟩ := Laws.decode8_ok h
      cases hb
      exact ⟨_, rfl⟩
    · exact decodesTo0 h ⟨_, rfl⟩
    · obtain ⟨_, -, rfl⟩ := Laws.decodeBytes_ok h
      exact ⟨_, rfl⟩
    · exact decodesTo0 h ⟨_, rfl⟩
    · obtain ⟨_, _, _, _, -, rfl⟩ := Laws.decode16x4_ok h
      exact ⟨_, rfl⟩
    · obtain ⟨_, _, -, rfl⟩ := Laws.decode16x2_ok h
      exact ⟨_, rfl⟩
    · exact decodesTo0 h ⟨_, rfl⟩
    · cases h

/-! ### Checks of single events, along the events of an operation -/

/-- A check that every framed byte passes is passed by framed items. -/
theorem all_events_framed {p : Event → Bool} (hp : ∀ r v, (framedByte r v).all p = true) {items : List WireItem}
    (h : items.all isFramed = true) : (eventsOf items).all p = true := by
  induction items with
  | nil => rfl
  | cons item items ih =>
    rw [List.all_cons, Bool.and_eq_true] at h
    rw [eventsOf_cons, List.all_append, ih h.2, Bool.and_true]
    cases item with
    | framed r v => exact hp r v
    | single e => cases h.1

/-- A check that looks at a failed write as at a successful one, and that wait events pass, is passed by the performed
events when the planned ones pass it. -/
theorem Performed.all_events {p : Event → Bool} {planned es : List Event} (hperf : Performed planned es)
    (hfail : ∀ l v, p (.f l v) = p (.w l v)) (hwait : ∀ e, isWaitEvent e = true → p e = true)
    (h : planned.all p = true) : es.all p = true := by
  cases hperf with
  | all wait hw =>
    rw [List.all_append, h, Bool.true_and, List.all_eq_true]
    exact fun e he => hwait e (List.all_eq_true.mp hw e he)
  | failed pre l v post he =>
    rw [he, List.all_append, List.all_cons, Bool.and_eq_true, Bool.and_eq_true] at h
    obtain ⟨hpre, hlast, -⟩ := h
    simp only [List.all_append, hpre, List.all_cons, hfail, hlast, List.all_nil, Bool.and_self]
  | stuck pre l v post he =>
    rw [he, List.all_append, Bool.and_eq_true] at h
    exact h.1

/-! ### The warning -/

/-- Whether an event is a warning. -/
def isWarn : Event → Bool
  | .warn _ => true
  | .w .. | .f .. | .dly _ | .rd _ => false

theorem warn_not_mem_of_all {es : List Event} (h : es.all (fun e => !isWarn e) = true) (n : Nat) : Event.warn n ∉ es :=
  fun hm => by have := List.all_eq_true.mp h _ hm; cases this

theorem warn_not_mem_wait {es : List Event} (h : es.all isWaitEvent = true) (n : Nat) : Event.warn n ∉ es :=
  fun hm => by have := List.all_eq_true.mp h _ hm; cases this

theorem warn_not_mem_framed {items : List WireItem} (h : items.all isFramed = true) (n : Nat) :
    Event.warn n ∉ eventsOf items :=
  warn_not_mem_of_all (all_events_framed (fun _ _ => rfl) h) n

/-- A host operation warns at the end of its planned events, and only in an INIT with an unrecognised mode
(43_sequencer.md R226). -/
theorem hostEvents_warn_last (c : Cfg) (i : Instr) : ∃ sent : List Event, (∀ n, Event.warn n ∉ sent) ∧
    eventsOf (hostItems c i) = sent ++ if warnsInvalidMode c i then [.warn 1] else [] := by
  cases hm : initMode i with
  | none =>
    have hw : warnsInvalidMode c i = false := by simp [warnsInvalidMode, hm]
    exact ⟨_, warn_not_mem_framed (hostItems_framed c i hm), by simp [hw]⟩
  | some mode =>
    obtain rfl := initMode_eq_some hm
    have hpre : ∀ n, Event.warn n ∉ eventsOf (configureItems ++ resetItems c) :=
      warn_not_mem_of_all rfl
    have hsent : ∀ m n, Event.warn n ∉
        eventsOf ((configureItems ++ resetItems c) ++ (registerLoadItems c ++ writeLutItems c m)) := by
      intro m n
      have hlut : (registerLoadItems c ++ writeLutItems c m).all isFramed = true := by
        rw [List.all_append, registerLoadItems_framed, writeLutItems_framed]; rfl
      rw [eventsOf_append, List.mem_append, not_or]
      exact ⟨hpre n, warn_not_mem_framed hlut n⟩
    rw [hostItems_init, warnsInvalidMode_init, initItems, lutLoadItems]
    refine ⟨_, hsent (decodeMode c mode), ?_⟩
    cases decodeMode c mode <;> simp [itemEvents]

theorem warn_mem_hostEvents_iff (c : Cfg) (i : Instr) :
    Event.warn 1 ∈ eventsOf (hostItems c i) ↔ warnsInvalidMode c i = true := by
  obtain ⟨sent, hsent, he⟩ := hostEvents_warn_last c i
  rw [he, List.mem_append]
  cases warnsInvalidMode c i <;> simp [hsent 1]

/-- The warning comes after every GPIO write. -/
theorem warn_not_mem_before_write {c : Cfg} {i : Instr} {pre post : List Event} {l : OutLine} {v : Level}
    (he : eventsOf (hostItems c i) = pre ++ .w l v :: post) (n : Nat) : Event.warn n ∉ pre := by
  obtain ⟨sent, hsent, hs⟩ := hostEvents_warn_last c i
  rw [he] at hs
  intro hm
  rcases List.append_eq_append_iff.mp hs with ⟨m, h1, h2⟩ | ⟨m, h1, h2⟩
  · exact hsent n (h1 ▸ List.mem_append_left m hm)
  · cases hw : warnsInvalidMode c i <;> rw [hw] at h2
    · simp at h2
    · cases m with
      | nil => simp at h2
      | cons e m => simp at h2

/-! ### The reset line -/

theorem framedItems_leave_rst {items : List WireItem} (h : items.all isFramed = true) :
    (eventsOf items).all (fun e => !writesRst e) = true :=
  all_events_framed (fun _ _ => rfl) h

theorem lutLoadItems_leave_rst (c : Cfg) (mode : Byte) :
    (eventsOf (lutLoadItems c mode)).all (fun e => !writesRst e) = true := by
  unfold lutLoadItems
  cases decodeMode c mode with
  | full => exact framedItems_leave_rst (writeLutItems_framed c _)
  | partialRefresh => exact framedItems_leave_rst (writeLutItems_framed c _)
  | unrecognised =>
    rw [eventsOf_append, List.all_append, framedItems_leave_rst (writeLutItems_framed c _)]
    rfl

/-- Only the Reset sequence, which RESET and INIT run, plans a write of RST (10_state.md R35). -/
theorem plannedEvents_leave_rst (c : Cfg) {i : Instr} (hr : i ≠ .reset) (hm : ∀ mode, i ≠ .init mode) :
    (plannedEvents c i).all (fun e => !writesRst e) = true := by
  cases hi : hostOpOf i with
  | some op =>
    rw [plannedEvents_host c hi]
    exact framedItems_leave_rst (hostItems_framed c i (initMode_eq_none hm))
  | none =>
    rw [plannedEvents_inner c hi]
    cases i with
    | reset => exact absurd rfl hr
    | writeBytes bytes =>
      show (bytes.flatMap transportByte).all _ = true
      rw [List.all_flatMap, List.all_eq_true]
      exact fun _ _ => rfl
    | lutLoad mode => exact lutLoadItems_leave_rst c mode
    | streamFrame src => exact framedItems_leave_rst (frameItems_framed c src)
    | writeLut m => exact framedItems_leave_rst (writeLutItems_framed c m)
    | writeRam bytes => exact framedItems_leave_rst (cmdItems_framed _ _)
    | init _ | clear | display _ | sleep | setWindow _ _ _ _ | setCursor _ _ | turnonDisplay => cases hi
    | registerLoad => exact framedItems_leave_rst (registerLoadItems_framed c)
    | writeByte _ | sendDataInternal _ _ | sendCmd _ | sendData _ | configure | busyWait | driverOutputControl
    | boosterSoftStart | writeVcom | dummyLinePeriod | gateTime | borderWaveform | dataEntryMode | ramXWindow _ _
    | ramYWindow _ _ | ramXCounter _ | ramYCounter _ | displayUpdateCtrl2 | masterActivation | terminateFrameRw
    | deepSleep => rfl

/-- The events an instruction performs leave RST alone when its planned ones do. -/
theorem Performed.leave_rst {planned es : List Event} (hperf : Performed planned es)
    (h : planned.all (fun e => !writesRst e) = true) : es.all (fun e => !writesRst e) = true :=
  hperf.all_events (fun l _ => by cases l <;> rfl) (fun | .rd _, _ => rfl | .dly _, _ => rfl) h

/-! ### The bus at rest -/

/-- Framed bytes leave a bus that is at rest at rest (41_framer.md R166). -/
theorem BusAtRest.framed {ls : Lines} (h : BusAtRest ls) {items : List WireItem} (hf : items.all isFramed = true) :
    BusAtRest (linesAfter ls (eventsOf items)) := by
  by_cases hne : items = []
  · subst hne; exact h
  · obtain ⟨b, hb⟩ := linesAfter_framedItems items hf hne ls
    rw [hb]
    exact ⟨rfl, rfl, rfl, h.rst⟩

theorem BusAtRest.lutLoad {ls : Lines} (h : BusAtRest ls) (c : Cfg) (mode : Byte) :
    BusAtRest (linesAfter ls (eventsOf (lutLoadItems c mode))) := by
  unfold lutLoadItems
  cases decodeMode c mode with
  | full => exact h.framed (writeLutItems_framed c _)
  | partialRefresh => exact h.framed (writeLutItems_framed c _)
  | unrecognised =>
    rw [eventsOf_append, linesAfter_append]
    exact h.framed (writeLutItems_framed c _)

/-- INIT brings the bus to rest from any lines (10_state.md R35; 41_framer.md R166). -/
theorem busAtRest_init (c : Cfg) (mode : Byte) (ls : Lines) :
    BusAtRest (linesAfter ls (eventsOf (initItems c mode))) := by
  rw [initItems, eventsOf_append, linesAfter_append, eventsOf_append, linesAfter_append]
  refine BusAtRest.lutLoad ?_ c mode
  have hreset : (linesAfter ls (eventsOf (configureItems ++ resetItems c))).rst = .high := rfl
  obtain ⟨b, hb⟩ := linesAfter_framedItems (registerLoadItems c) (registerLoadItems_framed c)
    (by simp [registerLoadItems, cmdItems]) (linesAfter ls (eventsOf (configureItems ++ resetItems c)))
  rw [hb]
  exact ⟨rfl, rfl, rfl, hreset⟩

/-! ### A host operation that answers -/

/-- A host operation that answers has returned Ok or Err. -/
theorem hostAnswer_okOrErr {i : Instr} {op : HostOp} {s t : State} (hi : hostOpOf i = some op)
    (h : exec i s = .next t) :
    (∃ w d, (eventsOf w).all isWaitEvent = true ∧ t = hostOk i op (eventsOf (hostItems s.cfg i) ++ eventsOf w) d s) ∨
    ∃ e d u, t = hostErr i op e d u s := by
  cases hostAnswer hi h with
  | ok w d hwait ha => exact .inl ⟨w, d, waitTail_wait hwait, rfl⟩
  | writeFails pre l v post d he ha hf => exact .inr ⟨_, _, _, rfl⟩
  | timeout d hop hpol hwait ha => exact .inr ⟨_, _, _, rfl⟩
  | readFails k d hop hpol hk hb ha hf => exact .inr ⟨_, _, _, rfl⟩

@[simp] theorem hostOk_lutOk (i : Instr) (op : HostOp) (es : List Event) (d : Datapath) (s : State) :
    (hostOk i op es d s).ghost.lutOk = lutOkOnOk s.cfg i s.ghost.lutOk := rfl
@[simp] theorem hostErr_lutOk (i : Instr) (op : HostOp) (e : Raise) (d : Datapath) (t s : State) :
    (hostErr i op e d t s).ghost.lutOk = lutOkOnErr i s.ghost.lutOk := rfl

theorem Follows.revTrace {s t : State} {es : List Event} (h : Follows s t es) :
    t.revTrace = es.reverse ++ s.revTrace := by
  have := congrArg List.reverse h.trace
  simpa [State.trace] using this

/-- CLK and DC do not rest High after an answer (10_state.md R31; 41_framer.md R166). -/
theorem hostAnswer_quiet {i : Instr} {op : HostOp} {s t : State} (h : HostAnswer i op s t) (hq : Quiet s.lines) :
    Quiet t.lines := by
  have hstops := quietStops_items (hostItems s.cfg i) s.lines (hostItems_plain _ _) hq
  have hwaited : ∀ w : List Event, w.all isWaitEvent = true →
      Quiet (linesAfter s.lines (eventsOf (hostItems s.cfg i) ++ w)) := by
    intro w hw
    rw [linesAfter_append, linesAfter_wait _ _ hw]
    exact hstops.1
  cases h with
  | ok w d hwait ha => exact hwaited _ (waitTail_wait hwait)
  | writeFails pre l v post d he ha hf => exact hstops.2 pre l v post he
  | timeout d hop hpol hwait ha => exact hwaited _ (timeoutItems_wait _)
  | readFails k d hop hpol hk hb ha hf => exact hwaited _ (eventsOf_busyTurns_wait _ _)

theorem noReservedStatus_ok {i : Instr} {s : State} (h : noReservedStatus s.status = true) :
    noReservedStatus (okStatus i s) = true := by
  simp only [noReservedStatus, Bool.and_eq_true] at h ⊢
  obtain ⟨⟨-, h6⟩, h7⟩ := h
  exact ⟨⟨rfl, h6⟩, h7⟩

/-- No answer holds a reserved status value (30_encoding.md R123). -/
theorem host_next_noReserved {i : Instr} {op : HostOp} {s t : State} (hi : hostOpOf i = some op)
    (h : exec i s = .next t) (hs : noReservedStatus s.status = true) : noReservedStatus t.status = true := by
  rcases hostAnswer_okOrErr hi h with ⟨w, d, -, rfl⟩ | ⟨e, d, u, rfl⟩
  · exact noReservedStatus_ok hs
  · exact statusOnRaise_noReserved e _ hs

theorem pstateOnOk_uninitialized {op : HostOp} (hop : op ≠ .init) :
    pstateOnOk op .uninitialized = .uninitialized := by
  cases op <;> simp [pstateOnOk] at hop ⊢

theorem pstateOnOk_ready_or_sleeping (op : HostOp) {p : PState} (hp : p = .ready ∨ p = .sleeping) :
    pstateOnOk op p = .ready ∨ pstateOnOk op p = .sleeping := by
  rcases hp with rfl | rfl <;> cases op <;> simp [pstateOnOk]

/-- After an operation that returned Ok, either INIT has still not been run, or PSTATE is Ready or Sleeping and the bus is
at rest (43_sequencer.md R245; 41_framer.md R166). -/
theorem host_ok_atRest {i : Instr} {op : HostOp} {s : State} {wait : List Event}
    (hi : hostOpOf i = some op) (hw : wait.all isWaitEvent = true)
    (hs : s.ghost.pstate = .uninitialized ∨
      ((s.ghost.pstate = .ready ∨ s.ghost.pstate = .sleeping) ∧ BusAtRest s.lines)) :
    pstateOnOk op s.ghost.pstate = .uninitialized ∨
      ((pstateOnOk op s.ghost.pstate = .ready ∨ pstateOnOk op s.ghost.pstate = .sleeping) ∧
        BusAtRest (linesAfter s.lines (eventsOf (hostItems s.cfg i) ++ wait))) := by
  rw [linesAfter_append, linesAfter_wait _ _ hw]
  by_cases hop : op = .init
  · subst hop
    obtain ⟨mode, rfl⟩ : ∃ mode, i = .init mode := by cases i <;> cases hi; exact ⟨_, rfl⟩
    exact .inr ⟨.inl rfl, busAtRest_init s.cfg mode s.lines⟩
  · rcases hs with hp | ⟨hp, hrest⟩
    · exact .inl (hp ▸ pstateOnOk_uninitialized hop)
    · exact .inr ⟨pstateOnOk_ready_or_sleeping op hp,
        hrest.framed (hostItems_framed s.cfg i (initMode_of_hostOp hi hop))⟩

end Sys2Proof.Machine
end

section
/-! PROOFS. Power-on, the configuration, the invariant of a run, and what a step does (10_state.md). -/

namespace Sys2Proof.Machine

/-- A host operation keeps the invariant of a run that goes on, the host's position after it being `advanceHost`'s. -/
theorem host_next_keepsRunInv {i : Instr} {op : HostOp} {s u : State} (hi : hostOpOf i = some op)
    (h : exec i s = .next u) (hrun : s.host.runEnded = false) (inv : HostRunInv s) : HostRunInv (advanceHost u) := by
  obtain ⟨es, -, follows⟩ := exec_follows (.inl h)
  obtain ⟨r, hres, -, hended⟩ := host_result hi h
  obtain ⟨hclk, hdc⟩ := hostAnswer_quiet (hostAnswer hi h) ⟨inv.clkNotHigh, inv.dcNotHigh⟩
  have hcount : s.host.revResults.length = s.host.index := by simpa [hrun] using inv.position
  constructor
  case hostOnly => simpa [follows.program] using inv.hostOnly
  case idle =>
    rw [advanceHost_pos]
    rcases hostAnswer_okOrErr hi h with ⟨w, d, -, rfl⟩ | ⟨e, d, v, rfl⟩ <;> rfl
  case linesFollowTrace =>
    rw [advanceHost_lines, advanceHost_revTrace, follows.lines, follows.revTrace]
    exact linesFollow_events es _ _ inv.linesFollowTrace
  case clkNotHigh => rwa [advanceHost_lines]
  case dcNotHigh => rwa [advanceHost_lines]
  case status =>
    rw [advanceHost_status]
    exact host_next_noReserved hi h inv.status
  case endedByErr => rw [advanceHost_runEnded, advanceHost_revResults, hres, hended]
  case position =>
    rw [advanceHost_revResults, advanceHost_index, advanceHost_runEnded, hres, follows.index, List.length_cons, hcount]
    cases u.host.runEnded <;> rfl
  case frameAfterErr =>
    rw [advanceHost_runEnded, advanceHost_ghost]
    rcases hostAnswer_okOrErr hi h with ⟨w, d, -, rfl⟩ | ⟨e, d, v, rfl⟩
    · intro hend; cases hend
    · exact fun _ => rfl
  case atRest =>
    rw [advanceHost_runEnded, advanceHost_ghost, advanceHost_lines]
    rcases hostAnswer_okOrErr hi h with ⟨w, d, hw, rfl⟩ | ⟨e, d, v, rfl⟩
    · exact fun _ => host_ok_atRest hi hw (inv.atRest hrun)
    · intro hend; cases hend

/-- Settles O3: a step of a host program runs a host operation, and the operation's answer meets every field of the invariant
(`host_next_keepsRunInv`). -/
theorem stepKeepsRunInvariant : Obligations.StepKeepsRunInvariant := by
  intro s t inv h
  obtain ⟨hrun, is, i, hnext, hdec, -, ⟨u, hexec, rfl, -⟩ | ⟨-, hstuck⟩⟩ := step_inversion (.inl h)
  · have hspace : is.space = .host := inv.hostOnly is (List.mem_of_getElem? hnext)
    obtain ⟨op, hi⟩ := hostOpOf_of_decode_host (hspace ▸ hdec)
    exact host_next_keepsRunInv hi hexec hrun inv
  · rw [h] at hstuck; cases hstuck

/-- Settles O4: the state of every outcome follows the events performed (`exec_follows`), and a step adds the move of the
host's position alone (10_state.md R45). -/
theorem configurationNeverChanges : Obligations.ConfigurationNeverChanges := by
  have hexec : ∀ i s t, exec i s = .next t ∨ exec i s = .fault (.gpioNeverReturns t) → t.cfg = s.cfg := by
    intro i s t h
    obtain ⟨_, -, follows⟩ := exec_follows h
    exact follows.cfg
  refine ⟨hexec, ?_⟩
  intro s t h
  obtain ⟨-, _, i, -, -, -, ⟨u, hu, rfl, -⟩ | ⟨hu, -⟩⟩ := step_inversion h
  · rw [advanceHost_cfg]
    exact hexec i s u (.inl hu)
  · exact hexec i s t (.inr hu)

/-- Settles O14: the operation gives the host one result and leaves its position (`host_result`, `exec_follows`), which
`advanceHost` moves unless the run has ended (10_state.md R53). -/
theorem resultsMoveTheHostPosition : Obligations.ResultsMoveTheHostPosition := by
  intro s t word hnext h
  obtain ⟨-, is, i, his, hdec, -, ⟨u, hexec, rfl, -⟩ | ⟨-, hstuck⟩⟩ := step_inversion (.inl h)
  · obtain rfl : is = { space := .host, word := word } := Option.some.inj (his.symm.trans hnext)
    obtain ⟨op, hi⟩ := hostOpOf_of_decode_host hdec
    obtain ⟨_, -, follows⟩ := exec_follows (.inl hexec)
    obtain ⟨r, hres, -, hended⟩ := host_result hi hexec
    rw [advanceHost_program, advanceHost_revResults, advanceHost_index, advanceHost_runEnded, hended, follows.index]
    refine ⟨follows.program, r, hres, ?_, ?_⟩
    · intro hok; simp [hok]
    · intro herr; simp [Option.isSome_iff_ne_none.mpr herr]
  · rw [h] at hstuck; cases hstuck

/-- Settles O1: the values of 10_state.md R60, read off `State.reset`. -/
theorem powerOnState : Obligations.PowerOnState := ⟨rfl, rfl, rfl, rfl⟩

/-- Settles O2: at power-on the program and the trace are empty, no result has been given and INIT has not been run
(10_state.md R60). -/
theorem resetMeetsRunInvariant : Obligations.ResetMeetsRunInvariant where
  hostOnly := by intro is his; cases his
  idle := rfl
  linesFollowTrace := by intro l; cases l <;> rfl
  clkNotHigh := by decide
  dcNotHigh := by decide
  status := by decide
  endedByErr := rfl
  position := rfl
  frameAfterErr := fun _ => rfl
  atRest := fun _ => .inl rfl

theorem readIssue_ok {c : Cfg} {is : Issue} {i : Instr} (hdec : decode is.space is.word = .ok i)
    (hwf : i.wellFormed c = true) : readIssue c is = .ok i := by
  simp [readIssue, hdec, hwf]

/-- Settles O12: the entry is fetched and decoded (`readIssue_ok`), so that `step` is `exec` and then `advanceHost`
(log entry 7). -/
theorem stepRunsDecodedInstruction : Obligations.StepRunsDecodedInstruction := by
  intro s space word i hrun hnext hdec hwf
  have hread : readIssue s.cfg { space, word } = .ok i := readIssue_ok hdec hwf
  simp only [step, hrun, nextIssue, hnext, hread, Bool.false_eq_true, if_false]
  cases exec i s <;> rfl

end Sys2Proof.Machine
end

section
/-! PROOFS. The status record (10_state.md R40 to R42). -/

namespace Sys2Proof.Machine

/-- Settles O42: by how the operation answered (`hostAnswer`), and `resultCode` of what it raised (10_state.md R40). -/
theorem resultEncoding : Obligations.ResultEncoding := by
  intro i op s t hi h
  cases hostAnswer hi h with
  | ok w d hwait ha => exact ⟨_, rfl, rfl, by simp [okStatus]⟩
  | writeFails pre l v post d he ha hf => exact ⟨_, rfl, rfl, by simp [errStatus, resultCode]⟩
  | timeout d hop hpol hwait ha => exact ⟨_, rfl, rfl, by simp [errStatus, resultCode, hpol]⟩
  | readFails k d hop hpol hk hb ha hf => exact ⟨_, rfl, rfl, by simp [errStatus, resultCode]⟩

theorem okStatus_warn_eq_one_iff (i : Instr) (s : State) :
    (okStatus i s).warn = 1 ↔ warnsInvalidMode s.cfg i = true := by
  cases h : warnsInvalidMode s.cfg i <;> simp [okStatus, h]

theorem okStatus_warn_cases (i : Instr) (s : State) : (okStatus i s).warn = 0 ∨ (okStatus i s).warn = 1 := by
  cases h : warnsInvalidMode s.cfg i <;> simp [okStatus, h]

theorem errStatus_warn (e : Raise) (s : State) : (errStatus e s).warn = 0 := by
  simp [errStatus]

/-- Where a host operation can raise, it has not warned: its writes come before its warning, and one that waits for the
controller is no INIT. -/
theorem hostAnswer_warning {i : Instr} {op : HostOp} {s t : State} (hi : hostOpOf i = some op)
    (h : HostAnswer i op s t) : ∃ es, t.trace = s.trace ++ es ∧ (Event.warn 1 ∈ es ↔ t.status.warn = 1) := by
  have hwaited : ∀ w : List Event, waitsAtEnd op = true → w.all isWaitEvent = true →
      Event.warn 1 ∉ eventsOf (hostItems s.cfg i) ++ w := by
    intro w hop hw
    have hm : initMode i = none := initMode_of_hostOp hi (by rintro rfl; cases hop)
    rw [List.mem_append, not_or]
    exact ⟨warn_not_mem_framed (hostItems_framed s.cfg i hm) 1, warn_not_mem_wait hw 1⟩
  cases h with
  | ok w d hwait ha =>
    refine ⟨_, hostOk_trace .., ?_⟩
    rw [hostOk_status, okStatus_warn_eq_one_iff, List.mem_append, warn_mem_hostEvents_iff]
    simp [warn_not_mem_wait (waitTail_wait hwait) 1]
  | writeFails pre l v post d he ha hf =>
    refine ⟨_, (hostErr_trace ..).trans (emit_trace ..), ?_⟩
    simp [errStatus_warn, warn_not_mem_before_write he 1]
  | timeout d hop hpol hwait ha =>
    refine ⟨_, (hostErr_trace ..).trans (emit_trace ..), ?_⟩
    simpa [errStatus_warn] using hwaited _ hop (timeoutItems_wait _)
  | readFails k d hop hpol hk hb ha hf =>
    refine ⟨_, (hostErr_trace ..).trans (emit_trace ..), ?_⟩
    simpa [errStatus_warn] using hwaited _ hop (eventsOf_busyTurns_wait _ _)

/-- Settles O43: the warning is performed where WARN is set (`hostAnswer_warning`), and on Ok that is where the mode is
unrecognised (10_state.md R41). -/
theorem warningFollowsTheInitMode : Obligations.WarningFollowsTheInitMode := by
  intro i op s t hi h
  obtain ⟨es, htrace, hwarn⟩ := hostAnswer_warning hi (hostAnswer hi h)
  rcases hostAnswer_okOrErr hi h with ⟨w, d, -, rfl⟩ | ⟨e, d, u, rfl⟩
  · refine ⟨es, _, htrace, rfl, hwarn.symm, okStatus_warn_cases i s, ?_, ?_⟩
    · exact fun h1 => (warnsInvalidMode_iff s.cfg i).mp ((okStatus_warn_eq_one_iff i s).mp h1)
    · intro mode hmode hf hp _
      exact ⟨rfl, (okStatus_warn_eq_one_iff i s).mpr ((warnsInvalidMode_iff s.cfg i).mpr ⟨mode, hmode, hf, hp⟩)⟩
  · have h0 : (hostErr i op e d u s).status.warn = 0 := errStatus_warn e s
    refine ⟨es, _, htrace, rfl, hwarn.symm, .inl h0, ?_, ?_⟩
    · intro h1; rw [h0] at h1; cases h1
    · intro _ _ _ _ hok; cases hok

/-- Settles O44: an Ok leaves both fields, and `statusOnRaise` writes them by what was raised (10_state.md R42). -/
theorem errorFieldsNameTheFailure : Obligations.ErrorFieldsNameTheFailure := by
  intro i op s t hi h
  rcases hostAnswer_okOrErr hi h with ⟨w, d, -, rfl⟩ | ⟨e, d, u, rfl⟩
  · exact ⟨_, rfl, by simp [okStatus]⟩
  · refine ⟨_, rfl, ?_⟩
    cases e with
    | ioWrite l v => cases l <;> cases v <;> simp [errStatus, statusOnRaise, lineCode, levelCode]
    | ioReadBusy => simp [errStatus, statusOnRaise, busyCode]
    | busyTimeout n => simp [errStatus, statusOnRaise]

end Sys2Proof.Machine
end

section
/-! PROOFS. The ghost flags and the reset line (10_state.md R35, R47 to R49). -/

namespace Sys2Proof.Machine

/-- Settles O45: INIT sets LUT_OK by its mode on Ok and clears it otherwise, also in the state in which it waits for ever;
an operation without a mode leaves it (10_state.md R47). -/
theorem lutOkRecordsTheUpload : Obligations.LutOkRecordsTheUpload := by
  refine ⟨?_, ?_⟩
  · intro i op s t hi h
    rcases hostAnswer_okOrErr hi h with ⟨w, d, -, rfl⟩ | ⟨e, d, u, rfl⟩
    · refine ⟨_, rfl, ?_, ?_⟩
      · rintro mode rfl
        simp only [hostOk_lutOk, lutOkOnOk, initMode, decide_eq_true_eq, decodeMode_ne_unrecognised_iff, true_and]
      · intro hne
        simp [lutOkOnOk, initMode_eq_none hne]
    · refine ⟨_, rfl, ?_, ?_⟩
      · rintro mode rfl
        simp [lutOkOnErr, initMode]
      · intro hne
        simp [lutOkOnErr, initMode_eq_none hne]
  · intro mode s b h
    obtain ⟨pre, d, p, -, -, rfl⟩ := hostWaits rfl h
    rfl

theorem frameUndefinedOnOk_ready {op : HostOp} {p : PState} (b : Bool) (hop : op = .display ∨ op = .clear)
    (hp : p = .ready) : frameUndefinedOnOk op p b = false := by
  rcases hop with rfl | rfl <;> simp [frameUndefinedOnOk, hp]

theorem frameUndefinedOnOk_other {op : HostOp} {p : PState} (b : Bool)
    (h : ¬((op = .display ∨ op = .clear) ∧ p = .ready)) : frameUndefinedOnOk op p b = b := by
  cases op <;> simp_all [frameUndefinedOnOk]

/-- Settles O46: the flag is `true` at reset and after every Err, and `frameUndefinedOnOk` after an Ok (10_state.md R49). -/
theorem frameUndefinedFollowsTheFrames : Obligations.FrameUndefinedFollowsTheFrames := by
  refine ⟨rfl, ?_⟩
  intro i op s t hi h
  rcases hostAnswer_okOrErr hi h with ⟨w, d, -, rfl⟩ | ⟨e, d, u, rfl⟩
  · exact ⟨_, rfl, fun herr => absurd rfl herr, fun _ hop hp => frameUndefinedOnOk_ready _ hop hp,
      fun _ hn => frameUndefinedOnOk_other _ hn⟩
  · refine ⟨_, rfl, fun _ => rfl, ?_, ?_⟩ <;> (intro hok; cases hok)

theorem violationAfter_iff (op : HostOp) (p : PState) (b : Bool) :
    violationAfter op p b = true ↔ b = true ∨ (op ≠ .init ∧ p ≠ .ready) := by
  cases op <;> simp [violationAfter]

theorem startOp_violation_iff (op : HostOp) (s : State) : (startOp op s).ghost.protocolViolation = true ↔
    s.ghost.protocolViolation = true ∨ (op ≠ .init ∧ s.ghost.pstate ≠ .ready) := by
  rw [startOp_protocolViolation]
  cases op <;> simp [validIn]

/-- The ghost state decides nothing that the host or the trace shows: an operation answers the same from another one
(43_sequencer.md R246). -/
theorem hostAnswer_withGhost {i : Instr} {op : HostOp} {s t : State} (hi : hostOpOf i = some op)
    (hw : s.cfg.wf = true) (h : HostAnswer i op s t) (g : Ghost) :
    ∃ t', exec i { s with ghost := g } = .next t' ∧ t'.trace = t.trace ∧ t'.status = t.status ∧ t'.host = t.host := by
  cases h with
  | ok w d hwait ha =>
    obtain ⟨_, h'⟩ := host_ok (s := { s with ghost := g }) hi hw hwait ha
    exact ⟨_, h', rfl, rfl, rfl⟩
  | writeFails pre l v post d he ha hf =>
    obtain ⟨_, h'⟩ := host_writeFails (s := { s with ghost := g }) hi hw he ha hf
    exact ⟨_, h', rfl, rfl, rfl⟩
  | timeout d hop hpol hwait ha =>
    obtain ⟨_, h'⟩ := host_timeout (s := { s with ghost := g }) hi hop hw hwait ha
    exact ⟨_, h', rfl, rfl, rfl⟩
  | readFails k d hop hpol hk hb ha hf =>
    obtain ⟨_, h'⟩ := host_readFails (s := { s with ghost := g }) hi hop hw hpol hk hb ha hf
    exact ⟨_, h', rfl, rfl, rfl⟩

/-- Where an operation waits for ever does not depend on the ghost state. -/
theorem HostStuck.withGhost {i : Instr} {op : HostOp} {s : State} {pre : List Event} (h : HostStuck i op s pre)
    (g : Ghost) : HostStuck i op { s with ghost := g } pre := by
  cases h with
  | write _ l v post he ha hf => exact .write _ l v post he ha hf
  | read k hop hpol hk hb ha hf => exact .read k hop hpol hk hb ha hf

theorem innerGhost_protocolViolation (c : Cfg) (i : Instr) (g : Ghost) :
    (innerGhost c i g).protocolViolation = g.protocolViolation := by
  cases i <;> rfl

/-- Playing events and waiting leaves the ghost state. -/
theorem Ending.ghost {es : List Event} {waits : Bool} {s : State} {r : Res} (h : Ending es waits s r) :
    (resState r).ghost = s.ghost := by
  cases h <;> rfl

/-- A micro-operation or a frame leaves PROTOCOL_VIOLATION (10_state.md R48). -/
theorem inner_protocolViolation {i : Instr} {s t : State} (hi : hostOpOf i = none)
    (h : exec i s = .next t ∨ exec i s = .fault (.gpioNeverReturns t)) :
    t.ghost.protocolViolation = s.ghost.protocolViolation := by
  have hw := wf_of_exec h
  obtain ⟨d, he⟩ := exec_inner hi hw
  have hghost := (played_ending (innerEvents s.cfg i) (innerWaits i) s hw (innerEvents_planned _ _)).ghost
  rw [he] at h
  generalize played (innerEvents s.cfg i) (innerWaits i) s = r at h hghost
  rw [← hghost]
  cases r with
  | done u => rcases h with h | h <;> cases h; exact innerGhost_protocolViolation _ _ _
  | raised e u => rcases h with h | h <;> cases h; rfl
  | stuck u => rcases h with h | h <;> cases h; rfl

/-- Settles O47: the flag is `violationAfter` on an answer and already `startOp`'s at an access that never returns; the
draws that decide the outcome are the same from another ghost state (10_state.md R48; 43_sequencer.md R246). -/
theorem violationsAreRecordedNotRefused : Obligations.ViolationsAreRecordedNotRefused := by
  refine ⟨?_, ?_, ?_⟩
  · intro i op s t hi h
    refine ⟨?_, hostAnswer_withGhost hi (wf_of_exec (.inl h)) (hostAnswer hi h)⟩
    rcases hostAnswer_okOrErr hi h with ⟨w, d, -, rfl⟩ | ⟨e, d, u, rfl⟩ <;> exact violationAfter_iff _ _ _
  · intro i op s b hi h
    have hw : s.cfg.wf = true := wf_of_exec (.inr h)
    obtain ⟨pre, d, p, -, hstuck, rfl⟩ := hostWaits hi h
    refine ⟨startOp_violation_iff op s, ?_⟩
    intro g
    obtain ⟨d', p', -, h'⟩ := host_stuck (s := { s with ghost := g }) hi hw (hstuck.withGhost g)
    exact ⟨_, h', rfl, rfl, rfl, rfl⟩
  · intro i s t hi h
    exact inner_protocolViolation hi h

/-- RESET whose three writes succeed (43_sequencer.md R221). -/
theorem reset_completes {s : State} (hw : s.cfg.wf = true) (ha : answersOk 3 s.env.gpio = true) :
    ∃ t, exec .reset s = .next t ∧ t.lines.rst = .high ∧ t.trace = s.trace ++ eventsOf (resetItems s.cfg) := by
  obtain ⟨d, h⟩ := inner_plain (i := .reset) rfl rfl hw ha
  exact ⟨_, h, rfl, emit_trace _ s⟩

/-- Settles O50: only the Reset sequence plans a write of RST (`plannedEvents_leave_rst`), and both RESET and INIT leave it
High (10_state.md R35). -/
theorem resetLineIsResetsAlone : Obligations.ResetLineIsResetsAlone := by
  refine ⟨rfl, ?_, ?_, ?_⟩
  · intro i s t hr hm h
    obtain ⟨es, hperf, follows⟩ := exec_follows h
    have hall := hperf.leave_rst (plannedEvents_leave_rst s.cfg hr hm)
    refine ⟨es, follows.trace, ?_, by rw [follows.lines, linesAfter_rst es s.lines hall]⟩
    intro v
    constructor <;> (intro hmem; have := List.all_eq_true.mp hall _ hmem; cases this)
  · intro s hw ha
    exact reset_completes hw ha
  · intro mode s t r h hres hok
    rcases hostAnswer_okOrErr rfl h with ⟨w, d, hw, rfl⟩ | ⟨e, d, u, rfl⟩
    · rw [hostOk_lines, linesAfter_append, linesAfter_wait _ _ hw]
      exact (busAtRest_init s.cfg mode s.lines).rst
    · cases hres
      cases hok

end Sys2Proof.Machine
end

section
/-! PROOFS. What an instruction may touch (20_memory.md): the lines and the trace by its events, the host's program not at
all. -/

namespace Sys2Proof.Machine

/-- Settles O51: the state of every outcome follows the events the instruction performed (`exec_follows`), which for an
access that never returns are those before it, so the hanging line keeps its level (log entry 2). -/
theorem traceGrowsAndLinesFollow : Obligations.TraceGrowsAndLinesFollow := by
  intro i s t h
  obtain ⟨es, -, follows⟩ := exec_follows h
  exact ⟨es, follows.trace, follows.lines, follows.blockedMs, follows.program, follows.index⟩

end Sys2Proof.Machine
end

section
/-! PROOFS. Words (30_encoding.md R104, R106, R110, R111, R121, R124): the encoder and the decoder undo each other, and
what the decoder of host words rejects. -/

namespace Sys2Proof.Machine

/-- Settles O6: by the instruction; its `Codec` lemma decodes its word (30_encoding.md R104; log entries 8 and 9). -/
theorem decodeOfEncodeIsIdentity : Obligations.DecodeOfEncodeIsIdentity := by
  intro c i h
  cases i with
  | init mode => exact Laws.Codec.init mode c h
  | clear => exact Laws.Codec.clear c h
  | display buf => exact Laws.Codec.display buf c h
  | sleep => exact Laws.Codec.sleep c h
  | setWindow xs ys xe ye => exact Laws.Codec.setWindow xs ys xe ye c h
  | setCursor x y => exact Laws.Codec.setCursor x y c h
  | turnonDisplay => exact Laws.Codec.turnonDisplay c h
  | writeByte v => exact Laws.Codec.writeByte v c h
  | writeBytes bytes => exact Laws.Codec.writeBytes bytes c h
  | sendDataInternal v isCommand => exact Laws.Codec.sendDataInternal v isCommand c h
  | sendCmd v => exact Laws.Codec.sendCmd v c h
  | sendData v => exact Laws.Codec.sendData v c h
  | configure => exact Laws.Codec.configure c h
  | reset => exact Laws.Codec.reset c h
  | registerLoad => exact Laws.Codec.registerLoad c h
  | lutLoad mode => exact Laws.Codec.lutLoad mode c h
  | busyWait => exact Laws.Codec.busyWait c h
  | streamFrame src => exact Laws.Codec.streamFrame src c h
  | driverOutputControl => exact Laws.Codec.driverOutputControl c h
  | boosterSoftStart => exact Laws.Codec.boosterSoftStart c h
  | writeVcom => exact Laws.Codec.writeVcom c h
  | dummyLinePeriod => exact Laws.Codec.dummyLinePeriod c h
  | gateTime => exact Laws.Codec.gateTime c h
  | borderWaveform => exact Laws.Codec.borderWaveform c h
  | dataEntryMode => exact Laws.Codec.dataEntryMode c h
  | writeLut m => exact Laws.Codec.writeLut m c h
  | ramXWindow xs xe => exact Laws.Codec.ramXWindow xs xe c h
  | ramYWindow ys ye => exact Laws.Codec.ramYWindow ys ye c h
  | ramXCounter x => exact Laws.Codec.ramXCounter x c h
  | ramYCounter y => exact Laws.Codec.ramYCounter y c h
  | writeRam bytes => exact Laws.Codec.writeRam bytes c h
  | displayUpdateCtrl2 => exact Laws.Codec.displayUpdateCtrl2 c h
  | masterActivation => exact Laws.Codec.masterActivation c h
  | terminateFrameRw => exact Laws.Codec.terminateFrameRw c h
  | deepSleep => exact Laws.Codec.deepSleep c h

/-! ### A decoded word is its instruction's encoding -/

/-- The instruction belongs to the code space, and its word there is `word`. -/
def IsWordOf (space : Space) (word : List Byte) (i : Instr) : Prop := spaceOf i = space ∧ encode i = word

section
variable {space : Space} {code : Byte} {ops : List Byte} {i j : Instr} {n : Nat}

theorem code_eq_ofNat (hcode : code.toNat = n) : code = BitVec.ofNat 8 n :=
  Laws.code_eq n (hcode ▸ code.isLt) hcode

theorem isWordOf_decode0 (hcode : code.toNat = n) (h : decode0 j ops = .ok i)
    (hj : IsWordOf space [BitVec.ofNat 8 n] j) : IsWordOf space (code :: ops) i := by
  obtain ⟨rfl, rfl⟩ := Laws.decode0_ok h
  rwa [code_eq_ofNat hcode]

theorem isWordOf_decode8 {f : Byte → Except Reject Instr} (hcode : code.toNat = n) (h : decode8 f ops = .ok i)
    (hf : ∀ b, f b = .ok i → IsWordOf space [BitVec.ofNat 8 n, b] i) : IsWordOf space (code :: ops) i := by
  obtain ⟨b, rfl, hb⟩ := Laws.decode8_ok h
  rw [code_eq_ofNat hcode]
  exact hf b hb

theorem isWordOf_decode16 {f : Coord → Instr} (hcode : code.toNat = n) (h : decode16 f ops = .ok i)
    (hf : ∀ x, IsWordOf space (BitVec.ofNat 8 n :: bytes16 x) (f x)) : IsWordOf space (code :: ops) i := by
  obtain ⟨x, rfl, rfl⟩ := Laws.decode16_ok h
  rw [code_eq_ofNat hcode]
  exact hf x

theorem isWordOf_decode16x2 {f : Coord → Coord → Instr} (hcode : code.toNat = n) (h : decode16x2 f ops = .ok i)
    (hf : ∀ x y, IsWordOf space (BitVec.ofNat 8 n :: (bytes16 x ++ bytes16 y)) (f x y)) :
    IsWordOf space (code :: ops) i := by
  obtain ⟨x, y, rfl, rfl⟩ := Laws.decode16x2_ok h
  rw [code_eq_ofNat hcode]
  exact hf x y

theorem isWordOf_decodeBytes {f : List Byte → Instr} (hcode : code.toNat = n) (h : decodeBytes f ops = .ok i)
    (hf : ∀ bytes, IsWordOf space (BitVec.ofNat 8 n :: bytesWithLength bytes) (f bytes)) :
    IsWordOf space (code :: ops) i := by
  obtain ⟨bytes, rfl, rfl⟩ := Laws.decodeBytes_ok h
  rw [code_eq_ofNat hcode]
  exact hf bytes

theorem isWordOf_decodeHost (h : decodeHost code ops = .ok i) : IsWordOf .host (code :: ops) i := by
  unfold decodeHost at h
  split at h <;> rename_i hcode
  · exact isWordOf_decode8 hcode h fun _ hb => by cases hb; exact ⟨rfl, rfl⟩
  · exact isWordOf_decode0 hcode h ⟨rfl, rfl⟩
  · exact isWordOf_decodeBytes hcode h fun _ => ⟨rfl, rfl⟩
  · exact isWordOf_decode0 hcode h ⟨rfl, rfl⟩
  · obtain ⟨_, _, _, _, rfl, rfl⟩ := Laws.decode16x4_ok h
    exact ⟨rfl, by rw [code_eq_ofNat hcode]; rfl⟩
  · exact isWordOf_decode16x2 hcode h fun _ _ => ⟨rfl, rfl⟩
  · exact isWordOf_decode0 hcode h ⟨rfl, rfl⟩
  · cases h

/-- The Boolean operand's byte is the one that `encode` writes (log entry 8). -/
theorem isWordOf_decodeBool {v b : Byte} (h : decodeBool (.sendDataInternal v) b = .ok i) :
    IsWordOf .micro [0x82, v, b] i := by
  unfold decodeBool at h
  split at h
  · next hb => cases h; exact ⟨rfl, by rw [hb]; rfl⟩
  · split at h
    · next hb => cases h; exact ⟨rfl, by rw [hb]; rfl⟩
    · cases h

/-- The source operand's bytes are those that `encode` writes (log entry 8). -/
theorem isWordOf_decodeSource (h : decodeSource ops = .ok i) : IsWordOf .micro (0x8A :: ops) i := by
  unfold decodeSource at h
  split at h
  · cases h
  · split at h
    · next hk => obtain ⟨rfl, rfl⟩ := Laws.decode0_ok h; exact ⟨rfl, by rw [hk]; rfl⟩
    · split at h
      · next hk => obtain ⟨_, rfl, rfl⟩ := Laws.decodeBytes_ok h; exact ⟨rfl, by rw [hk]; rfl⟩
      · cases h

/-- The mode operand's byte is the one that `encode` writes (log entry 9). -/
theorem isWordOf_decodeModeOperand {b : Byte} (h : decodeModeOperand b = .ok i) : IsWordOf .wire [0x32, b] i := by
  unfold decodeModeOperand at h
  split at h
  · next hb => cases h; exact ⟨rfl, by rw [hb]; rfl⟩
  · split at h
    · next hb => cases h; exact ⟨rfl, by rw [hb]; rfl⟩
    · split at h
      · next hb => cases h; exact ⟨rfl, by rw [hb]; rfl⟩
      · cases h

theorem isWordOf_decodeMicro (h : decodeMicro code ops = .ok i) : IsWordOf .micro (code :: ops) i := by
  unfold decodeMicro at h
  split at h <;> rename_i hcode
  · exact isWordOf_decode8 hcode h fun _ hb => by cases hb; exact ⟨rfl, rfl⟩
  · exact isWordOf_decodeBytes hcode h fun _ => ⟨rfl, rfl⟩
  · obtain ⟨v, b, rfl, hb⟩ := Laws.decode8x2_ok h
    rw [code_eq_ofNat hcode]
    exact isWordOf_decodeBool hb
  · exact isWordOf_decode8 hcode h fun _ hb => by cases hb; exact ⟨rfl, rfl⟩
  · exact isWordOf_decode8 hcode h fun _ hb => by cases hb; exact ⟨rfl, rfl⟩
  · exact isWordOf_decode0 hcode h ⟨rfl, rfl⟩
  · exact isWordOf_decode0 hcode h ⟨rfl, rfl⟩
  · exact isWordOf_decode0 hcode h ⟨rfl, rfl⟩
  · exact isWordOf_decode8 hcode h fun _ hb => by cases hb; exact ⟨rfl, rfl⟩
  · exact isWordOf_decode0 hcode h ⟨rfl, rfl⟩
  · rw [code_eq_ofNat hcode]
    exact isWordOf_decodeSource h
  · cases h

/-- Most wire words are a code alone; the eighth to the thirteenth code are those of frames with operands. -/
theorem isWordOf_decodeWire (h : decodeWire code ops = .ok i) : IsWordOf .wire (code :: ops) i := by
  unfold decodeWire at h
  split at h <;> rename_i hcode
  case h_8 => exact isWordOf_decode8 hcode h fun _ hb => isWordOf_decodeModeOperand hb
  case h_9 | h_10 => exact isWordOf_decode16x2 hcode h fun _ _ => ⟨rfl, rfl⟩
  case h_11 | h_12 => exact isWordOf_decode16 hcode h fun _ => ⟨rfl, rfl⟩
  case h_13 => exact isWordOf_decodeBytes hcode h fun _ => ⟨rfl, rfl⟩
  case h_18 => cases h
  all_goals exact isWordOf_decode0 hcode h ⟨rfl, rfl⟩

end

/-- Settles O7: by the code space; an arm of the decoder that accepts the word gives the instruction whose word that is
(30_encoding.md R104; log entries 8 and 9). -/
theorem decodedWordsAreEncodings : Obligations.DecodedWordsAreEncodings := by
  intro space word i h
  cases word with
  | nil => cases h
  | cons code ops =>
    cases space with
    | host => exact isWordOf_decodeHost h
    | micro => exact isWordOf_decodeMicro h
    | wire => exact isWordOf_decodeWire h

/-! ### Host words that are rejected -/

/-- A code that is no host code is rejected by that name (30_encoding.md R121). -/
theorem decodeHost_foreign {code : Byte} (ops : List Byte) (h : code.toNat < 0x01 ∨ 0x07 < code.toNat) :
    decodeHost code ops = .error (.unknownCode .host code) := by
  unfold decodeHost
  split
  case h_8 => rfl
  all_goals omega

/-- Settles O10: `decodeHost` rejects the word, so the step is refused (30_encoding.md R121). -/
theorem foreignHostCodesAreRefused : Obligations.ForeignHostCodesAreRefused := by
  intro s code operands hrun hnext hcode
  exact step_undecodable hrun hnext (decodeHost_foreign operands hcode)

theorem lengthReject_few {got want : Nat} (h : got < want) : lengthReject got want = .tooFewBytes := if_pos h

theorem lengthReject_trailing {got want : Nat} (h : want < got) : lengthReject got want = .trailingBytes :=
  if_neg (by omega)

theorem decode0_wrongLength {i : Instr} {ops : List Byte} (h : ops.length ≠ 0) :
    decode0 i ops = .error (lengthReject ops.length 0) := by
  unfold decode0
  split
  · exact absurd rfl h
  · rfl

theorem decode8_wrongLength {f : Byte → Except Reject Instr} {ops : List Byte} (h : ops.length ≠ 1) :
    decode8 f ops = .error (lengthReject ops.length 1) := by
  unfold decode8
  split
  · exact absurd rfl h
  · rfl

theorem decode16x2_wrongLength {f : Coord → Coord → Instr} {ops : List Byte} (h : ops.length ≠ 4) :
    decode16x2 f ops = .error (lengthReject ops.length 4) := by
  unfold decode16x2
  split
  · exact absurd rfl h
  · rfl

theorem decode16x4_wrongLength {f : Coord → Coord → Coord → Coord → Instr} {ops : List Byte} (h : ops.length ≠ 8) :
    decode16x4 f ops = .error (lengthReject ops.length 8) := by
  unfold decode16x4
  split
  · exact absurd rfl h
  · rfl

/-- A host word of a fixed length that has another number of operand bytes (30_encoding.md R104, R124). -/
theorem decodeHost_wrongLength {code : Byte} {ops : List Byte} {n : Nat} (hn : hostOperandBytes code.toNat = some n)
    (h : ops.length ≠ n) : decodeHost code ops = .error (lengthReject ops.length n) := by
  unfold decodeHost
  split <;> rename_i hcode
  case h_3 => rw [hcode] at hn; cases hn
  case h_8 => simp [hostOperandBytes] at hn
  all_goals rw [hcode] at hn; cases hn
  · exact decode8_wrongLength h
  · exact decode0_wrongLength h
  · exact decode0_wrongLength h
  · exact decode16x4_wrongLength h
  · exact decode16x2_wrongLength h
  · exact decode0_wrongLength h

theorem decodeHost_display (ops : List Byte) : decodeHost 0x03 ops = decodeBytes .display ops := rfl

/-- A word too short for its length field (30_encoding.md R104, R124). -/
theorem decodeBytes_noLength {f : List Byte → Instr} {ops : List Byte} (h : ops.length < 4) :
    decodeBytes f ops = .error .tooFewBytes := by
  unfold decodeBytes
  split
  · simp only [List.length_cons] at h; omega
  · rfl

/-- A word whose length field does not count its bytes (30_encoding.md R104, R124). -/
theorem decodeBytes_wrongLength {f : List Byte → Instr} {b0 b1 b2 b3 : Byte} {rest : List Byte}
    (h : rest.length ≠ le32 b0 b1 b2 b3) : decodeBytes f (b0 :: b1 :: b2 :: b3 :: rest)
      = .error (lengthReject rest.length (le32 b0 b1 b2 b3)) := if_neg h

/-- Settles O11: the decoder rejects each such word with its `lengthReject`, for the fixed lengths of R104, for
DISPLAY's length field and for DISPLAY's buffer (30_encoding.md R124). -/
theorem wrongLengthHostWordsAreRefused : Obligations.WrongLengthHostWordsAreRefused := by
  intro s code operands hrun hnext
  have refusedAs : ∀ why, decodeHost code operands = .error why → step s = .refused (.undecodable why) :=
    fun _ => step_undecodable hrun hnext
  refine ⟨?_, ?_, ?_⟩
  · intro n hn
    refine ⟨fun h => ?_, fun h => ?_⟩
    · exact lengthReject_few h ▸ refusedAs _ (decodeHost_wrongLength hn (Nat.ne_of_lt h))
    · exact lengthReject_trailing h ▸ refusedAs _ (decodeHost_wrongLength hn (Nat.ne_of_gt h))
  · rintro rfl h
    exact refusedAs _ (decodeBytes_noLength h)
  · rintro b0 b1 b2 b3 rest rfl rfl
    refine ⟨fun h => ?_, fun h => ?_⟩
    · exact lengthReject_few h ▸ refusedAs _ (decodeBytes_wrongLength (Nat.ne_of_lt h))
    · exact lengthReject_trailing h ▸ refusedAs _ (decodeBytes_wrongLength (Nat.ne_of_gt h))

/-- Settles O8: the decoder run on the eight words (30_encoding.md R104, R106; log entries 8 and 9). -/
theorem sampleWordsDecode : Obligations.SampleWordsDecode := by
  unfold Obligations.SampleWordsDecode
  decide

/-! ### Operand bytes -/

theorem xb_toNat (x : Nat) : (xb x).toNat = x / 8 % 256 := by
  rw [xb, BitVec.toNat_ofNat, Nat.shiftRight_eq_div_pow]

theorem lo_toNat (v : Nat) : (lo v).toNat = v % 256 := BitVec.toNat_ofNat ..

theorem hi_toNat (v : Nat) : (hi v).toNat = v / 256 % 256 := by
  rw [hi, BitVec.toNat_ofNat, Nat.shiftRight_eq_div_pow]

/-- Settles O60: the values of `xb`, `lo` and `hi` as numbers (30_encoding.md R110, R111). -/
theorem operandBytes : Obligations.OperandBytes := by
  refine ⟨?_, xb_toNat, fun v => ⟨lo_toNat v, hi_toNat v⟩, ?_⟩
  · intro x
    rfl
  · intro v hv
    rw [lo_toNat, hi_toNat]
    omega

end Sys2Proof.Machine
end

section
/-! PROOFS. Traces and frames (30_encoding.md R101, R120, R125, R126): what a host operation sends is read back from its
trace, and its command frames are those of the table. -/

namespace Sys2Proof.Machine

/-! ### The trace of an operation that returned Ok -/

theorem waitTail_eq_some_iff (c : Cfg) (busy : Draws Level) (waits : Bool) (w : List WireItem) :
    waitTail c busy waits = some w ↔ if waits then waitItems c busy = some w else w = [] := by
  cases waits <;> simp [waitTail, eq_comm]

/-- A host operation that returned Ok has sent its items and those of its wait. -/
theorem host_returnedOk {i : Instr} {op : HostOp} {s t : State} {r : OpResult} (hi : hostOpOf i = some op)
    (h : exec i s = .next t) (hres : t.host.revResults = r :: s.host.revResults) (hok : r.raised = none) :
    ∃ w d, waitTail s.cfg s.env.busy (waitsAtEnd op) = some w ∧
      t = hostOk i op (eventsOf (hostItems s.cfg i) ++ eventsOf w) d s := by
  cases hostAnswer hi h with
  | ok w d hwait ha => exact ⟨w, d, hwait, rfl⟩
  | writeFails pre l v post d he ha hf => cases hres; cases hok
  | timeout d hop hpol hwait ha => cases hres; cases hok
  | readFails k d hop hpol hk hb ha hf => cases hres; cases hok

/-- Settles O54: an Ok has performed the events of the operation's items and of its wait (`host_returnedOk`), and the
decoder gives these items back by induction over them (`decodeTrace_host`; 30_encoding.md R126, log entry 18). -/
theorem traceDecodesToItems : Obligations.TraceDecodesToItems := by
  intro i op s t r hi h hres hok
  obtain ⟨w, d, hwait, rfl⟩ := host_returnedOk hi h hres hok
  have hdec := decodeTrace_host s.cfg i w (waitTail_waitItems hwait)
  refine ⟨eventsOf (hostItems s.cfg i ++ w), w, ?_, (waitTail_eq_some_iff ..).mp hwait, hdec, by rw [hdec]⟩
  rw [hostOk_trace, eventsOf_append]

/-! ### The positions of a framed byte -/

/-- Settles O18: SEND_DATA_INTERNAL performs `framedByte`, and its list shows the positions (30_encoding.md R101). -/
theorem framedBytePositions : Obligations.FramedBytePositions := by
  intro v isCommand s hw ha
  obtain ⟨d, h⟩ := inner_plain (i := .sendDataInternal v isCommand) rfl rfl hw ha
  have hrole : roleLevel (if isCommand then .cmd else .data) = if isCommand then .low else .high := by
    cases isCommand <;> rfl
  refine ⟨_, framedByte (if isCommand then .cmd else .data) v, h, emit_trace _ s, rfl, ?_, rfl, rfl, rfl,
    framedByte_slots _ v, rfl, rfl, fun n h3 _ => linesAfter_take_framedByte_dc _ v _ n h3⟩
  rw [← hrole]
  rfl

/-! ### The frames of the items a host operation sends -/

/-- Every frame has the command byte of a command of the table and a data-byte count that the table gives that command
(30_encoding.md R116, R125). -/
def TableFrames (c : Cfg) (items : List WireItem) : Prop :=
  ∀ f ∈ splitFrames items, ∃ cmd, f.op = opByte c cmd ∧ dataCountAllowed c cmd f.data.length = true

theorem TableFrames.nil (c : Cfg) : TableFrames c [] := fun _ hf => by cases hf

/-- A frame of the table before items that begin no data byte. -/
theorem TableFrames.cmdItems_append {c : Cfg} {rest : List WireItem} (cmd : WireCommand) {ds : List Byte}
    (hn : dataCountAllowed c cmd ds.length = true) (hl : leadingData rest = []) (hr : TableFrames c rest) :
    TableFrames c (cmdItems (opByte c cmd) ds ++ rest) := by
  intro f hf
  rw [splitFrames_cmdItems, hl, List.append_nil] at hf
  rcases List.mem_cons.mp hf with rfl | hf
  · exact ⟨cmd, rfl, hn⟩
  · exact hr f hf

theorem TableFrames.setWindow_append {c : Cfg} {rest : List WireItem} (xs ys xe ye : Nat) (hl : leadingData rest = [])
    (hr : TableFrames c rest) : TableFrames c (setWindowItems c xs ys xe ye ++ rest) := by
  rw [setWindowItems, List.append_assoc]
  exact .cmdItems_append .ramXWindow rfl rfl (.cmdItems_append .ramYWindow rfl hl hr)

theorem TableFrames.setCursor_append {c : Cfg} {rest : List WireItem} (x y : Nat) (hl : leadingData rest = [])
    (hr : TableFrames c rest) : TableFrames c (setCursorItems c x y ++ rest) := by
  rw [setCursorItems, List.append_assoc]
  exact .cmdItems_append .ramXCounter rfl rfl (.cmdItems_append .ramYCounter rfl hl hr)

theorem TableFrames.rows_append {c : Cfg} {rest : List WireItem} (src : Source) (ys : List Nat)
    (hl : leadingData rest = []) (hr : TableFrames c rest) : TableFrames c (ys.flatMap (rowItems c src) ++ rest) := by
  induction ys with
  | nil => exact hr
  | cons y ys ih =>
    rw [List.flatMap_cons, rowItems, List.append_assoc, List.append_assoc]
    refine .setCursor_append 0 y rfl (.cmdItems_append .writeRam ?_ (leadingData_rows c src ys rest hl) ih)
    exact decide_eq_true (rowBytes_le c src y)

/-- The terminate byte is a frame of its own or the data byte of MASTER_ACTIVATION (30_encoding.md R103). -/
theorem tableFrames_activation (c : Cfg) : TableFrames c (activationItems c) := by
  have hrest : TableFrames c
      (cmdItems c.opMasterActivation [] ++ [.framed c.terminateKind c.opTerminateFrameRw]) := by
    cases hk : c.terminateKind with
    | cmd =>
      exact .cmdItems_append .masterActivation (by simp [dataCountAllowed, hk]) rfl
        (.cmdItems_append (ds := []) .terminateFrameRw rfl rfl (.nil c))
    | data =>
      exact .cmdItems_append (ds := [c.opTerminateFrameRw]) .masterActivation (by simp [dataCountAllowed, hk]) rfl
        (.nil c)
  rw [activationItems, List.append_assoc]
  exact .cmdItems_append .displayUpdateCtrl2 rfl rfl hrest

theorem tableFrames_frame (c : Cfg) (src : Source) : TableFrames c (frameItems c src) := by
  rw [frameItems, List.append_assoc]
  exact .setWindow_append _ _ _ _ (leadingData_rows c src _ _ rfl) (.rows_append src _ rfl (tableFrames_activation c))

theorem TableFrames.registerLoad_append {c : Cfg} {rest : List WireItem} (hl : leadingData rest = [])
    (hr : TableFrames c rest) : TableFrames c (registerLoadItems c ++ rest) := by
  simp only [registerLoadItems, List.append_assoc]
  exact .cmdItems_append .driverOutputControl rfl rfl <| .cmdItems_append .boosterSoftStart rfl rfl <|
    .cmdItems_append .writeVcom rfl rfl <| .cmdItems_append .dummyLinePeriod rfl rfl <|
    .cmdItems_append .gateTime rfl rfl <| .cmdItems_append .borderWaveform rfl rfl <|
    .cmdItems_append .dataEntryMode rfl hl hr

theorem writeLutItems_unrecognised (c : Cfg) : writeLutItems c .unrecognised
    = if c.invalidModeSendsLutCmd then cmdItems c.opWriteLut [] else [] := rfl

theorem leadingData_lutLoad (c : Cfg) (mode : Byte) : leadingData (lutLoadItems c mode) = [] := by
  unfold lutLoadItems
  cases decodeMode c mode with
  | full => rfl
  | partialRefresh => rfl
  | unrecognised =>
    show leadingData (writeLutItems c .unrecognised ++ [.single (.warn 1)]) = []
    rw [writeLutItems_unrecognised]
    split <;> rfl

/-- The LUT tables of a well-formed configuration have the 30 bytes of a WRITE_LUT frame (00_scope.md R12). -/
theorem tableFrames_lutLoad {c : Cfg} (hw : c.wf = true) (mode : Byte) : TableFrames c (lutLoadItems c mode) := by
  have hlut : ∀ table : List Byte, table.length = 30 → TableFrames c (cmdItems c.opWriteLut table) := by
    intro table hlen
    rw [← List.append_nil (cmdItems _ _)]
    exact .cmdItems_append .writeLut (by simp [dataCountAllowed, hlen]) rfl (.nil c)
  unfold lutLoadItems
  cases decodeMode c mode with
  | full => exact hlut _ (lutFull_length hw)
  | partialRefresh => exact hlut _ (lutPartial_length hw)
  | unrecognised =>
    have hwarn : TableFrames c [.single (.warn 1)] := fun _ hf => by cases hf
    show TableFrames c (writeLutItems c .unrecognised ++ [.single (.warn 1)])
    rw [writeLutItems_unrecognised]
    split
    · exact .cmdItems_append .writeLut rfl rfl hwarn
    · exact hwarn

theorem tableFrames_init {c : Cfg} (hw : c.wf = true) (mode : Byte) : TableFrames c (initItems c mode) := by
  have hlines : ∀ rest, splitFrames (configureItems ++ (resetItems c ++ rest)) = splitFrames rest := fun _ => rfl
  have hframes : TableFrames c (registerLoadItems c ++ lutLoadItems c mode) :=
    .registerLoad_append (leadingData_lutLoad c mode) (tableFrames_lutLoad hw mode)
  rw [initItems, List.append_assoc, List.append_assoc]
  exact fun f hf => hframes f (hlines _ ▸ hf)

/-- Every frame of every host operation is one of the table (30_encoding.md R120, R125). -/
theorem tableFrames_host {c : Cfg} (hw : c.wf = true) {i : Instr} {op : HostOp} (hi : hostOpOf i = some op) :
    TableFrames c (hostItems c i) := by
  cases i with
  | init mode => exact tableFrames_init hw mode
  | clear => exact tableFrames_frame c _
  | display buf => exact tableFrames_frame c _
  | sleep => exact .cmdItems_append (ds := [c.dDeepSleep]) .deepSleep rfl rfl (.nil c)
  | setWindow xs ys xe ye => exact .setWindow_append _ _ _ _ rfl (.nil c)
  | setCursor x y => exact .setCursor_append _ _ rfl (.nil c)
  | turnonDisplay => exact tableFrames_activation c
  | writeByte _ | writeBytes _ | sendDataInternal _ _ | sendCmd _ | sendData _ | configure | reset | registerLoad
  | lutLoad _ | busyWait | streamFrame _ | driverOutputControl | boosterSoftStart | writeVcom | dummyLinePeriod
  | gateTime | borderWaveform | dataEntryMode | writeLut _ | ramXWindow _ _ | ramYWindow _ _ | ramXCounter _
  | ramYCounter _ | writeRam _ | displayUpdateCtrl2 | masterActivation | terminateFrameRw | deepSleep => cases hi

theorem opByte_mem_opBytes (c : Cfg) (cmd : WireCommand) : opByte c cmd ∈ c.opBytes := by
  cases cmd <;> simp [opByte, Cfg.opBytes]

theorem TableFrames.conform {c : Cfg} {items : List WireItem} (h : TableFrames c items) (hd : c.opsDistinct = true)
    {f : CommandFrame} (hf : f ∈ splitFrames items) : frameConforms c f = true := by
  obtain ⟨cmd, hop, hn⟩ := h f hf
  obtain ⟨op, data⟩ := f
  subst hop
  exact frameConforms_of hd cmd data hn

/-- A command byte among the items begins a frame. -/
theorem exists_frame_of_mem {items : List WireItem} {b : Byte} (h : .framed .cmd b ∈ items) :
    ∃ f ∈ splitFrames items, f.op = b := by
  induction items with
  | nil => cases h
  | cons item rest ih =>
    rcases List.mem_cons.mp h with rfl | h
    · exact ⟨_, List.mem_cons_self, rfl⟩
    · obtain ⟨f, hf, rfl⟩ := ih h
      refine ⟨f, ?_, rfl⟩
      cases item with
      | framed r v =>
        cases r with
        | cmd => exact List.mem_cons_of_mem _ hf
        | data => exact hf
      | single e => exact hf

/-- The frames of the first items have command bytes of the table too, a cut frame among them. -/
theorem TableFrames.op_mem_take {c : Cfg} {items : List WireItem} (h : TableFrames c items) {k : Nat}
    {f : CommandFrame} (hf : f ∈ splitFrames (items.take k)) : f.op ∈ c.opBytes := by
  obtain ⟨f', hf', hop⟩ := exists_frame_of_mem (List.mem_of_mem_take (splitFrames_op hf))
  obtain ⟨cmd, hcmd, -⟩ := h f' hf'
  rw [← hop, hcmd]
  exact opByte_mem_opBytes c cmd

/-! ### The frames of a trace -/

theorem waitItems_not_framed {w : List WireItem} (h : w.all isWaitItem = true) :
    w.all (fun item => !isFramed item) = true := by
  rw [List.all_eq_true] at h ⊢
  intro item hitem
  cases item with
  | framed r v => exact absurd (h _ hitem) (by simp [isWaitItem])
  | single e => rfl

/-- The frames of an operation whose planned events were all performed, whatever its wait. -/
theorem splitFrames_waited (c : Cfg) (i : Instr) {w : List WireItem} (hw : w.all isWaitItem = true) :
    splitFrames (decodeTrace (eventsOf (hostItems c i) ++ eventsOf w)) = splitFrames (hostItems c i) := by
  rw [← eventsOf_append, decodeTrace_host c i w hw, splitFrames_singles _ (waitItems_not_framed hw)]

/-- The frames of an operation that was cut off at a write are those of the items it sent whole (log entry 18). -/
theorem splitFrames_cut (c : Cfg) (i : Instr) {pre post tail : List Event}
    (he : eventsOf (hostItems c i) = pre ++ post) (ht : tail = [] ∨ ∃ l v, tail = [.f l v]) :
    ∃ k, splitFrames (decodeTrace (pre ++ tail)) = splitFrames ((hostItems c i).take k) := by
  have hread : readable true (hostItems c i) = true := by simpa using hostItems_readable c i [] rfl
  obtain ⟨k, cut, hdec, hcut⟩ := decodeFrom_cut _ true pre post tail hread he ht
  exact ⟨k, by rw [decodeTrace, hdec, splitFrames_singles _ hcut]⟩

theorem timeoutItems_waitItems (c : Cfg) : (timeoutItems c).all isWaitItem = true := by
  rw [timeoutItems, pollWaitItems_eq, List.all_append, busyTurns_waitItems]
  rfl

/-- The frames in the trace of a host operation: those of its first items, and where it returned Ok those of all. -/
theorem host_frames {i : Instr} {op : HostOp} {s t : State} (hi : hostOpOf i = some op)
    (h : exec i s = .next t ∨ exec i s = .fault (.gpioNeverReturns t)) :
    ∃ es, t.trace = s.trace ++ es ∧
      (∃ k, splitFrames (decodeTrace es) = splitFrames ((hostItems s.cfg i).take k)) ∧
      (∀ r, t.host.revResults = r :: s.host.revResults → r.raised = none →
        splitFrames (decodeTrace es) = splitFrames (hostItems s.cfg i)) := by
  have waited : ∀ w : List WireItem, w.all isWaitItem = true →
      ∃ k, splitFrames (decodeTrace (eventsOf (hostItems s.cfg i) ++ eventsOf w))
        = splitFrames ((hostItems s.cfg i).take k) := fun w hw =>
    ⟨(hostItems s.cfg i).length, by rw [splitFrames_waited s.cfg i hw, List.take_length]⟩
  rcases h with h | h
  · cases hostAnswer hi h with
    | ok w d hwait ha =>
      have hw := waitTail_waitItems hwait
      exact ⟨_, hostOk_trace .., waited w hw, fun _ _ _ => splitFrames_waited s.cfg i hw⟩
    | writeFails pre l v post d he ha hf =>
      refine ⟨_, (hostErr_trace ..).trans (emit_trace ..), splitFrames_cut s.cfg i he (.inr ⟨l, v, rfl⟩), ?_⟩
      intro r hres hok; cases hres; cases hok
    | timeout d hop hpol hwait ha =>
      refine ⟨_, (hostErr_trace ..).trans (emit_trace ..), waited _ (timeoutItems_waitItems _), ?_⟩
      intro r hres hok; cases hres; cases hok
    | readFails k d hop hpol hk hb ha hf =>
      refine ⟨_, (hostErr_trace ..).trans (emit_trace ..), waited _ (busyTurns_waitItems _ _), ?_⟩
      intro r hres hok; cases hres; cases hok
  · obtain ⟨pre, d, p, -, hstuck, rfl⟩ := hostWaits hi h
    refine ⟨pre, emit_trace pre (startOp op s), ?_, fun r hres _ => absurd hres.symm (List.cons_ne_self _ _)⟩
    cases hstuck with
    | write _ l v post he ha hf =>
      obtain ⟨k, hk⟩ := splitFrames_cut s.cfg i he (.inl rfl)
      exact ⟨k, by rwa [List.append_nil] at hk⟩
    | read k hop hpol hk hb ha hf => exact waited _ (busyTurns_waitItems _ _)

/-- Settles O55: the frames of a trace are those of the items sent whole (`host_frames`), and the operation's items hold
frames of the table only (`tableFrames_host`); of the first items all frames but the last are whole (30_encoding.md
R120, R125; log entry 18). -/
theorem framesConformToTheTable : Obligations.FramesConformToTheTable := by
  intro i op s t hi h
  have htable : TableFrames s.cfg (hostItems s.cfg i) := tableFrames_host (wf_of_exec h) hi
  obtain ⟨es, htrace, ⟨k, hk⟩, hok⟩ := host_frames hi h
  refine ⟨es, htrace, fun f hf => htable.op_mem_take (hk ▸ hf), fun hd => ⟨?_, ?_⟩⟩
  · intro f hf
    rw [hk] at hf
    have hwhole := splitFrames_dropLast _ ((hostItems s.cfg i).drop k) f hf
    rw [List.take_append_drop] at hwhole
    exact htable.conform hd hwhole
  · intro r hres hnone f hf
    exact htable.conform hd (hok r hres hnone ▸ hf)

end Sys2Proof.Machine
end

section
/-! PROOFS. Host programs written as text, and the pseudo-operation CLEAR (30_encoding.md R130, R131). -/

namespace Sys2Proof.Machine

/-! ### CLEAR and a DISPLAY of ones -/

/-- The CLEAR and the DISPLAY of BW HEIGHT bytes of 0xFF that R131(a) compares. -/
inductive ClearOrOnes (c : Cfg) : Instr → HostOp → Prop
  | clear : ClearOrOnes c .clear .clear
  | ones : ClearOrOnes c (.display (List.replicate (byteWidth c * c.height) 0xFF)) .display

section
variable {c : Cfg} {i j : Instr} {op op' : HostOp}

theorem ClearOrOnes.hostOp (h : ClearOrOnes c i op) : hostOpOf i = some op := by cases h <;> rfl
theorem ClearOrOnes.waits (h : ClearOrOnes c i op) : waitsAtEnd op = true := by cases h <;> rfl
theorem ClearOrOnes.not_init (h : ClearOrOnes c i op) : op ≠ .init := by cases h <;> decide

theorem ClearOrOnes.items (h : ClearOrOnes c i op) : hostItems c i = frameItems c .const := by
  cases h with
  | clear => rfl
  | ones => exact frameItems_ones c

theorem ClearOrOnes.hostOk_eq {s : State} (hi : ClearOrOnes s.cfg i op) (hj : ClearOrOnes s.cfg j op')
    (es : List Event) (d d' : Datapath) : hostOk j op' es d' s = { hostOk i op es d s with dp := d' } := by
  cases hi <;> cases hj <;> rfl

theorem ClearOrOnes.hostErr_eq (hi : ClearOrOnes c i op) (hj : ClearOrOnes c j op') (e : Raise) (d d' : Datapath)
    (t s : State) : hostErr j op' e d' t s = { hostErr i op e d t s with dp := d' } := by
  cases hi <;> cases hj <;> rfl

/-- One answers as the other, up to the scratch registers. -/
theorem ClearOrOnes.sameAnswer {s t : State} (hi : ClearOrOnes s.cfg i op) (hj : ClearOrOnes s.cfg j op')
    (h : exec i s = .next t) : ∃ d, exec j s = .next { t with dp := d } := by
  have hw := wf_of_exec (.inl h)
  have hitems : hostItems s.cfg i = hostItems s.cfg j := hi.items.trans hj.items.symm
  have hwaits : waitsAtEnd op = waitsAtEnd op' := hi.waits.trans hj.waits.symm
  cases hostAnswer hi.hostOp h with
  | ok w d hwait ha =>
    rw [hitems] at ha ⊢
    obtain ⟨d', h'⟩ := host_ok hj.hostOp hw (hwaits ▸ hwait) ha
    exact ⟨d', h'.trans (congrArg _ (hi.hostOk_eq hj _ d d'))⟩
  | writeFails pre l v post d he ha hf =>
    obtain ⟨d', h'⟩ := host_writeFails hj.hostOp hw (hitems ▸ he) ha hf
    exact ⟨d', h'.trans (congrArg _ (hi.hostErr_eq hj _ d d' _ _))⟩
  | timeout d hop hpol hwait ha =>
    rw [hitems] at ha ⊢
    obtain ⟨d', h'⟩ := host_timeout hj.hostOp hj.waits hw hwait ha
    exact ⟨d', h'.trans (congrArg _ (hi.hostErr_eq hj _ d d' _ _))⟩
  | readFails k d hop hpol hk hb ha hf =>
    rw [hitems] at ha hf ⊢
    obtain ⟨d', h'⟩ := host_readFails hj.hostOp hj.waits hw hpol hk hb ha hf
    exact ⟨d', h'.trans (congrArg _ (hi.hostErr_eq hj _ d d' _ _))⟩

/-- One waits for ever where the other does. -/
theorem ClearOrOnes.sameStuck {s : State} {pre : List Event} (hi : ClearOrOnes s.cfg i op)
    (hj : ClearOrOnes s.cfg j op') (h : HostStuck i op s pre) : HostStuck j op' s pre := by
  have hitems : hostItems s.cfg i = hostItems s.cfg j := hi.items.trans hj.items.symm
  cases h with
  | write _ l v post he ha hf => exact .write pre l v post (hitems ▸ he) ha hf
  | read k hop hpol hk hb ha hf =>
    rw [hitems] at ha hf ⊢
    exact .read k hj.waits hpol hk hb ha hf

/-- The state in which one of them waits for ever: of its own it has the scratch registers and the position. -/
theorem ClearOrOnes.exec_stuck {s : State} {pre : List Event} (hi : ClearOrOnes s.cfg i op) (hw : s.cfg.wf = true)
    (h : HostStuck i op s pre) : ∃ d, exec i s = .fault (.gpioNeverReturns
      { emit pre (startOp .clear s) with dp := d, pos := .running op pre.length }) := by
  obtain ⟨d, p, hp, hexec⟩ := host_stuck hi.hostOp hw h
  obtain rfl : p = s.ghost.pstate := hp.resolve_left hi.not_init
  refine ⟨d, hexec.trans ?_⟩
  rw [← Nat.zero_add pre.length]
  cases hi <;> rfl

/-- One waits for ever in the state in which the other does, but for the scratch registers and the operation. -/
theorem ClearOrOnes.sameWait {s b : State} (hi : ClearOrOnes s.cfg i op) (hj : ClearOrOnes s.cfg j op')
    (h : exec i s = .fault (.gpioNeverReturns b)) : ∃ d n, b.pos = .running op n ∧
      exec j s = .fault (.gpioNeverReturns { b with dp := d, pos := .running op' n }) := by
  have hw := wf_of_exec (.inr h)
  obtain ⟨pre, -, -, -, hstuck, -⟩ := hostWaits hi.hostOp h
  obtain ⟨d, hexec⟩ := hi.exec_stuck hw hstuck
  obtain ⟨d', hexec'⟩ := hj.exec_stuck hw (hi.sameStuck hj hstuck)
  rw [h] at hexec
  cases hexec
  exact ⟨d', pre.length, rfl, hexec'⟩

end

/-- Settles O58: the two send the same items (`frameItems_ones`), so the same draws decide both, and their states differ
in scratch registers and in the position's operation only (30_encoding.md R131(a); log entry 2). -/
theorem clearEqualsDisplayOnes : Obligations.ClearEqualsDisplayOnes := by
  intro s
  have hclear : ClearOrOnes s.cfg _ _ := .clear
  have hones : ClearOrOnes s.cfg _ _ := .ones
  exact ⟨fun _ => hclear.sameAnswer hones, fun _ => hones.sameAnswer hclear, fun _ => hclear.sameWait hones,
    fun _ => hones.sameWait hclear⟩

/-! ### The assembler -/

theorem spaceOf_hostOp {i : Instr} {op : HostOp} (hi : hostOpOf i = some op) : spaceOf i = .host := by
  cases i <;> cases hi <;> rfl

/-- Lines that are all read as instructions are read together. -/
theorem exists_forall₂_readLine {c : Cfg} {buffers : List NamedBuffer} {lines : List (List Char)}
    (h : ∀ line ∈ lines, ∃ i, readLine c buffers line = some i) :
    ∃ is, List.Forall₂ (fun line i => readLine c buffers line = some i) lines is := by
  induction lines with
  | nil => exact ⟨[], .nil⟩
  | cons line lines ih =>
    rw [List.forall_mem_cons] at h
    obtain ⟨⟨i, hi⟩, hrest⟩ := h
    obtain ⟨is, his⟩ := ih hrest
    exact ⟨i :: is, .cons hi his⟩

/-- An entry of an assembled program is the word of the instruction read from its line. -/
theorem assemble_entry {c : Cfg} {buffers : List NamedBuffer} {text line : List Char} {program : List Issue}
    {k : Nat} {is : Issue} (h : assemble c buffers text = some program)
    (hline : (operationLines text)[k]? = some line) (hentry : program[k]? = some is) :
    ∃ i, readLine c buffers line = some i ∧ is = { space := spaceOf i, word := encode i } := by
  obtain ⟨instrs, hread, rfl⟩ := (assemble_iff c buffers text program).mp h
  rw [List.getElem?_map, Option.map_eq_some_iff] at hentry
  obtain ⟨i, hi, rfl⟩ := hentry
  obtain ⟨hk, rfl⟩ := List.getElem?_eq_some_iff.mp hline
  obtain ⟨hk', rfl⟩ := List.getElem?_eq_some_iff.mp hi
  exact ⟨_, hread.get hk hk', rfl⟩

/-- Settles O9: an entry is the word of the instruction that its line is read as (`assemble_entry`); it decodes to that
instruction (`decodeOfEncodeIsIdentity`), which the line names (`lineNames_of_readLine`; 30_encoding.md R130; log
entry 19). -/
theorem assembledProgramsAreHostPrograms : Obligations.AssembledProgramsAreHostPrograms := by
  intro c buffers text
  refine ⟨fun program hb h => ⟨?_, ?_⟩, fun hnamed => ?_⟩
  · obtain ⟨instrs, hread, rfl⟩ := (assemble_iff c buffers text program).mp h
    rw [List.length_map, hread.length_eq]
  · intro k line is hline hentry
    obtain ⟨i, hread, rfl⟩ := assemble_entry h hline hentry
    obtain ⟨op, hop, hwf⟩ := readLine_wellFormed hb hread
    have hspace := spaceOf_hostOp hop
    exact ⟨hspace, i, op, hspace ▸ decodeOfEncodeIsIdentity c i hwf, hop, hwf, lineNames_of_readLine hread⟩
  · have hread : ∀ line ∈ operationLines text, ∃ i, readLine c buffers line = some i := by
      intro line hline
      obtain ⟨_, hi⟩ := hnamed line hline
      exact readLine_of_lineNames hi
    obtain ⟨instrs, hinstrs⟩ := exists_forall₂_readLine hread
    exact ⟨_, (assemble_iff c buffers text _).mpr ⟨instrs, hinstrs, rfl⟩⟩

end Sys2Proof.Machine
end

section
/-! PROOFS. The transport (40_transport.md): what WRITE_BYTE and WRITE_BYTES complete with, the waveform of a byte, and the
state in which the block waits at an access that never returns. -/

namespace Sys2Proof.Machine

/-! ### The transport operations with no failing access -/

/-- Settles O15: both operations play their bytes (`inner_plain`), 26 accesses each (`accesses_transportBytes`), and write
neither ghost state nor status (40_transport.md R146, R147). -/
theorem transportCompletes : Obligations.TransportCompletes := by
  refine ⟨fun v s hw ha => ?_, fun bytes s hw ha => ?_⟩
  · exact inner_plain (i := .writeByte v) rfl rfl hw ha
  · rw [← accesses_transportBytes] at ha
    exact inner_plain (i := .writeBytes bytes) rfl rfl hw ha

/-! ### DIN at the rising edges of CLK -/

theorem dinAtRises_append (as bs : List Event) (ls : Lines) :
    dinAtRises ls (as ++ bs) = dinAtRises ls as ++ dinAtRises (linesAfter ls as) bs := by
  induction as generalizing ls with
  | nil => rfl
  | cons a as ih => simp only [List.cons_append, dinAtRises, ih, linesAfter_cons, List.append_assoc]

/-- A bit slot has one rising edge, at which DIN holds its bit (30_encoding.md R100). -/
theorem dinAtRises_bitSlot (b : Bool) {ls : Lines} (h : ls.clk ≠ .high) :
    dinAtRises ls (bitSlot b) = [(bitLevel b).toLine] := by
  simp [bitSlot, dinAtRises, lineEffect, setLine, h]

theorem linesAfter_bitSlot_clk (b : Bool) (ls : Lines) : (linesAfter ls (bitSlot b)).clk = .low := rfl

/-- Each bit slot ends with CLK Low, so the next one has its rising edge too. -/
theorem dinAtRises_bitSlots (bit : Nat → Bool) (js : List Nat) {ls : Lines} (h : ls.clk ≠ .high) :
    dinAtRises ls (js.flatMap fun j => bitSlot (bit j)) = js.map fun j => (bitLevel (bit j)).toLine := by
  induction js generalizing ls with
  | nil => rfl
  | cons j js ih =>
    have hlow : (linesAfter ls (bitSlot (bit j))).clk ≠ .high := by simp [linesAfter_bitSlot_clk]
    rw [List.flatMap_cons, dinAtRises_append, dinAtRises_bitSlot _ h, ih hlow]
    rfl

/-- The 8 rising edges of a WRITE_BYTE find the bits of its byte on DIN, most significant first (40_transport.md R148). -/
theorem dinAtRises_transportByte (v : Byte) {ls : Lines} (h : ls.clk ≠ .high) : dinAtRises ls (transportByte v)
    = (List.range 8).map fun j => if v.getLsbD (7 - j) then .high else .low := by
  have hselect : (lineEffect ls (.w .cs .low)).clk ≠ .high := h
  have hslots := dinAtRises_bitSlots (fun j => v.getLsbD (7 - j)) (List.range 8) hselect
  simp only [bitLevel_toLine] at hslots
  calc dinAtRises ls (transportByte v)
      = dinAtRises (lineEffect ls (.w .cs .low)) (byteSlots v ++ [.w .cs .high]) := rfl
    _ = dinAtRises (lineEffect ls (.w .cs .low)) (byteSlots v) ++ [] := dinAtRises_append _ _ _
    _ = _ := (List.append_nil _).trans hslots

/-- Settles O16: WRITE_BYTE performs `transportByte`; its bit slots give DIN at the edges (`dinAtRises_transportByte`), and
its 26 writes, written out in `transportByte_eq`, show CS and the last level of CLK (40_transport.md R148). -/
theorem writeByteWaveform : Obligations.WriteByteWaveform := by
  intro v s hw ha hclk
  obtain ⟨d, h⟩ := inner_plain (i := .writeByte v) rfl rfl hw ha
  exact ⟨_, transportByte v, h, emit_trace _ s, dinAtRises_transportByte v hclk, rfl, rfl, rfl, rfl⟩

/-! ### An access that never returns -/

/-- Where a host operation waits for ever it has performed the events before the access and stands at that event, and the
host is as before (40_transport.md R145; log entry 2). -/
theorem HostStuck.waitingState {i : Instr} {op : HostOp} {s : State} {pre : List Event} (h : HostStuck i op s pre)
    (hi : hostOpOf i = some op) (hw : s.cfg.wf = true) :
    ∃ b, exec i s = .fault (.gpioNeverReturns b) ∧ b.trace = s.trace ++ pre ∧ b.lines = linesAfter s.lines pre ∧
      b.pos = .running op pre.length ∧ b.host = s.host := by
  obtain ⟨d, p, -, hexec⟩ := host_stuck hi hw h
  have hpos : advanceBy pre.length (.running op 0) = .running op pre.length := by simp [advanceBy]
  exact ⟨_, hexec, emit_trace pre _, rfl, hpos, rfl⟩

/-- Settles O39: a write or a read that never returns is a `HostStuck`, and `HostStuck.waitingState` says where the block
then stands; the turns of a busy wait before a read touch no line (60_exceptions.md R308; log entry 2). -/
theorem neverReturningAccessIsStuck : Obligations.NeverReturningAccessIsStuck := by
  intro i op s hi hw
  refine ⟨fun pre post l v he ha hf => ?_, fun k hop hpol hk hb ha hf => ?_⟩
  · exact (HostStuck.write pre l v post he ha hf).waitingState hi hw
  · obtain ⟨b, hexec, htrace, hlines, hpos, hhost⟩ := (HostStuck.read k hop hpol hk hb ha hf).waitingState hi hw
    rw [linesAfter_append, linesAfter_wait _ _ (eventsOf_busyTurns_wait _ k)] at hlines
    rw [eventsOf_append]
    exact ⟨b, hexec, htrace, hlines, hpos, hhost⟩

end Sys2Proof.Machine
end

section
/-! PROOFS. The framer (41_framer.md): what its operations complete with, the contract of a framed byte, and DC at the
rising edges of CLK. -/

namespace Sys2Proof.Machine

/-! ### The framer operations with no failing access -/

theorem sendCmd_completes (v : Byte) {s : State} (hw : s.cfg.wf = true) (ha : answersOk 30 s.env.gpio = true) :
    ∃ d, exec (.sendCmd v) s = .next { emit (framedByte .cmd v) s with dp := d } :=
  inner_plain (i := .sendCmd v) rfl rfl hw ha

theorem sendData_completes (v : Byte) {s : State} (hw : s.cfg.wf = true) (ha : answersOk 30 s.env.gpio = true) :
    ∃ d, exec (.sendData v) s = .next { emit (framedByte .data v) s with dp := d } :=
  inner_plain (i := .sendData v) rfl rfl hw ha

/-- Settles O17: each operation plays one framed byte of its role, 30 accesses (`inner_plain`), and writes neither ghost
state nor status (41_framer.md R161 to R163). -/
theorem framedBytesComplete : Obligations.FramedBytesComplete := by
  intro v s hw ha
  refine ⟨fun isCommand => ?_, sendCmd_completes v hw ha, sendData_completes v hw ha⟩
  exact inner_plain (i := .sendDataInternal v isCommand) rfl rfl hw ha

/-! ### The contract of a framed byte -/

/-- Settles O19: both roles send a framed byte, and `framedByte_cons` splits off the one DC write in which they differ; CS
is that of any framed byte (`csChanges_framedByte`, `csAtRises_framedByte`; 41_framer.md R165). -/
theorem framedByteContract : Obligations.FramedByteContract := by
  intro v s hw ha hclk
  obtain ⟨_, hcmd⟩ := sendCmd_completes v hw ha
  obtain ⟨_, hdata⟩ := sendData_completes v hw ha
  refine ⟨_, _, .w .dc .low :: .w .cs .low :: (transportByte v ++ [.w .cs .high]), hcmd, hdata, ?_⟩
  have hcmdBytes := framedByte_cons .cmd v
  have hdataBytes := framedByte_cons .data v
  simp only [roleLevel] at hcmdBytes hdataBytes
  rw [← hcmdBytes, ← hdataBytes]
  exact ⟨emit_trace _ s, emit_trace _ s, csChanges_framedByte .cmd v _, csChanges_framedByte .data v _,
    csAtRises_framedByte .cmd v _ hclk, csAtRises_framedByte .data v _ hclk⟩

/-! ### DC at the rising edges of CLK -/

/-- Settles O20: an instruction performs its planned events up to a failure or a wait (`exec_follows`); these are plain
items (`plannedEvents_items`), whose framed bytes force DC Low before their clocks and whose single events raise no CLK
(`items_dcLow`; 41_framer.md R160; 70_reset_and_hazards.md R356). -/
theorem dcLowAtEveryClock : Obligations.DcLowAtEveryClock := by
  intro i s t hbyte hbytes h
  obtain ⟨es, hperf, follows⟩ := exec_follows h
  obtain ⟨items, hplan, hplain⟩ := plannedEvents_items s.cfg i hbyte hbytes
  have hplanned : dcLowAtClocks s.lines (plannedEvents s.cfg i) = true := hplan ▸ items_dcLow items s.lines hplain
  exact ⟨es, follows.trace, dcLowAtClocks_performed hplanned hperf⟩

end Sys2Proof.Machine
end

section
/-! PROOFS. The command frames (42_wire_commands.md R180 to R196): each completes when its own accesses succeed. -/

namespace Sys2Proof.Machine

/-! ### A frame whose accesses succeed, and the seven register frames -/

/-- A micro-operation or frame whose events are those of `CMD op: ds` has 30 accesses for each framed byte; when they succeed
it completes with these events (30_encoding.md R101, R102). -/
theorem cmdFrame_completes {i : Instr} {op : Byte} {ds : List Byte} {s : State} (hi : hostOpOf i = none)
    (hwt : innerWaits i = false) (he : innerEvents s.cfg i = eventsOf (cmdItems op ds)) (hw : s.cfg.wf = true)
    (ha : answersOk (30 * (1 + ds.length)) s.env.gpio = true) :
    ∃ d, exec i s = .next { emit (eventsOf (cmdItems op ds)) s with
      dp := d, ghost := innerGhost s.cfg i s.ghost, status := innerStatus s.cfg i s.status } := by
  rw [← accesses_cmdItems op ds, ← he] at ha
  rw [← he]
  exact inner_plain hi hwt hw ha

/-- A frame without data bytes is its command byte (30_encoding.md R102). -/
theorem eventsOf_cmdItems_nil (op : Byte) : eventsOf (cmdItems op []) = framedByte .cmd op :=
  List.append_nil _

/-- Settles O22: the events of each register frame are those of its items, three or one data byte after the command byte,
and no frame writes ghost state or status (`cmdFrame_completes`; 42_wire_commands.md R180 to R186). -/
theorem registerFramesComplete : Obligations.RegisterFramesComplete := by
  intro s hw
  refine ⟨?driverOutputControl, ?boosterSoftStart, ?writeVcom, ?dummyLinePeriod, ?gateTime, ?borderWaveform,
    ?dataEntryMode⟩
  case driverOutputControl => exact cmdFrame_completes (i := .driverOutputControl) rfl rfl rfl hw
  case boosterSoftStart => exact cmdFrame_completes (i := .boosterSoftStart) rfl rfl rfl hw
  case writeVcom => exact cmdFrame_completes (i := .writeVcom) rfl rfl rfl hw
  case dummyLinePeriod => exact cmdFrame_completes (i := .dummyLinePeriod) rfl rfl rfl hw
  case gateTime => exact cmdFrame_completes (i := .gateTime) rfl rfl rfl hw
  case borderWaveform => exact cmdFrame_completes (i := .borderWaveform) rfl rfl rfl hw
  case dataEntryMode => exact cmdFrame_completes (i := .dataEntryMode) rfl rfl rfl hw

/-! ### WRITE_LUT -/

/-- Settles O23: a table has 30 bytes in a well-formed configuration (`lutFull_length`, `lutPartial_length`), so its frame has
31 framed bytes; for an unrecognised mode the configuration's flag decides between the command byte and no event
(`writeLutItems_unrecognised`; 42_wire_commands.md R187). -/
theorem lutFrameCompletes : Obligations.LutFrameCompletes := by
  intro s hw
  refine ⟨fun ha => ?full, fun ha => ?partialRefresh, fun hsends ha => ?commandAlone, fun hsilent => ?nothing⟩
  case full =>
    exact cmdFrame_completes (i := .writeLut .full) rfl rfl rfl hw (by rwa [lutFull_length hw])
  case partialRefresh =>
    exact cmdFrame_completes (i := .writeLut .partialRefresh) rfl rfl rfl hw (by rwa [lutPartial_length hw])
  case commandAlone =>
    have he : innerEvents s.cfg (.writeLut .unrecognised) = eventsOf (cmdItems s.cfg.opWriteLut []) := by
      rw [innerEvents, writeLutItems_unrecognised, if_pos hsends]
    rw [← eventsOf_cmdItems_nil]
    exact cmdFrame_completes rfl rfl he hw ha
  case nothing =>
    have he : innerEvents s.cfg (.writeLut .unrecognised) = [] := by
      rw [innerEvents, writeLutItems_unrecognised, hsilent]
      rfl
    obtain ⟨d, h⟩ := inner_plain (i := .writeLut .unrecognised) rfl rfl hw (by rw [he]; rfl)
    rw [he, emit_nil] at h
    exact ⟨d, h⟩

/-! ### Windows and cursors -/

/-- Settles O24: a coordinate goes out as the byte column or the two bytes, low first, that `innerEvents` lists for each of
the four frames, whatever its 16 bits (`cmdFrame_completes`; 42_wire_commands.md R188 to R191; 30_encoding.md R110, R111). -/
theorem addressFramesComplete : Obligations.AddressFramesComplete := by
  intro a b s hw
  refine ⟨?ramXWindow, ?ramYWindow, ?ramXCounter, ?ramYCounter⟩
  case ramXWindow => exact cmdFrame_completes (i := .ramXWindow a b) rfl rfl rfl hw
  case ramYWindow => exact cmdFrame_completes (i := .ramYWindow a b) rfl rfl rfl hw
  case ramXCounter => exact cmdFrame_completes (i := .ramXCounter a) rfl rfl rfl hw
  case ramYCounter => exact cmdFrame_completes (i := .ramYCounter a) rfl rfl rfl hw

/-! ### WRITE_RAM and the control frames -/

/-- Settles O25: WRITE_RAM takes rows of every length; MASTER_ACTIVATION is a frame without data bytes
(`eventsOf_cmdItems_nil`), and TERMINATE_FRAME_RW is one framed byte of the configured role, which need not be a command
(42_wire_commands.md R192 to R196). -/
theorem ramAndControlFramesComplete : Obligations.RamAndControlFramesComplete := by
  intro s hw
  refine ⟨fun bytes => ?writeRam, ?displayUpdateCtrl2, ?masterActivation, ?terminateFrameRw, ?deepSleep⟩
  case writeRam => exact cmdFrame_completes (i := .writeRam bytes) rfl rfl rfl hw
  case displayUpdateCtrl2 => exact cmdFrame_completes (i := .displayUpdateCtrl2) rfl rfl rfl hw
  case masterActivation =>
    rw [← eventsOf_cmdItems_nil]
    exact cmdFrame_completes (i := .masterActivation) rfl rfl rfl hw
  case terminateFrameRw => exact inner_plain (i := .terminateFrameRw) rfl rfl hw
  case deepSleep => exact cmdFrame_completes (i := .deepSleep) rfl rfl rfl hw

end Sys2Proof.Machine
end

section
/-! PROOFS. The sequencer (43_sequencer.md): what its micro-operations and its host operations complete with, the table of
PSTATE, what the events of an operation depend on, and how often a busy wait reads BUSY. -/

namespace Sys2Proof.Machine

/-! ### CONFIGURE, RESET and REGISTER_LOAD -/

/-- Settles O26: CONFIGURE plays its two writes and then writes PSTATE (`inner_plain`; 43_sequencer.md R220). -/
theorem configureCompletes : Obligations.ConfigureCompletes := by
  intro s hw ha
  exact inner_plain (i := .configure) rfl rfl hw ha

/-- The three delays of a RESET last at least their minimum (40_transport.md R144; 43_sequencer.md R222). -/
theorem delayedMs_resetItems_ge (c : Cfg) (late : Draws Nat) :
    3 * c.tResetMs ≤ delayedMs late (eventsOf (resetItems c)) := by
  simp only [resetItems, eventsOf_cons, eventsOf_nil, itemEvents, List.cons_append, List.nil_append, delayedMs]
  omega

/-- Settles O27: RESET plays `resetItems` (`inner_plain`), whose three delays take at least 3 T_RESET_MS
(`delayedMs_resetItems_ge`), and T_RESET_MS is at least 200 in a well-formed configuration (43_sequencer.md R222). -/
theorem resetPulsesTheController : Obligations.ResetPulsesTheController := by
  intro s hw ha
  obtain ⟨d, h⟩ := inner_plain (i := .reset) rfl rfl hw ha
  have hdelays := delayedMs_resetItems_ge s.cfg s.env.late
  have hms := tResetMs_ge hw
  exact ⟨d, _, h, rfl, Nat.add_le_add_left hdelays _, by omega⟩

theorem accesses_registerLoad (c : Cfg) : accesses (innerEvents c .registerLoad) = 540 :=
  accesses_framedItems _ (registerLoadItems_framed c)

/-- Settles O28: REGISTER_LOAD plays its seven frames, 540 accesses, and then writes PSTATE (`inner_plain`; 43_sequencer.md
R223, R224). -/
theorem registerLoadCompletes : Obligations.RegisterLoadCompletes := by
  intro s hw ha
  obtain ⟨d, h⟩ := inner_plain (i := .registerLoad) rfl rfl hw (accesses_registerLoad s.cfg ▸ ha)
  refine ⟨d, h.trans ?_⟩
  simp only [innerEvents, registerLoadItems, heightOperand, innerGhost, innerStatus, emit_status]

/-! ### LUT_LOAD -/

theorem decodeMode_modeFull (c : Cfg) : decodeMode c c.modeFull = .full := if_pos rfl

theorem decodeMode_modePartial {c : Cfg} (h : c.modePartial ≠ c.modeFull) :
    decodeMode c c.modePartial = .partialRefresh := by
  rw [decodeMode, if_neg h, if_pos rfl]

/-- LUT_LOAD of a recognised mode sends its table and sets LUT_OK (43_sequencer.md R225). -/
theorem lutLoad_recognised {mode : Byte} {table : List Byte} {s : State} (hw : s.cfg.wf = true)
    (hm : decodeMode s.cfg mode ≠ .unrecognised)
    (he : lutLoadItems s.cfg mode = cmdItems s.cfg.opWriteLut table) (hlen : table.length = 30)
    (ha : answersOk 930 s.env.gpio = true) :
    ∃ d, exec (.lutLoad mode) s = .next { emit (eventsOf (cmdItems s.cfg.opWriteLut table)) s with
      dp := d, ghost := { s.ghost with pstate := .lutLoaded, lutOk := true } } := by
  obtain ⟨d, h⟩ := cmdFrame_completes (i := .lutLoad mode) rfl rfl (congrArg eventsOf he) hw (by rwa [hlen])
  simp only [innerGhost, innerStatus, if_neg hm] at h
  exact ⟨d, h⟩

/-- LUT_LOAD of an unrecognised mode sends at most the command byte, warns, and leaves LUT_OK (43_sequencer.md R226). -/
theorem lutLoad_unrecognised {mode : Byte} {s : State} (hw : s.cfg.wf = true)
    (hm : decodeMode s.cfg mode = .unrecognised)
    (ha : answersOk (if s.cfg.invalidModeSendsLutCmd then 30 else 0) s.env.gpio = true) :
    ∃ d, exec (.lutLoad mode) s = .next
      { emit ((if s.cfg.invalidModeSendsLutCmd then framedByte .cmd s.cfg.opWriteLut else []) ++ [.warn 1]) s with
        dp := d, ghost := { s.ghost with pstate := .lutLoaded }, status := { s.status with warn := 1 } } := by
  have he : innerEvents s.cfg (.lutLoad mode)
      = (if s.cfg.invalidModeSendsLutCmd then framedByte .cmd s.cfg.opWriteLut else []) ++ [.warn 1] := by
    rw [innerEvents, lutLoadItems, hm, eventsOf_append, writeLutItems_unrecognised]
    cases s.cfg.invalidModeSendsLutCmd <;> rfl
  have hcount : accesses (innerEvents s.cfg (.lutLoad mode)) = if s.cfg.invalidModeSendsLutCmd then 30 else 0 := by
    rw [he]
    cases s.cfg.invalidModeSendsLutCmd <;> rfl
  obtain ⟨d, h⟩ := inner_plain (i := .lutLoad mode) rfl rfl hw (hcount ▸ ha)
  simp only [he, innerGhost, innerStatus, if_pos hm] at h
  exact ⟨d, h⟩

/-- Settles O29: by what the mode decodes to; a table has 30 bytes in a well-formed configuration (`lutLoad_recognised`,
`lutLoad_unrecognised`; 43_sequencer.md R225, R226; log entry 24). -/
theorem lutLoadCompletes : Obligations.LutLoadCompletes := by
  intro mode s hw
  refine ⟨?full, ?partialRefresh, fun hf hp ha => ?unrecognised⟩
  case full =>
    rintro rfl ha
    have hm := decodeMode_modeFull s.cfg
    exact lutLoad_recognised hw (by simp [hm]) (by rw [lutLoadItems, hm]; rfl) (lutFull_length hw) ha
  case partialRefresh =>
    rintro hf rfl ha
    have hm := decodeMode_modePartial hf
    exact lutLoad_recognised hw (by simp [hm]) (by rw [lutLoadItems, hm]; rfl) (lutPartial_length hw) ha
  case unrecognised =>
    exact lutLoad_unrecognised hw ((decodeMode_eq_unrecognised_iff s.cfg mode).mpr ⟨hf, hp⟩) ha

/-! ### BUSY_WAIT -/

/-- A BUSY_WAIT run alone, whose wait ends. -/
theorem busyWait_completes {s : State} {w : List WireItem} (hw : s.cfg.wf = true)
    (hwait : waitItems s.cfg s.env.busy = some w) (ha : answersOk (accesses (eventsOf w)) s.env.gpio = true) :
    ∃ d, exec .busyWait s = .next { emit (eventsOf w) s with dp := d } :=
  inner_ok (i := .busyWait) rfl hw hwait (by rwa [innerEvents, accesses_nil, Nat.zero_add])

theorem waitItems_fixedDelay {c : Cfg} (h : c.busyPolicy = .fixedDelay) (busy : Draws Level) :
    waitItems c busy = some (fixedWaitItems c) := by
  rw [waitItems, h]

theorem waitItems_poll {c : Cfg} (h : c.busyPolicy = .poll) (busy : Draws Level) :
    waitItems c busy = (firstIdle c.busyActiveLevel (pollBound c) busy).map fun p => pollWaitItems c p.1 p.2 := by
  rw [waitItems, h]

/-- Settles O30: under each policy the premises say which items the wait has (`waitItems_fixedDelay`; `waitItems_poll` with
`firstIdle_eq`), and with them it completes (`busyWait_completes`; 43_sequencer.md R237). -/
theorem busyWaitCompletes : Obligations.BusyWaitCompletes := by
  refine ⟨fun s hw hpol => ?fixedDelay, fun s k hw hpol hk hb hidle ha => ?poll⟩
  case fixedDelay => exact busyWait_completes hw (waitItems_fixedDelay hpol _) rfl
  case poll =>
    have hwait : waitItems s.cfg s.env.busy = some (pollWaitItems s.cfg k (nextDraw (drawsAfter k s.env.busy))) := by
      rw [waitItems_poll hpol, firstIdle_eq hk hb hidle]
      rfl
    obtain ⟨d, h⟩ := busyWait_completes hw hwait (by rwa [accesses_pollWaitItems])
    rw [pollWaitItems_eq, eventsOf_append] at h
    exact ⟨d, h⟩

/-! ### Host operations that return Ok -/

/-- Settles O31: INIT has no busy wait, so it returns Ok when the accesses of `initItems` succeed (`host_plain`; 43_sequencer.md
R230, R245). -/
theorem initCompletes : Obligations.InitCompletes := by
  intro mode s hw ha
  exact host_plain (i := .init mode) rfl rfl hw ha

/-- A host operation other than INIT has 30 accesses for each of its framed bytes (30_encoding.md R101). -/
theorem accesses_hostItems (c : Cfg) {i : Instr} (h : initMode i = none) :
    accesses (eventsOf (hostItems c i)) = 30 * (hostItems c i).length :=
  accesses_framedItems _ (hostItems_framed c i h)

/-- Settles O32: SET_WINDOW sends eight framed bytes, SET_CURSOR five, whatever the operands (`accesses_hostItems`), and
neither waits (`host_plain`; 43_sequencer.md R231, R232). -/
theorem windowAndCursorComplete : Obligations.WindowAndCursorComplete := by
  refine ⟨fun xs ys xe ye s hw ha => ?setWindow, fun x y s hw ha => ?setCursor⟩
  case setWindow =>
    have hcount : accesses (eventsOf (hostItems s.cfg (.setWindow xs ys xe ye))) = 240 := accesses_hostItems _ rfl
    exact host_plain (i := .setWindow xs ys xe ye) rfl rfl hw (hcount ▸ ha)
  case setCursor =>
    have hcount : accesses (eventsOf (hostItems s.cfg (.setCursor x y))) = 150 := accesses_hostItems _ rfl
    exact host_plain (i := .setCursor x y) rfl rfl hw (hcount ▸ ha)

/-- Settles O33: TURNON_DISPLAY sends four framed bytes (`accesses_hostItems`) and then waits (`host_ok`; 43_sequencer.md R233,
R237). -/
theorem turnonDisplayCompletes : Obligations.TurnonDisplayCompletes := by
  intro s wait hw hwait ha
  have hcount : accesses (eventsOf (hostItems s.cfg .turnonDisplay)) = 120 := accesses_hostItems _ rfl
  rw [eventsOf_append]
  exact host_ok (i := .turnonDisplay) rfl hw hwait (hcount ▸ ha)

/-- Settles O34: SLEEP sends two framed bytes (`accesses_hostItems`) and does not wait (`host_plain`; 43_sequencer.md R240,
R245). -/
theorem sleepCompletes : Obligations.SleepCompletes := by
  intro s hw ha
  have hcount : accesses (eventsOf (hostItems s.cfg .sleep)) = 60 := accesses_hostItems _ rfl
  exact host_plain (i := .sleep) rfl rfl hw (hcount ▸ ha)

/-! ### PSTATE -/

/-- Only INIT and a SLEEP issued in Ready move PSTATE when they return Ok (43_sequencer.md R245). -/
theorem pstateOnOk_same {op : HostOp} {p : PState} (hinit : op ≠ .init) (h : op ≠ .sleep ∨ p ≠ .ready) :
    pstateOnOk op p = p := by
  cases op <;> simp_all [pstateOnOk]

/-- Only INIT and a SLEEP issued in Ready move PSTATE when they return Err (43_sequencer.md R245). -/
theorem pstateOnErr_same {op : HostOp} {p : PState} (hinit : op ≠ .init) (h : op ≠ .sleep ∨ p ≠ .ready) :
    pstateOnErr op p = p := by
  cases op <;> simp_all [pstateOnErr]

/-- Settles O48: an answer leaves `pstateOnOk` or `pstateOnErr` of the state in which the operation was issued
(`hostAnswer_okOrErr`), and each moves for INIT and for SLEEP in Ready alone (43_sequencer.md R245). -/
theorem protocolStateTable : Obligations.ProtocolStateTable := by
  intro i op s t hi h
  rcases hostAnswer_okOrErr hi h with ⟨w, d, -, rfl⟩ | ⟨e, d, u, rfl⟩
  · refine ⟨_, rfl, ?_, ?_, fun hinit hsleep hp => ?_, fun hinit hp => pstateOnOk_same hinit (.inr hp)⟩
    · rintro rfl; rfl
    · rintro rfl hp; simp [hp, pstateOnOk]
    · exact (pstateOnOk_same hinit (.inl hsleep)).trans hp
  · refine ⟨_, rfl, ?_, ?_, fun hinit hsleep hp => ?_, fun hinit hp => pstateOnErr_same hinit (.inr hp)⟩
    · rintro rfl; rfl
    · rintro rfl hp; simp [hp, pstateOnErr]
    · exact (pstateOnErr_same hinit (.inl hsleep)).trans hp

/-! ### What the events of an operation depend on -/

/-- A host operation that answers in one state answers in every state with the same configuration and the same draws, after
the same events and with the same raise (43_sequencer.md R247; 10_state.md R52). -/
theorem HostAnswer.sameDraws {i : Instr} {op : HostOp} {s1 s2 t1 : State} (hi : hostOpOf i = some op)
    (hw : s1.cfg.wf = true) (hcfg : s1.cfg = s2.cfg) (henv : s1.env = s2.env) (h : HostAnswer i op s1 t1) :
    ∃ t2 es r1 r2, exec i s2 = .next t2 ∧ t1.trace = s1.trace ++ es ∧ t2.trace = s2.trace ++ es ∧
      t1.host.revResults = r1 :: s1.host.revResults ∧ t2.host.revResults = r2 :: s2.host.revResults ∧
      r1.raised = r2.raised ∧ t1.env = t2.env := by
  have herr : ∀ e d1 d2 es, (hostErr i op e d1 (emit es s1) s1).env = (hostErr i op e d2 (emit es s2) s2).env :=
    fun _ _ _ es => congrArg (envAfter · es) henv
  cases h with
  | ok w d hwait ha =>
    rw [hcfg, henv] at hwait ha
    obtain ⟨_, h2⟩ := host_ok hi (hcfg ▸ hw) hwait ha
    rw [hcfg]
    exact ⟨_, _, _, _, h2, hostOk_trace .., hostOk_trace .., rfl, rfl, rfl, congrArg (envAfter · _) henv⟩
  | writeFails pre l v post d he ha hf =>
    rw [hcfg] at he
    rw [henv] at ha hf
    obtain ⟨_, h2⟩ := host_writeFails hi (hcfg ▸ hw) he ha hf
    exact ⟨_, _, _, _, h2, emit_trace .., emit_trace .., rfl, rfl, rfl, herr ..⟩
  | timeout d hop hpol hwait ha =>
    rw [hcfg, henv] at hwait ha
    obtain ⟨_, h2⟩ := host_timeout hi hop (hcfg ▸ hw) hwait ha
    rw [hcfg]
    exact ⟨_, _, _, _, h2, emit_trace .., emit_trace .., rfl, rfl, rfl, herr ..⟩
  | readFails k d hop hpol hk hb ha hf =>
    rw [hcfg] at hpol hk
    rw [hcfg, henv] at hb ha hf
    obtain ⟨_, h2⟩ := host_readFails hi hop (hcfg ▸ hw) hpol hk hb ha hf
    rw [hcfg]
    refine ⟨_, _, _, _, h2, emit_trace .., emit_trace .., rfl, rfl, rfl, ?_⟩
    simp [useAnswer, henv]

/-- Where an operation waits for ever depends on the configuration and the draws alone. -/
theorem HostStuck.sameDraws {i : Instr} {op : HostOp} {s1 s2 : State} {pre : List Event} (hcfg : s1.cfg = s2.cfg)
    (henv : s1.env = s2.env) (h : HostStuck i op s1 pre) : HostStuck i op s2 pre := by
  cases h with
  | write _ l v post he ha hf =>
    rw [hcfg] at he
    rw [henv] at ha hf
    exact .write _ l v post he ha hf
  | read k hop hpol hk hb ha hf =>
    rw [hcfg] at hpol hk
    rw [hcfg, henv] at hb ha hf
    rw [hcfg]
    exact .read k hop hpol hk hb ha hf

/-- The state in which a host operation waits for ever has the draws that the events before the access leave. -/
theorem HostStuck.waitingEnv {i : Instr} {op : HostOp} {s b : State} {pre : List Event} (h : HostStuck i op s pre)
    (hi : hostOpOf i = some op) (hw : s.cfg.wf = true) (hb : exec i s = .fault (.gpioNeverReturns b)) :
    b.env = envAfter s.env pre := by
  obtain ⟨_, _, -, hexec⟩ := host_stuck hi hw h
  rw [hb] at hexec
  cases hexec
  rfl

/-- Settles O49: the outcome of a host operation is decided by its items and the draws, for an answer
(`HostAnswer.sameDraws`) and for an access that never returns (`HostStuck.sameDraws`; 43_sequencer.md R247; 10_state.md R52;
log entry 2). -/
theorem eventsIgnoreTheHistory : Obligations.EventsIgnoreTheHistory := by
  intro i op s1 s2 hi hcfg henv
  refine ⟨fun t1 h => ?answers, fun b1 h => ?waits⟩
  case answers => exact (hostAnswer hi h).sameDraws hi (wf_of_exec (.inl h)) hcfg henv
  case waits =>
    have hw1 : s1.cfg.wf = true := wf_of_exec (.inr h)
    have hw2 : s2.cfg.wf = true := hcfg ▸ hw1
    obtain ⟨pre, _, _, -, hstuck1, -⟩ := hostWaits hi h
    have hstuck2 := hstuck1.sameDraws hcfg henv
    obtain ⟨b, hexec1, htrace1, -, hpos1, -⟩ := hstuck1.waitingState hi hw1
    obtain ⟨b2, hexec2, htrace2, -, hpos2, -⟩ := hstuck2.waitingState hi hw2
    obtain rfl : b1 = b := by rw [h] at hexec1; cases hexec1; rfl
    refine ⟨b2, pre, hexec2, htrace1, htrace2, hpos1, hpos2, ?_⟩
    rw [hstuck1.waitingEnv hi hw1 h, hstuck2.waitingEnv hi hw2 hexec2, henv]

/-! ### Reads of BUSY -/

theorem busyReads_append (as bs : List Event) : busyReads (as ++ bs) = busyReads as + busyReads bs :=
  List.countP_append

/-- Planned events are no reads. -/
theorem busyReads_planned {es : List Event} (h : es.all isPlanned = true) : busyReads es = 0 := by
  rw [busyReads, List.countP_eq_zero]
  intro e he
  have hplan := List.all_eq_true.mp h e he
  cases e <;> simp_all [isPlanned, isRead]

/-- The accesses of a wait are its reads. -/
theorem busyReads_wait {es : List Event} (h : es.all isWaitEvent = true) : busyReads es = accesses es := by
  refine List.countP_congr fun e he => ?_
  have hwait := List.all_eq_true.mp h e he
  cases e <;> simp_all [isWaitEvent, isRead, isAccess]

/-- A host operation reads BUSY in its wait only. -/
theorem busyReads_host (c : Cfg) (i : Instr) {wait : List Event} (h : wait.all isWaitEvent = true) :
    busyReads (eventsOf (hostItems c i) ++ wait) = accesses wait := by
  rw [busyReads_append, busyReads_planned (eventsOf_planned _ (hostItems_planned c i)), busyReads_wait h, Nat.zero_add]

theorem firstIdle_le {active : Level} {n k : Nat} {d : Draws Level} {b : Level}
    (h : firstIdle active n d = some (k, b)) : k ≤ n := by
  rcases firstIdle_busyFor active n d with ⟨hnone, -⟩ | ⟨k', b', hsome, hle, -, -⟩
  · rw [h] at hnone; cases hnone
  · rw [h] at hsome; cases hsome; exact hle

/-- How often a wait that ends reads BUSY: never where the operation has no wait and under FixedDelay, and under Poll at least
once and at most ceil(T_BUSY_TIMEOUT_MS / T_POLL_MS) + 1 times (43_sequencer.md R237, R238). -/
theorem accesses_waitTail {c : Cfg} {busy : Draws Level} {waits : Bool} {w : List WireItem}
    (h : waitTail c busy waits = some w) :
    accesses (eventsOf w) ≤ pollBound c + 1 ∧ (c.busyPolicy = .fixedDelay → accesses (eventsOf w) = 0) ∧
      (c.busyPolicy = .poll → waits = true → 1 ≤ accesses (eventsOf w)) := by
  rw [waitTail_eq_some_iff] at h
  cases waits with
  | false =>
    obtain rfl : w = [] := h
    simp
  | true =>
    cases hpol : c.busyPolicy with
    | fixedDelay =>
      obtain rfl : fixedWaitItems c = w := by simpa [waitItems_fixedDelay hpol] using h
      simp [fixedWaitItems, itemEvents, accesses, isAccess]
    | poll =>
      obtain ⟨⟨k, b⟩, hidle, rfl⟩ : ∃ p, firstIdle c.busyActiveLevel (pollBound c) busy = some p ∧
          pollWaitItems c p.1 p.2 = w := by simpa only [waitItems_poll hpol, if_true, Option.map_eq_some_iff] using h
      rw [accesses_pollWaitItems]
      exact ⟨Nat.add_le_add_right (firstIdle_le hidle) 1, by simp, by simp⟩

/-- Settles O53: by how the operation answered (`hostAnswer`): it reads BUSY in its wait alone (`busyReads_host`), a wait that
ends reads as `accesses_waitTail` says, one that times out reads ceil(T_BUSY_TIMEOUT_MS / T_POLL_MS) + 1 times, and a read that
fails comes after at most as many turns as there are polls (43_sequencer.md R237, R238). -/
theorem pollReadsAreBounded : Obligations.PollReadsAreBounded := by
  intro i op s t hi h
  cases hostAnswer hi h with
  | ok w d hwait ha =>
    obtain ⟨hmax, hfixed, hpoll⟩ := accesses_waitTail hwait
    refine ⟨_, _, hostOk_trace .., rfl, ?_⟩
    rw [busyReads_host _ _ (waitTail_wait hwait)]
    exact ⟨hmax, hfixed, fun hpol hop _ => hpoll hpol hop⟩
  | writeFails pre l v post d he ha hf =>
    have hplan := eventsOf_planned _ (hostItems_planned s.cfg i)
    rw [he, List.all_append, Bool.and_eq_true] at hplan
    have hreads : busyReads (pre ++ [.f l v]) = 0 := by
      rw [busyReads_append, busyReads_planned hplan.1]
      rfl
    refine ⟨_, _, (hostErr_trace ..).trans (emit_trace ..), rfl, ?_⟩
    simp [hreads]
  | timeout d hop hpol hwait ha =>
    refine ⟨_, _, (hostErr_trace ..).trans (emit_trace ..), rfl, ?_⟩
    rw [busyReads_host _ _ (timeoutItems_wait _), timeoutItems, accesses_pollWaitItems]
    exact ⟨le_refl _, by simp [hpol], by simp⟩
  | readFails k d hop hpol hk hb ha hf =>
    refine ⟨_, _, (hostErr_trace ..).trans (emit_trace ..), rfl, ?_⟩
    rw [busyReads_host _ _ (eventsOf_busyTurns_wait _ _), accesses_busyTurns]
    exact ⟨Nat.le_succ_of_le hk, by simp [hpol], by simp⟩

end Sys2Proof.Machine
end

section
/-! PROOFS. The framebuffer streamer (44_streamer.md): what STREAM_FRAME, DISPLAY and CLEAR complete with, what a frame puts
in the trace, and what of it depends on the buffer. -/

namespace Sys2Proof.Machine

/-! ### STREAM_FRAME with no failing access -/

/-- Settles O35: STREAM_FRAME plays `frameItems` and then waits; it writes neither ghost state nor status (`inner_ok`;
44_streamer.md R270 to R272). -/
theorem streamFrameCompletes : Obligations.StreamFrameCompletes := by
  intro src s wait hw hwait ha
  rw [eventsOf_append]
  exact inner_ok (i := .streamFrame src) rfl hw hwait ha

/-! ### The host operations that send a frame -/

/-- The host operations that send a frame, and the source of its bytes (44_streamer.md R275, R276). -/
inductive SendsFrame : Instr → HostOp → Source → Prop
  | clear : SendsFrame .clear .clear .const
  | display (buf : List Byte) : SendsFrame (.display buf) .display (.buffer buf)

section
variable {i : Instr} {op : HostOp} {src : Source}

theorem SendsFrame.hostOp (h : SendsFrame i op src) : hostOpOf i = some op := by cases h <;> rfl
theorem SendsFrame.waits (h : SendsFrame i op src) : waitsAtEnd op = true := by cases h <;> rfl
theorem SendsFrame.items (h : SendsFrame i op src) (c : Cfg) : hostItems c i = frameItems c src := by cases h <;> rfl

/-- One whose accesses all succeed and whose wait ends returns Ok. -/
theorem SendsFrame.completes (h : SendsFrame i op src) {s : State} {w : List WireItem} (hw : s.cfg.wf = true)
    (hwait : waitItems s.cfg s.env.busy = some w)
    (ha : answersOk (accesses (eventsOf (frameItems s.cfg src)) + accesses (eventsOf w)) s.env.gpio = true) :
    ∃ d, exec i s = .next (hostOk i op (eventsOf (frameItems s.cfg src ++ w)) d s) := by
  have htail : waitTail s.cfg s.env.busy (waitsAtEnd op) = some w := by rwa [h.waits]
  rw [← h.items] at ha ⊢
  rw [eventsOf_append]
  exact host_ok h.hostOp hw htail ha

/-- The trace of one that returned Ok: its frame and its wait, which the decoder gives back (30_encoding.md R126). -/
theorem SendsFrame.trace (h : SendsFrame i op src) {s t : State} {r : OpResult} (hexec : exec i s = .next t)
    (hres : t.host.revResults = r :: s.host.revResults) (hok : r.raised = none) :
    ∃ w, waitItems s.cfg s.env.busy = some w ∧ w.all isWaitItem = true ∧
      t.trace = s.trace ++ eventsOf (frameItems s.cfg src ++ w) ∧
      decodeTrace (eventsOf (frameItems s.cfg src ++ w)) = frameItems s.cfg src ++ w := by
  obtain ⟨w, d, hwait, rfl⟩ := host_returnedOk h.hostOp hexec hres hok
  have hw : w.all isWaitItem = true := waitTail_waitItems hwait
  rw [h.waits] at hwait
  rw [← h.items, hostOk_trace, ← eventsOf_append]
  exact ⟨w, hwait, hw, rfl, decodeTrace_host s.cfg i w hw⟩

end

/-- Settles O36: both send the frame of their source and wait (`SendsFrame.completes`); what `hostOk` says of ghost state and
status holds for every buffer (44_streamer.md R275, R276). -/
theorem displayAndClearComplete : Obligations.DisplayAndClearComplete := by
  intro s wait hw hwait
  exact ⟨fun buf => (SendsFrame.display buf).completes hw hwait, SendsFrame.clear.completes hw hwait⟩

/-! ### The rows of a DISPLAY -/

/-- The terminate byte is the third frame of an activation or the data byte of its second (30_encoding.md R103). -/
theorem activationFrames_length (c : Cfg) : (activationFrames c).length = 2 ∨ (activationFrames c).length = 3 := by
  unfold activationFrames
  cases c.terminateKind with
  | cmd => exact .inr rfl
  | data => exact .inl rfl

/-- Settles O56: the trace of a DISPLAY splits into the window frames, three frames for each row and the activation
(`splitFrames_frame`); the rows' bytes one after another are the first bytes of the buffer (`rows_buffer`; 44_streamer.md
R272, R273). -/
theorem displayRowsFollowTheBuffer : Obligations.DisplayRowsFollowTheBuffer := by
  intro buf s t r hexec hres hok
  obtain ⟨w, -, hw, htrace, hdec⟩ := (SendsFrame.display buf).trace hexec hres hok
  refine ⟨_, rowBytes s.cfg (.buffer buf), windowFrames s.cfg, activationFrames s.cfg, htrace, ?_, rfl,
    activationFrames_length s.cfg, fun y _ => rowBytes_length s.cfg buf y, rows_length s.cfg (.buffer buf),
    rows_buffer buf _ _⟩
  rw [hdec]
  exact splitFrames_frame s.cfg (.buffer buf) hw

/-! ### Counts -/

/-- Settles O57: the wait holds no framed byte and no write (`framedBytes_wait`, `gpioWrites_wait`), and the frame has the
bytes that `framedBytes_frame` counts, 30 writes each; at the reference geometry BW is 27 (44_streamer.md R274). -/
theorem frameByteCounts : Obligations.FrameByteCounts := by
  intro i src s t r hi hexec hres hok
  obtain ⟨op, hf⟩ : ∃ op, SendsFrame i op src := by
    rcases hi with ⟨rfl, rfl⟩ | ⟨buf, rfl, rfl⟩
    · exact ⟨_, .clear⟩
    · exact ⟨_, .display buf⟩
  obtain ⟨w, hwait, hw, htrace, hdec⟩ := hf.trace hexec hres hok
  have hbytes : framedBytes (decodeTrace (eventsOf (frameItems s.cfg src ++ w)))
      = 12 + 6 * s.cfg.height + frameDataBytes s.cfg src := by
    rw [hdec, framedBytes_append, framedBytes_wait hw, framedBytes_frame, Nat.add_zero]
  have hwrites : gpioWrites (eventsOf (frameItems s.cfg src ++ w))
      = 30 * framedBytes (decodeTrace (eventsOf (frameItems s.cfg src ++ w))) := by
    rw [hdec, eventsOf_append, gpioWrites_append, gpioWrites_wait w hw, gpioWrites_framed _ (frameItems_framed s.cfg src),
      framedBytes_append, framedBytes_wait hw, Nat.add_zero, Nat.add_zero]
  refine ⟨_, w, htrace, hwait, hdec, hbytes, hwrites, fun hwidth hheight hsrc => ?const,
    fun buf hwidth hheight hsrc hlen => ?buffer⟩
  case const =>
    rw [hwrites, hbytes, hsrc]
    simp [frameDataBytes, byteWidth, hwidth, hheight]
  case buffer =>
    rw [hwrites, hbytes, hsrc]
    simp [frameDataBytes, byteWidth, hwidth, hheight, hlen]

/-! ### Two DISPLAYs of equal length -/

/-- A frame without its data bytes where it is a write-RAM frame. -/
def withoutRamData (c : Cfg) (f : CommandFrame) : CommandFrame := if f.op = c.opWriteRam then { f with data := [] } else f

/-- The frames of a row depend on the source in their write-RAM data only (44_streamer.md R270). -/
theorem rowFrames_withoutRamData (c : Cfg) (src src' : Source) (y : Nat) :
    (rowFrames c src y).map (withoutRamData c) = (rowFrames c src' y).map (withoutRamData c) := by
  simp [rowFrames, withoutRamData]

/-- So do the frames of a whole frame, its window and its activation being those of the configuration. -/
theorem frame_withoutRamData (c : Cfg) (src src' : Source) {w w' : List WireItem} (hw : w.all isWaitItem = true)
    (hw' : w'.all isWaitItem = true) : (splitFrames (frameItems c src ++ w)).map (withoutRamData c)
      = (splitFrames (frameItems c src' ++ w')).map (withoutRamData c) := by
  rw [splitFrames_frame c src hw, splitFrames_frame c src' hw']
  simp only [List.map_append, List.map_flatMap, rowFrames_withoutRamData c src src']

/-- Settles O59: the two have the same items but for the values of framed bytes (`sameShape_frames`), which only DIN carries
(`sameShape_events`), and the same frames but for write-RAM data (`frame_withoutRamData`; 44_streamer.md R277). -/
theorem displaysDifferOnlyInDin : Obligations.DisplaysDifferOnlyInDin := by
  intro b1 b2 s1 s2 t1 t2 r1 r2 hlen hcfg hwaits hexec1 hexec2 hres1 hok1 hres2 hok2
  obtain ⟨w1, hwait1, hw, htrace1, hdec1⟩ := (SendsFrame.display b1).trace hexec1 hres1 hok1
  obtain ⟨w2, hwait2, -, htrace2, hdec2⟩ := (SendsFrame.display b2).trace hexec2 hres2 hok2
  obtain rfl : w1 = w2 := by simpa [hwait1, hwait2] using hwaits
  rw [← hcfg] at htrace2 hdec2
  obtain ⟨hlength, hevents⟩ := sameShape_events ((sameShape_frames s1.cfg b1 b2 hlen).append (.refl w1))
  refine ⟨_, _, htrace1, htrace2, hlength, hevents, ?_⟩
  rw [hdec1, hdec2]
  exact frame_withoutRamData s1.cfg (.buffer b1) (.buffer b2) hw hw

end Sys2Proof.Machine
end

section
/-! PROOFS. Exceptions (60_exceptions.md): where an operation is aborted by a failed access or a busy timeout, and that a host
operation has no other outcome. -/

namespace Sys2Proof.Machine

/-! ### The busy wait that times out -/

/-- Under Poll, BUSY active at every read up to the bound leaves no wait that ends (43_sequencer.md R237, R238). -/
theorem waitItems_timeout {c : Cfg} {busy : Draws Level} (hpol : c.busyPolicy = .poll)
    (hb : busyFor c.busyActiveLevel (pollBound c + 1) busy = true) : waitItems c busy = none := by
  rw [waitItems_poll hpol, firstIdle_none hb]
  rfl

theorem timeoutItems_eq (c : Cfg) :
    timeoutItems c = busyTurns c (pollBound c) ++ [.single (.rd c.busyActiveLevel)] := pollWaitItems_eq ..

/-! ### Host operations -/

/-- Settles O37: a host operation plays the events of its items, and `host_writeFails` says where a failing write ends them
(60_exceptions.md R305; 40_transport.md R140). -/
theorem failedWriteAborts : Obligations.FailedWriteAborts := by
  intro i op s pre post l v hi hw he ha hf
  exact host_writeFails hi hw he ha hf

/-- Settles O38: after the items of the operation a read fails in its wait (`host_readFails`), or every read up to the bound
is busy, so that the wait has no end (`waitItems_timeout`) and the operation times out (`host_timeout`; 60_exceptions.md R301;
43_sequencer.md R237; log entry 14). -/
theorem busyWaitAborts : Obligations.BusyWaitAborts := by
  intro i op s hi hop hw hpol
  refine ⟨fun k hk hb ha hf => ?readFails, fun hb ha => ?timeout⟩
  case readFails =>
    rw [eventsOf_append]
    exact host_readFails hi hop hw hpol hk hb ha hf
  case timeout =>
    rw [List.append_assoc, ← timeoutItems_eq, eventsOf_append]
    exact host_timeout hi hop hw (waitItems_timeout hpol hb) ha

/-- Settles O40: `host_outcome` splits a host operation by how the playing of its events ended, and each of its four answers
and its wait for ever is one of the five outcomes (60_exceptions.md R303, R306; log entries 2 and 14). -/
theorem hostOperationOutcomes : Obligations.HostOperationOutcomes := by
  intro i op s hi hw
  rcases host_outcome hi hw with ⟨t, hexec, hanswer⟩ | ⟨pre, d, p, -, hexec, -⟩
  · cases hanswer with
    | ok w d hwait _ =>
      rw [← eventsOf_append] at hexec
      exact .inl ⟨d, w, (waitTail_eq_some_iff ..).mp hwait, hexec⟩
    | writeFails pre l v post d he _ _ => exact .inr (.inl ⟨d, pre, post, l, v, he, hexec⟩)
    | readFails k d hop hpol hk _ _ _ =>
      rw [← eventsOf_append] at hexec
      exact .inr (.inr (.inl ⟨d, k, hop, hpol, hk, hexec⟩))
    | timeout d hop hpol _ _ =>
      rw [← eventsOf_append] at hexec
      exact .inr (.inr (.inr (.inl ⟨d, hop, hpol, hexec⟩)))
  · exact .inr (.inr (.inr (.inr ⟨_, hexec⟩)))

/-! ### Micro-operations and command frames run alone -/

/-- Settles O41: by the access that ends it, a write among its events (`inner_writeFails`, `inner_writeNever`) or a read of its
wait (`inner_readFails`, `inner_readNever`), or by the timeout, where no read finds BUSY idle (`waitItems_timeout`,
`inner_timeout`; log entries 2, 10 and 14). -/
theorem innerFailureAborts : Obligations.InnerFailureAborts := by
  intro i s hi hw
  refine ⟨fun pre post l v he ha => ?write, fun k hwt hpol hk hb ha => ?read, fun hwt hpol hb ha => ?timeout⟩
  case write => exact ⟨inner_writeFails hi hw he ha, inner_writeNever hi hw he ha⟩
  case read => exact ⟨inner_readFails hi hwt hw hpol hk hb ha, inner_readNever hi hwt hw hpol hk hb ha⟩
  case timeout =>
    rw [← timeoutItems_eq]
    exact inner_timeout hi hwt hw (waitItems_timeout hpol hb) ha

end Sys2Proof.Machine
end

section
/-! PROOFS. Reset and hazards (70_reset_and_hazards.md): the order of the lines, how long an operation blocks its caller, and
the end of a run. -/

namespace Sys2Proof.Machine

/-! ### The order of the lines -/

/-- Settles O21: an operation performs the events of its items up to a failure or a wait (`exec_follows`); the items keep the
line order, since each framed byte drives CS and DIN while CLK is not High and DC before CS is Low (`items_keep_order`;
70_reset_and_hazards.md R353), and what is performed of them keeps it too (`lineOrderOk_performed`). -/
theorem lineOrderIsKept : Obligations.LineOrderIsKept := by
  intro i op s t hi hclk hcs h
  obtain ⟨es, hperf, follows⟩ := exec_follows h
  rw [plannedEvents_host _ hi] at hperf
  obtain ⟨hplanned, -, -⟩ := items_keep_order (hostItems s.cfg i) s.lines (hostItems_plain s.cfg i) hclk hcs
  exact ⟨es, follows.trace, lineOrderOk_performed hplanned hperf⟩

/-! ### How long an operation blocks its caller -/

theorem delayedMs_le_append_left (v : Env) (as bs : List Event) :
    delayedMs v.late as ≤ delayedMs v.late (as ++ bs) := by
  rw [delayedMs_append]
  exact Nat.le_add_right _ _

theorem delayedMs_le_append_right (v : Env) (as bs : List Event) :
    delayedMs (envAfter v as).late bs ≤ delayedMs v.late (as ++ bs) := by
  rw [delayedMs_append]
  exact Nat.le_add_left _ _

/-- The delays of an INIT last at least as long as those of its RESET (43_sequencer.md R222, R230). -/
theorem delayedMs_initItems_ge (c : Cfg) (mode : Byte) (v : Env) :
    3 * c.tResetMs ≤ delayedMs v.late (eventsOf (initItems c mode)) := by
  rw [initItems, List.append_assoc, eventsOf_append, eventsOf_append configureItems]
  calc 3 * c.tResetMs
    _ ≤ delayedMs (envAfter v (eventsOf configureItems)).late (eventsOf (resetItems c)) := delayedMs_resetItems_ge c _
    _ ≤ delayedMs v.late (eventsOf configureItems ++ eventsOf (resetItems c)) := delayedMs_le_append_right v _ _
    _ ≤ _ := delayedMs_le_append_left v _ _

/-- The fixed busy wait lasts at least its minimum (40_transport.md R144; 43_sequencer.md R237). -/
theorem delayedMs_fixedWaitItems_ge (c : Cfg) (late : Draws Nat) :
    c.tBusyMs ≤ delayedMs late (eventsOf (fixedWaitItems c)) :=
  Nat.le_add_right c.tBusyMs (nextDraw late)

/-- Settles O52: an Ok has performed the items of the operation and of its wait (`host_returnedOk`), and their delays count as
time. Those of INIT hold the three of a RESET (`delayedMs_initItems_ge`), each of at least 200 ms (`tResetMs_ge`); the other
three end with the fixed wait (`delayedMs_fixedWaitItems_ge`; 70_reset_and_hazards.md R357). -/
theorem operationsBlockTheCaller : Obligations.OperationsBlockTheCaller := by
  intro i op s t r hi h hres hok
  obtain ⟨w, d, hwait, rfl⟩ := host_returnedOk hi h hres hok
  rw [hostOk_blockedMs]
  refine ⟨fun hop => ?init, fun hop hpol => ?waits⟩
  case init =>
    obtain ⟨mode, rfl⟩ : ∃ mode, i = .init mode := by subst hop; cases i <;> cases hi; exact ⟨_, rfl⟩
    have hreset := delayedMs_initItems_ge s.cfg mode s.env
    have hrest := delayedMs_le_append_left s.env (eventsOf (initItems s.cfg mode)) (eventsOf w)
    have hms := tResetMs_ge (wf_of_exec (.inl h))
    rw [hostItems_init]
    omega
  case waits =>
    have hends : waitsAtEnd op = true := by rcases hop with rfl | rfl | rfl <;> rfl
    rw [waitTail_eq_some_iff, if_pos hends, waitItems_fixedDelay hpol] at hwait
    obtain rfl : fixedWaitItems s.cfg = w := Option.some.inj hwait
    have hbusy := delayedMs_fixedWaitItems_ge s.cfg (envAfter s.env (eventsOf (hostItems s.cfg i))).late
    exact Nat.add_le_add_left (hbusy.trans (delayedMs_le_append_right ..)) _

/-! ### The end of a run -/

theorem step_runEnded {s : State} (h : s.host.runEnded = true) : step s = .fault .runAborted := by
  rw [step, if_pos h]

theorem step_noIssue {s : State} (hrun : s.host.runEnded = false) (hnext : nextIssue s.host = none) :
    step s = .fault .programExhausted := by
  rw [step, hrun, hnext]
  rfl

/-- Settles O13: `step` looks at the end by an Err first (`step_runEnded`), and a position at the end of the program or beyond
holds no entry (`step_noIssue`; 70_reset_and_hazards.md R352, log entry 12). -/
theorem endedRunsTakeNoStep : Obligations.EndedRunsTakeNoStep :=
  ⟨fun _ h => step_runEnded h, fun _ hrun hend => step_noIssue hrun (List.getElem?_eq_none hend)⟩

end Sys2Proof.Machine
end
